-- ==== Sys2Proof/Word.lean ====
section
/-! DEFINITION. The word types of the engine and the 16-byte block (00_scope.md R10, R11; 41_crypto.md R160). -/

namespace Sys2Proof

/-- A byte, 0..255 (R10). -/
abbrev Byte := BitVec 8

/-- A 16-bit value: a length, a checksum, a CRC, the counter (R8, R10). -/
abbrev Half := BitVec 16

/-- A 32-bit bus word (R60). -/
abbrev Word := BitVec 32

/-- A byte offset of the engine's 0x4000-byte window (R60). -/
abbrev Offset := BitVec 14

/-- Four bytes in index order: one bus word of KEY or IV, one column `S[0][c] .. S[3][c]` of the AES
state (R160), one word `w[i]` of the key expansion (R164). -/
structure Column where
  r0 : Byte
  r1 : Byte
  r2 : Byte
  r3 : Byte
deriving DecidableEq, Repr, Inhabited

/-- Sixteen bytes in index order: KEY, IV, an AES block, a round key. Column `c` holds the bytes
`b[4c] .. b[4c+3]`, so the byte at row `r` and column `c` is `b[r + 4c]` (R160). -/
structure Block where
  c0 : Column
  c1 : Column
  c2 : Column
  c3 : Column
deriving DecidableEq, Repr, Inhabited

end Sys2Proof
end

