-- ==== Sys2Proof/Config.lean ====
section
/-! DEFINITION. The parameters a model takes as arguments (00_scope.md R9) and the free values. -/

namespace Sys2Proof

/-- The constant parts of the layout (R8). -/
def Config.hdrLen : Nat := 0x38

/-- The parameters of one engine (R9). They stand in State, where no step writes them, so that a statement about
every state is a statement about every parameter value (DESIGN CHOICE, log 1). -/
structure Params where
  /-- BUF_BYTES: the size of each of the SRC and DST buffers. -/
  bufBytes : Nat
  /-- DEFAULT_KEY. -/
  defaultKey : Block
  /-- IV_CONST. -/
  ivConst : Block
  /-- HDR_TEMPLATE: 0x38 bytes. -/
  hdrTemplate : List Byte
  /-- ERR_OFFSET: header offset of the reply's error code. -/
  errOffset : Nat
deriving DecidableEq, Repr

/-- DEFAULT_KEY of the default instance: OPEN (92_eei_decisions.md D14; log 2). -/
opaque Config.defaultKey : Block

/-- IV_CONST of the default instance: OPEN (D15; log 2). -/
opaque Config.ivConst : Block

/-- The 8 magic bytes of the default instance, header bytes 0x00 to 0x07: OPEN (D16; log 2). -/
opaque Config.magic : Nat → Byte

/-- The value of the `k`-th buffer byte read, where nothing has written that byte since reset: unconstrained
(10_state.md R42; log 4). -/
opaque Config.freeByte : Nat → Byte

/-- The spec's default instance: BUF_BYTES = 0x1000, ERR_OFFSET = 0x22, a header template that is zero outside
the magic (R9). -/
def Params.default : Params where
  bufBytes := 0x1000
  defaultKey := Config.defaultKey
  ivConst := Config.ivConst
  hdrTemplate := [Config.magic 0, Config.magic 1, Config.magic 2, Config.magic 3,
    Config.magic 4, Config.magic 5, Config.magic 6, Config.magic 7] ++ List.replicate 0x30 0
  errOffset := 0x22

end Sys2Proof
end

