-- ==== Sys2Proof/Machine/State.lean ====
section
/-! DEFINITION. The state of the engine and of the host that drives it, and the state after reset (10_state.md; 70_reset_and_hazards.md R270). -/

namespace Sys2Proof.Machine

/-- A buffer: the bytes written since reset, as (index, byte) pairs with strictly rising indexes. An index that is not
listed holds no value (10_state.md R42; log 4). -/
abbrev Memory := List Host.Cell

/-- One line of a host program (30_encoding.md R101, R103). CMD, LOADSRC, SETKEY, SETIV, SETMAC and SETID are functions that
give lists of these (Machine/HostProg.lean). -/
inductive HostOp where
  /-- `RD off`: one MemRead. -/
  | rd (off : Offset)
  /-- `WR off, val`: one MemWrite. -/
  | wr (off : Offset) (val : Word)
  /-- `WAIT`: reads STATUS until BUSY is clear. -/
  | wait
  /-- `READDST -> buf`: starts with a read of DST_LEN. -/
  | readDst
  /-- `COPYDST`: READDST, then LOADSRC of what it read. -/
  | copyDst
  /-- A READDST (or, with `copy`, a COPYDST) under way: `m` bytes in all, word `j` is read next. -/
  | collect (m j : Nat) (copy : Bool)
deriving DecidableEq, Repr

/-- Who moves at a step (20_memory.md R72; log 6). -/
inductive Turn where
  /-- The host makes its next access. -/
  | host
  /-- The engine executes and commits the command in flight, if there is one. -/
  | engine
  /-- The reset input is asserted (70_reset_and_hazards.md R270). -/
  | reset
deriving DecidableEq, Repr

/-- The host agent: the model's own fields (10_state.md R20; log 6, log 7, log 11). -/
structure HostSide where
  /-- What the host still has to do, in program order. -/
  prog : List HostOp
  /-- Who moves next; empty: the engine if it is busy, else the host. -/
  sched : List Turn
  /-- The words the host's reads returned, newest first. -/
  log : List Word
  /-- The bytes of the last READDST. -/
  buf : List Byte
deriving DecidableEq, Repr

/-- The state. Each field's rule and reset value stand in INVENTORY.md. -/
structure State where
  /-- The parameters (00_scope.md R9); no step writes them. -/
  params : Params
  /-- STATUS.BUSY (R25). -/
  busy : Bool
  /-- STATUS.DONE (R25). -/
  done : Bool
  /-- STATUS.OVR (R25). -/
  ovr : Bool
  /-- STATUS.ERR (R25). -/
  err : BitVec 4
  /-- IRQ_EN.DONE_IE (R35). -/
  doneIe : Bool
  /-- SRC_LEN.LEN (R32). -/
  srcLen : Half
  /-- DST_LEN (R33). -/
  dstLen : Half
  /-- RESULT (R34). -/
  result : Half
  /-- ECHO (R31): `ECHO[k]` in bits 8k+7 to 8k. -/
  echo : Word
  /-- COUNTER (R30). -/
  counter : Half
  /-- DEVID (R29): `DEVID[k]` in bits 8k+7 to 8k. -/
  devid : Word
  /-- MAC_LO (R28). -/
  macLo : Word
  /-- MAC_HI[15:0] (R28). -/
  macHi : Half
  /-- KEY[0..16); column j is the register KEYj (R26). -/
  key : Block
  /-- IV[0..16); column j is the register IVj (R27). -/
  iv : Block
  /-- CMDLATCH (R39). -/
  cmdLatch : Word
  /-- SRC (R37). -/
  src : Memory
  /-- DST (R38). -/
  dst : Memory
  /-- How many buffer bytes have been read: names the free value of an unwritten byte (R42; log 4). -/
  tick : Nat
  /-- The host agent. -/
  host : HostSide
deriving DecidableEq, Repr

/-- Why the machine stops. It never does: "There are no traps: no error of a command interrupts, redirects or stops the
host" (60_exceptions.md R244); every access of the window has an effect (20_memory.md R61, R71). No constructor. -/
inductive Fault
deriving DecidableEq, Repr

/-- Why an instruction is refused. -/
inductive Refusal where
  /-- Raised by an arm of `exec` whose command has no meaning yet; safe. No arm of this model raises it. -/
  | notModelled (mnemonic : String)
deriving DecidableEq, Repr

/-- A host with nothing to do. -/
def HostSide.idle : HostSide := ⟨[], [], [], []⟩

/-- The state after reset of an engine with parameters `p` (R23, R270). CMDLATCH is zero (DESIGN CHOICE, log 5), so are the
model's own fields (log 4, log 6, log 7, log 11). -/
def State.resetOf (p : Params) : State where
  params := p
  busy := false
  done := false
  ovr := false
  err := 0
  doneIe := false
  srcLen := 0
  dstLen := 0
  result := 0
  echo := 0
  counter := 0
  devid := 0
  macLo := 0
  macHi := 0
  key := p.defaultKey
  iv := p.ivConst
  cmdLatch := 0
  src := []
  dst := []
  tick := 0
  host := HostSide.idle

/-- The state after reset of the spec's default instance (R9, R270). -/
def State.reset : State := State.resetOf Params.default

end Sys2Proof.Machine
end

