-- ==== Sys2Proof/Machine/Flags.lean ====
section
/-! DEFINITION. STATUS, the completion codes and the interrupt output (10_state.md R25, R40; 60_exceptions.md R240, R247). -/

namespace Sys2Proof.Machine

/-- The errors a command rule can raise (60_exceptions.md R240). DEVICE carries the reply's error code and CRC the computed
CRC, the values R243 records in RESULT. -/
inductive Err where
  | illegal
  | len
  | align
  | trunc
  | malformed
  | device (code : Half)
  | crc (computed : Half)
deriving DecidableEq, Repr

/-- The completion code written to STATUS.ERR (R240). -/
def Err.code : Err → BitVec 4
  | .illegal => 1
  | .len => 2
  | .align => 3
  | .trunc => 4
  | .malformed => 5
  | .device _ => 6
  | .crc _ => 7

/-- `v_E`: what the error commit writes to RESULT (R243). -/
def Err.value : Err → Half
  | .illegal => 0
  | .len => 0
  | .align => 0
  | .trunc => 0
  | .malformed => 0
  | .device c => c
  | .crc c => c

/-- The STATUS register as the host reads it: BUSY bit 0, DONE bit 1, OVR bit 2, ERR bits 11:8, the rest 0 (R25). -/
def State.statusWord (s : State) : Word :=
  (BitVec.ofBool s.busy).setWidth 32 ||| (BitVec.ofBool s.done).setWidth 32 <<< 1 |||
  (BitVec.ofBool s.ovr).setWidth 32 <<< 2 ||| s.err.setWidth 32 <<< 8

/-- A write of STATUS: DONE and OVR are cleared where `v` has a one, every other bit of `v` is ignored (R25). -/
def State.clearStatus (v : Word) (s : State) : State :=
  { s with done := s.done && !v.getLsbD 1, ovr := s.ovr && !v.getLsbD 2 }

/-- The interrupt output: `IRQ = STATUS.DONE & IRQ_EN.DONE_IE` (R247). -/
def State.irq (s : State) : Bool := s.done && s.doneIe

end Sys2Proof.Machine
end

