-- ==== Sys2Proof/Machine/Operands.lean ====
section
/-! DEFINITION. Bytes, words and lengths: the byte orders of 00_scope.md R11, R12 and 20_memory.md R62, R63. -/

namespace Sys2Proof.Machine

/-- `LE16(v)`: low byte first (R11). -/
def le16 (v : Half) : List Byte := [v.extractLsb' 0 8, v.extractLsb' 8 8]

/-- `rdLE16(s, o)`: the low byte at `o`, the high byte at `o + 1` (R11). Every rule reads inside `s`. -/
def rdLE16 (s : List Byte) (o : Nat) : Half :=
  (s.getD o 0).setWidth 16 ||| (s.getD (o + 1) 0).setWidth 16 <<< 8

/-- `pad16(n)`: the least multiple of 16 that is `>= n` (R11). -/
def pad16 (n : Nat) : Nat := (n + 15) / 16 * 16

/-- The bytes of a bus word, the byte of bits 8k+7 to 8k at index k (20_memory.md R62). -/
def wordBytes (w : Word) : List Byte :=
  [w.extractLsb' 0 8, w.extractLsb' 8 8, w.extractLsb' 16 8, w.extractLsb' 24 8]

/-- The bus word of four bytes, byte k in bits 8k+7 to 8k (R62); a missing byte is 0 (30_encoding.md R103, LOADSRC). -/
def bytesWord (bs : List Byte) : Word :=
  bs.getD 3 0 ++ bs.getD 2 0 ++ bs.getD 1 0 ++ bs.getD 0 0

/-- The register KEYj or IVj that holds a column (10_state.md R26, R27). -/
def columnWord (c : Column) : Word := c.r3 ++ c.r2 ++ c.r1 ++ c.r0

/-- The column that a register KEYj or IVj holds (R26, R27). -/
def wordColumn (w : Word) : Column :=
  ⟨w.extractLsb' 0 8, w.extractLsb' 8 8, w.extractLsb' 16 8, w.extractLsb' 24 8⟩

/-- Word j of a 16-byte register. -/
def blockColumn (b : Block) (j : Fin 4) : Column :=
  match j with
  | 0 => b.c0
  | 1 => b.c1
  | 2 => b.c2
  | 3 => b.c3

/-- A 16-byte register with word j replaced. -/
def setBlockColumn (b : Block) (j : Fin 4) (c : Column) : Block :=
  match j with
  | 0 => { b with c0 := c }
  | 1 => { b with c1 := c }
  | 2 => { b with c2 := c }
  | 3 => { b with c3 := c }

/-- `MAC[0..6)`: four bytes of MAC_LO, two of MAC_HI (10_state.md R28). -/
def State.macBytes (s : State) : List Byte := wordBytes s.macLo ++ le16 s.macHi

/-- `DEVID[0..4)` (R29). -/
def State.devidBytes (s : State) : List Byte := wordBytes s.devid

/-- The bytes of a column in index order. -/
def columnBytes (c : Column) : List Byte := [c.r0, c.r1, c.r2, c.r3]

/-- The bytes of a block in index order (41_crypto.md R160). -/
def blockBytes (b : Block) : List Byte :=
  columnBytes b.c0 ++ columnBytes b.c1 ++ columnBytes b.c2 ++ columnBytes b.c3

/-- A byte sequence four bytes at a time; fewer than four trailing bytes are left out, and no rule has any (R174). -/
def columnsOf : List Byte → List Column
  | a :: b :: c :: d :: rest => ⟨a, b, c, d⟩ :: columnsOf rest
  | _ => []

/-- Columns four at a time; fewer than four trailing columns are left out, and no rule has any (R174). -/
def blocksOfColumns : List Column → List Block
  | a :: b :: c :: d :: rest => ⟨a, b, c, d⟩ :: blocksOfColumns rest
  | _ => []

/-- The 16-byte blocks `p[16i..16i+16)` of a byte sequence (R172). -/
def blocksOf (bs : List Byte) : List Block := blocksOfColumns (columnsOf bs)

/-- The concatenation of blocks (R172). -/
def bytesOf : List Block → List Byte
  | [] => []
  | b :: bs => blockBytes b ++ bytesOf bs

/-- `h[o..o+len(bs)) <- bs` (R11). -/
def putAt (h : List Byte) (o : Nat) (bs : List Byte) : List Byte :=
  h.take o ++ bs ++ h.drop (o + bs.length)

end Sys2Proof.Machine
end

