-- ==== Sys2Proof/Machine/Ops.lean ====
section
/-! DEFINITION. The shared operations: buffers, issue, success commit, error commit, the LEN check on the input. -/

namespace Sys2Proof.Machine

/-- The byte at an index, if one has been written since reset (10_state.md R42). -/
def Memory.get? : Memory → Nat → Option Byte
  | [], _ => none
  | (k, b) :: m, a => if a = k then some b else Memory.get? m a

/-- A buffer with one byte written; the indexes stay strictly rising. -/
def Memory.set : Memory → Nat → Byte → Memory
  | [], a, b => [(a, b)]
  | (k, c) :: m, a, b =>
    if a < k then (a, b) :: (k, c) :: m
    else if a = k then (a, b) :: m
    else (k, c) :: Memory.set m a b

/-- A buffer with the bytes `bs` written from index `a` on. -/
def Memory.setBytes (m : Memory) (a : Nat) : List Byte → Memory
  | [] => m
  | b :: bs => Memory.setBytes (m.set a b) (a + 1) bs

/-- The canonical form: strictly rising indexes. What an unlisted index reads as is no value, so no entry can equal it. -/
def Memory.wf : Memory → Bool
  | [] => true
  | [_] => true
  | x :: y :: m => decide (x.1 < y.1) && Memory.wf (y :: m)

/-- The `k`-th buffer byte read: what was written at index `a`, else an unconstrained byte (R42; log 4). -/
def Memory.readByte (m : Memory) (a k : Nat) : Byte := (m.get? a).getD (Config.freeByte k)

/-- `m[a..a+n)`, where `k` buffer bytes have been read before. -/
def Memory.read (m : Memory) (a n k : Nat) : List Byte :=
  (List.range n).map fun i => m.readByte (a + i) (k + i)

/-- `n = SRC_LEN.LEN` (10_state.md R32). -/
def State.inputLen (s : State) : Nat := s.srcLen.toNat

/-- The input bytes `SRC[0..n)`, read at the command's start (20_memory.md R70). -/
def State.input (s : State) : List Byte := s.src.read 0 s.inputLen s.tick

/-- `n` buffer bytes have been read (log 4, log 12). -/
def State.advance (n : Nat) (s : State) : State := { s with tick := s.tick + n }

/-- A dropped host write (10_state.md R41). -/
def State.dropWrite (s : State) : State := { s with ovr := true }

/-- The host stores `bs` into SRC from index `i` on (20_memory.md R65). -/
def State.storeSrc (i : Nat) (bs : List Byte) (s : State) : State := { s with src := s.src.setBytes i bs }

/-- The host agent moves on. -/
def State.withHost (h : HostSide) (s : State) : State := { s with host := h }

/-- Issue of the command word `v` (30_encoding.md R96). -/
def State.issue (v : Word) (s : State) : State := { s with cmdLatch := v, busy := true, done := false }

/-- The staged writes of a command rule (00_scope.md R12); `none` where the rule writes nothing. -/
structure Staged where
  /-- RESULT. -/
  result : Option Half := none
  /-- `DST[0..m) <- bytes` and `DST_LEN <- m`, `m` their number (10_state.md R38). -/
  out : Option (List Byte) := none
  /-- ECHO. -/
  echo : Option Word := none
  /-- COUNTER. -/
  counter : Option Half := none
  /-- KEY. -/
  key : Option Block := none
  /-- IV. -/
  iv : Option Block := none
deriving DecidableEq, Repr

/-- How a command rule ends (00_scope.md R14). -/
inductive Verdict where
  /-- `finish()`. -/
  | finish (w : Staged)
  /-- `raise Error(E)`. -/
  | raise (e : Err)
deriving DecidableEq, Repr

/-- The success commit: the staged writes together with ERR 0, DONE 1, BUSY 0 (30_encoding.md R97). -/
def State.commit (w : Staged) (s : State) : State :=
  { s with
    result := w.result.getD s.result
    dst := (w.out.map fun bs => s.dst.setBytes 0 bs).getD s.dst
    dstLen := (w.out.map fun bs => BitVec.ofNat 16 bs.length).getD s.dstLen
    echo := w.echo.getD s.echo
    counter := w.counter.getD s.counter
    key := w.key.getD s.key
    iv := w.iv.getD s.iv
    err := 0
    done := true
    busy := false }

/-- The error commit: the engine's one way of taking an exception (60_exceptions.md R243). Nothing is saved but RESULT and
STATUS.ERR, nothing is redirected, and there is no return (R244, R250). -/
def State.fail (e : Err) (s : State) : State :=
  { s with result := e.value, err := e.code, done := true, busy := false }

/-- The commit that a verdict asks for (R14). -/
def settle (v : Verdict) (s : State) : State :=
  match v with
  | .finish w => s.commit w
  | .raise e => s.fail e

/-- A command that reads SRC: LEN when `SRC_LEN.LEN > BUF_BYTES` (30_encoding.md R99), else the rule on the state at its
start and on the input bytes. -/
def runOnInput (rule : State → List Byte → Verdict) (s : State) : State :=
  if s.params.bufBytes < s.inputLen then s.fail .len
  else settle (rule s s.input) (s.advance s.inputLen)

/-- The commit of a command word that matches no row: ILLEGAL (30_encoding.md R94, R99). -/
def execIllegal (s : State) : Host.Outcome State Fault Refusal := .next (s.fail .illegal)

end Sys2Proof.Machine
end

