-- ==== Sys2Proof/Machine/Control.lean ====
section
/-! DEFINITION. The commands that read no SRC: NOP (43_control.md R230) and LOAD_DEFAULTS (41_crypto.md R177). -/

namespace Sys2Proof.Machine

/-- NOP: `finish()` (R230). -/
def ruleNop : Verdict := .finish { }

/-- LOAD_DEFAULTS: KEY and IV from the parameters (R177). -/
def ruleLoadDefaults (s : State) : Verdict :=
  .finish { key := some s.params.defaultKey, iv := some s.params.ivConst }

/-- NOP (R230). -/
def execNop (s : State) : Host.Outcome State Fault Refusal := .next (settle ruleNop s)

/-- LOAD_DEFAULTS (R177). -/
def execLoadDefaults (s : State) : Host.Outcome State Fault Refusal := .next (settle (ruleLoadDefaults s) s)

end Sys2Proof.Machine
end

