-- ==== Sys2Proof/Machine/Crc.lean ====
section
/-! DEFINITION. CRC-16/MODBUS and the HysenFrame: CRC16, HFRAME_WRAP, HFRAME_CHECK (42_crc.md). -/

namespace Sys2Proof.Machine

/-- One shift of the reflected register (R200). -/
def crcShift (crc : Half) : Half := if crc.getLsbD 0 then (crc >>> 1) ^^^ 0xA001 else crc >>> 1

/-- `n` shifts. -/
def crcShifts : Nat → Half → Half
  | 0, crc => crc
  | n + 1, crc => crcShifts n (crcShift crc)

/-- One byte into the register: XOR, then 8 shifts (R200). -/
def crcByte (crc : Half) (b : Byte) : Half := crcShifts 8 (crc ^^^ b.setWidth 16)

/-- `Crc16(s)` (R200). -/
def crc16 (s : List Byte) : Half := s.foldl crcByte 0xFFFF

/-- CRC16 (R202). -/
def ruleCrc16 (_ : State) (src : List Byte) : Verdict := .finish { result := some (crc16 src) }

/-- The HysenFrame of an inner payload: `LE16(k + 2) ++ q ++ LE16(Crc16(q))` (R203). -/
def hysenFrame (q : List Byte) : List Byte := le16 (BitVec.ofNat 16 (q.length + 2)) ++ q ++ le16 (crc16 q)

/-- HFRAME_WRAP (R204). -/
def ruleHframeWrap (s : State) (src : List Byte) : Verdict :=
  if s.params.bufBytes < src.length + 4 then .raise .len
  else .finish { result := some (crc16 src), out := some (hysenFrame src) }

/-- HFRAME_CHECK (R205). -/
def ruleHframeCheck (_ : State) (src : List Byte) : Verdict :=
  if src.length < 4 then .raise .malformed
  else
    let l := (rdLE16 src 0).toNat
    if l < 2 ∨ src.length < l + 2 then .raise .malformed
    else
      let q := (src.drop 2).take (l - 2)
      let c := crc16 q
      if c ≠ rdLE16 src l then .raise (.crc c)
      else .finish { result := some c, out := some q }

/-- CRC16 (R202). -/
def execCrc16 (s : State) : Host.Outcome State Fault Refusal := .next (runOnInput ruleCrc16 s)

/-- HFRAME_WRAP (R204). -/
def execHframeWrap (s : State) : Host.Outcome State Fault Refusal := .next (runOnInput ruleHframeWrap s)

/-- HFRAME_CHECK (R205). -/
def execHframeCheck (s : State) : Host.Outcome State Fault Refusal := .next (runOnInput ruleHframeCheck s)

end Sys2Proof.Machine
end

