-- ==== Sys2Proof/Machine/Aes.lean ====
section
/-! DEFINITION. The AES-128 block cipher and the CBC mode (41_crypto.md R160 to R174). -/

namespace Sys2Proof.Machine

/-- `xtime`: multiplication by x modulo `x^8 + x^4 + x^3 + x + 1` (R161). -/
def xtime (a : Byte) : Byte := (a <<< 1) ^^^ (if a.getLsbD 7 then 0x1B else 0x00)

/-- The XOR of `xtime^i(a)` over the set bits i < n of b. -/
def gmulBits : Nat → Byte → Byte → Byte
  | 0, _, _ => 0
  | n + 1, a, b => (if b.getLsbD 0 then a else 0) ^^^ gmulBits n (xtime a) (b >>> 1)

/-- Multiplication in GF(2^8) (R161). -/
def gmul (a b : Byte) : Byte := gmulBits 8 a b

/-- Rows 0 to 7 of the S-box table (R162). -/
def sboxRowsLo : List (List Byte) :=
  [[0x63, 0x7c, 0x77, 0x7b, 0xf2, 0x6b, 0x6f, 0xc5, 0x30, 0x01, 0x67, 0x2b, 0xfe, 0xd7, 0xab, 0x76],
   [0xca, 0x82, 0xc9, 0x7d, 0xfa, 0x59, 0x47, 0xf0, 0xad, 0xd4, 0xa2, 0xaf, 0x9c, 0xa4, 0x72, 0xc0],
   [0xb7, 0xfd, 0x93, 0x26, 0x36, 0x3f, 0xf7, 0xcc, 0x34, 0xa5, 0xe5, 0xf1, 0x71, 0xd8, 0x31, 0x15],
   [0x04, 0xc7, 0x23, 0xc3, 0x18, 0x96, 0x05, 0x9a, 0x07, 0x12, 0x80, 0xe2, 0xeb, 0x27, 0xb2, 0x75],
   [0x09, 0x83, 0x2c, 0x1a, 0x1b, 0x6e, 0x5a, 0xa0, 0x52, 0x3b, 0xd6, 0xb3, 0x29, 0xe3, 0x2f, 0x84],
   [0x53, 0xd1, 0x00, 0xed, 0x20, 0xfc, 0xb1, 0x5b, 0x6a, 0xcb, 0xbe, 0x39, 0x4a, 0x4c, 0x58, 0xcf],
   [0xd0, 0xef, 0xaa, 0xfb, 0x43, 0x4d, 0x33, 0x85, 0x45, 0xf9, 0x02, 0x7f, 0x50, 0x3c, 0x9f, 0xa8],
   [0x51, 0xa3, 0x40, 0x8f, 0x92, 0x9d, 0x38, 0xf5, 0xbc, 0xb6, 0xda, 0x21, 0x10, 0xff, 0xf3, 0xd2]]

/-- Rows 8 to f of the S-box table (R162). -/
def sboxRowsHi : List (List Byte) :=
  [[0xcd, 0x0c, 0x13, 0xec, 0x5f, 0x97, 0x44, 0x17, 0xc4, 0xa7, 0x7e, 0x3d, 0x64, 0x5d, 0x19, 0x73],
   [0x60, 0x81, 0x4f, 0xdc, 0x22, 0x2a, 0x90, 0x88, 0x46, 0xee, 0xb8, 0x14, 0xde, 0x5e, 0x0b, 0xdb],
   [0xe0, 0x32, 0x3a, 0x0a, 0x49, 0x06, 0x24, 0x5c, 0xc2, 0xd3, 0xac, 0x62, 0x91, 0x95, 0xe4, 0x79],
   [0xe7, 0xc8, 0x37, 0x6d, 0x8d, 0xd5, 0x4e, 0xa9, 0x6c, 0x56, 0xf4, 0xea, 0x65, 0x7a, 0xae, 0x08],
   [0xba, 0x78, 0x25, 0x2e, 0x1c, 0xa6, 0xb4, 0xc6, 0xe8, 0xdd, 0x74, 0x1f, 0x4b, 0xbd, 0x8b, 0x8a],
   [0x70, 0x3e, 0xb5, 0x66, 0x48, 0x03, 0xf6, 0x0e, 0x61, 0x35, 0x57, 0xb9, 0x86, 0xc1, 0x1d, 0x9e],
   [0xe1, 0xf8, 0x98, 0x11, 0x69, 0xd9, 0x8e, 0x94, 0x9b, 0x1e, 0x87, 0xe9, 0xce, 0x55, 0x28, 0xdf],
   [0x8c, 0xa1, 0x89, 0x0d, 0xbf, 0xe6, 0x42, 0x68, 0x41, 0x99, 0x2d, 0x0f, 0xb0, 0x54, 0xbb, 0x16]]

/-- Rows 0 to 7 of the inverse S-box table (R163). -/
def invSboxRowsLo : List (List Byte) :=
  [[0x52, 0x09, 0x6a, 0xd5, 0x30, 0x36, 0xa5, 0x38, 0xbf, 0x40, 0xa3, 0x9e, 0x81, 0xf3, 0xd7, 0xfb],
   [0x7c, 0xe3, 0x39, 0x82, 0x9b, 0x2f, 0xff, 0x87, 0x34, 0x8e, 0x43, 0x44, 0xc4, 0xde, 0xe9, 0xcb],
   [0x54, 0x7b, 0x94, 0x32, 0xa6, 0xc2, 0x23, 0x3d, 0xee, 0x4c, 0x95, 0x0b, 0x42, 0xfa, 0xc3, 0x4e],
   [0x08, 0x2e, 0xa1, 0x66, 0x28, 0xd9, 0x24, 0xb2, 0x76, 0x5b, 0xa2, 0x49, 0x6d, 0x8b, 0xd1, 0x25],
   [0x72, 0xf8, 0xf6, 0x64, 0x86, 0x68, 0x98, 0x16, 0xd4, 0xa4, 0x5c, 0xcc, 0x5d, 0x65, 0xb6, 0x92],
   [0x6c, 0x70, 0x48, 0x50, 0xfd, 0xed, 0xb9, 0xda, 0x5e, 0x15, 0x46, 0x57, 0xa7, 0x8d, 0x9d, 0x84],
   [0x90, 0xd8, 0xab, 0x00, 0x8c, 0xbc, 0xd3, 0x0a, 0xf7, 0xe4, 0x58, 0x05, 0xb8, 0xb3, 0x45, 0x06],
   [0xd0, 0x2c, 0x1e, 0x8f, 0xca, 0x3f, 0x0f, 0x02, 0xc1, 0xaf, 0xbd, 0x03, 0x01, 0x13, 0x8a, 0x6b]]

/-- Rows 8 to f of the inverse S-box table (R163). -/
def invSboxRowsHi : List (List Byte) :=
  [[0x3a, 0x91, 0x11, 0x41, 0x4f, 0x67, 0xdc, 0xea, 0x97, 0xf2, 0xcf, 0xce, 0xf0, 0xb4, 0xe6, 0x73],
   [0x96, 0xac, 0x74, 0x22, 0xe7, 0xad, 0x35, 0x85, 0xe2, 0xf9, 0x37, 0xe8, 0x1c, 0x75, 0xdf, 0x6e],
   [0x47, 0xf1, 0x1a, 0x71, 0x1d, 0x29, 0xc5, 0x89, 0x6f, 0xb7, 0x62, 0x0e, 0xaa, 0x18, 0xbe, 0x1b],
   [0xfc, 0x56, 0x3e, 0x4b, 0xc6, 0xd2, 0x79, 0x20, 0x9a, 0xdb, 0xc0, 0xfe, 0x78, 0xcd, 0x5a, 0xf4],
   [0x1f, 0xdd, 0xa8, 0x33, 0x88, 0x07, 0xc7, 0x31, 0xb1, 0x12, 0x10, 0x59, 0x27, 0x80, 0xec, 0x5f],
   [0x60, 0x51, 0x7f, 0xa9, 0x19, 0xb5, 0x4a, 0x0d, 0x2d, 0xe5, 0x7a, 0x9f, 0x93, 0xc9, 0x9c, 0xef],
   [0xa0, 0xe0, 0x3b, 0x4d, 0xae, 0x2a, 0xf5, 0xb0, 0xc8, 0xeb, 0xbb, 0x3c, 0x83, 0x53, 0x99, 0x61],
   [0x17, 0x2b, 0x04, 0x7e, 0xba, 0x77, 0xd6, 0x26, 0xe1, 0x69, 0x14, 0x63, 0x55, 0x21, 0x0c, 0x7d]]

/-- A table's entry: row = high nibble, column = low nibble (R162). -/
def nibbleLookup (rows : List (List Byte)) (x : Byte) : Byte :=
  (rows.getD (x.toNat / 16) []).getD (x.toNat % 16) 0

/-- The S-box (R162). -/
def sbox (x : Byte) : Byte := nibbleLookup (sboxRowsLo ++ sboxRowsHi) x

/-- The inverse S-box (R163). -/
def invSbox (x : Byte) : Byte := nibbleLookup (invSboxRowsLo ++ invSboxRowsHi) x

/-- A function applied to every byte of a column. -/
def mapColumn (f : Byte → Byte) (c : Column) : Column := ⟨f c.r0, f c.r1, f c.r2, f c.r3⟩

/-- A function applied to every byte of a block. -/
def mapBlock (f : Byte → Byte) (b : Block) : Block :=
  ⟨mapColumn f b.c0, mapColumn f b.c1, mapColumn f b.c2, mapColumn f b.c3⟩

/-- Bytewise XOR of two columns. -/
def xorColumn (a b : Column) : Column := ⟨a.r0 ^^^ b.r0, a.r1 ^^^ b.r1, a.r2 ^^^ b.r2, a.r3 ^^^ b.r3⟩

/-- Bytewise XOR of two blocks (00_scope.md R11); AddRoundKey when one of them is a round key (R168). -/
def xorBlock (a b : Block) : Block :=
  ⟨xorColumn a.c0 b.c0, xorColumn a.c1 b.c1, xorColumn a.c2 b.c2, xorColumn a.c3 b.c3⟩

/-- SubBytes (R165). -/
def subBytes (s : Block) : Block := mapBlock sbox s

/-- InvSubBytes (R165). -/
def invSubBytes (s : Block) : Block := mapBlock invSbox s

/-- ShiftRows: `S'[r][c] = S[r][(c + r) mod 4]` (R166). -/
def shiftRows (s : Block) : Block :=
  ⟨⟨s.c0.r0, s.c1.r1, s.c2.r2, s.c3.r3⟩,
   ⟨s.c1.r0, s.c2.r1, s.c3.r2, s.c0.r3⟩,
   ⟨s.c2.r0, s.c3.r1, s.c0.r2, s.c1.r3⟩,
   ⟨s.c3.r0, s.c0.r1, s.c1.r2, s.c2.r3⟩⟩

/-- InvShiftRows: `S'[r][(c + r) mod 4] = S[r][c]` (R166). -/
def invShiftRows (s : Block) : Block :=
  ⟨⟨s.c0.r0, s.c3.r1, s.c2.r2, s.c1.r3⟩,
   ⟨s.c1.r0, s.c0.r1, s.c3.r2, s.c2.r3⟩,
   ⟨s.c2.r0, s.c1.r1, s.c0.r2, s.c3.r3⟩,
   ⟨s.c3.r0, s.c2.r1, s.c1.r2, s.c0.r3⟩⟩

/-- One row of a MixColumns matrix times a column. -/
def mixRow (m0 m1 m2 m3 : Byte) (c : Column) : Byte :=
  gmul m0 c.r0 ^^^ gmul m1 c.r1 ^^^ gmul m2 c.r2 ^^^ gmul m3 c.r3

/-- MixColumns on one column (R167). -/
def mixColumn (c : Column) : Column :=
  ⟨mixRow 2 3 1 1 c, mixRow 1 2 3 1 c, mixRow 1 1 2 3 c, mixRow 3 1 1 2 c⟩

/-- InvMixColumns on one column (R167). -/
def invMixColumn (c : Column) : Column :=
  ⟨mixRow 0x0e 0x0b 0x0d 0x09 c, mixRow 0x09 0x0e 0x0b 0x0d c,
   mixRow 0x0d 0x09 0x0e 0x0b c, mixRow 0x0b 0x0d 0x09 0x0e c⟩

/-- MixColumns (R167). -/
def mixColumns (s : Block) : Block := ⟨mixColumn s.c0, mixColumn s.c1, mixColumn s.c2, mixColumn s.c3⟩

/-- InvMixColumns (R167). -/
def invMixColumns (s : Block) : Block :=
  ⟨invMixColumn s.c0, invMixColumn s.c1, invMixColumn s.c2, invMixColumn s.c3⟩

/-- `Rcon[1..10]` (R164). -/
def rcon : List Byte := [0x01, 0x02, 0x04, 0x08, 0x10, 0x20, 0x40, 0x80, 0x1b, 0x36]

/-- RotWord (R164). -/
def rotWord (t : Column) : Column := ⟨t.r1, t.r2, t.r3, t.r0⟩

/-- Words `w[4r] .. w[4r+3]` of the key expansion from `w[4r-4] .. w[4r-1]`: one turn of R164's loop for each, the first
of them through RotWord, SubWord and `Rcon[r]`. -/
def nextRoundKey (w : Block) (rc : Byte) : Block :=
  let t := mapColumn sbox (rotWord w.c3)
  let w0 := xorColumn w.c0 { t with r0 := t.r0 ^^^ rc }
  let w1 := xorColumn w.c1 w0
  let w2 := xorColumn w.c2 w1
  let w3 := xorColumn w.c3 w2
  ⟨w0, w1, w2, w3⟩

/-- The round keys after `w`, one for each round constant. -/
def expandFrom (w : Block) : List Byte → List Block
  | [] => []
  | rc :: rcs => nextRoundKey w rc :: expandFrom (nextRoundKey w rc) rcs

/-- Round keys 0 to 10 (R164). -/
def roundKeys (k : Block) : List Block := k :: expandFrom k rcon

/-- The rounds of the cipher under round keys 1 to 10; the last has no MixColumns (R170). -/
def encryptRounds : Block → List Block → Block
  | s, [] => s
  | s, [k] => xorBlock (shiftRows (subBytes s)) k
  | s, k :: k' :: ks => encryptRounds (xorBlock (mixColumns (shiftRows (subBytes s))) k) (k' :: ks)

/-- `AES_Encrypt(k, b)` (R170). -/
def aesEncrypt (k b : Block) : Block :=
  match roundKeys k with
  | [] => b
  | k0 :: ks => encryptRounds (xorBlock b k0) ks

/-- The rounds of the inverse cipher under round keys 9 down to 0; the last has no InvMixColumns (R171). -/
def decryptRounds : Block → List Block → Block
  | s, [] => s
  | s, [k] => xorBlock (invSubBytes (invShiftRows s)) k
  | s, k :: k' :: ks => decryptRounds (invMixColumns (xorBlock (invSubBytes (invShiftRows s)) k)) (k' :: ks)

/-- `AES_Decrypt(k, b)` (R171). -/
def aesDecrypt (k b : Block) : Block :=
  match (roundKeys k).reverse with
  | [] => b
  | k10 :: ks => decryptRounds (xorBlock b k10) ks

/-- CBC encryption of blocks, `prev` the block chained in (R172). -/
def cbcEncBlocks (k prev : Block) : List Block → List Block
  | [] => []
  | p :: ps => aesEncrypt k (xorBlock p prev) :: cbcEncBlocks k (aesEncrypt k (xorBlock p prev)) ps

/-- CBC decryption of blocks, `prev` the block chained in (R173). -/
def cbcDecBlocks (k prev : Block) : List Block → List Block
  | [] => []
  | c :: cs => xorBlock (aesDecrypt k c) prev :: cbcDecBlocks k c cs

/-- `CBC_Enc(k, iv, p)` (R172, R174). -/
def cbcEnc (k iv : Block) (p : List Byte) : List Byte := bytesOf (cbcEncBlocks k iv (blocksOf p))

/-- `CBC_Dec(k, iv, c)` (R173, R174). -/
def cbcDec (k iv : Block) (c : List Byte) : List Byte := bytesOf (cbcDecBlocks k iv (blocksOf c))

end Sys2Proof.Machine
end

