-- ==== Sys2Proof/Machine/Crypto.lean ====
section
/-! DEFINITION. The cipher commands: AES_CBC_ENC, AES_CBC_DEC (41_crypto.md R175, R176). -/

namespace Sys2Proof.Machine

/-- AES_CBC_ENC (R175). -/
def ruleAesCbcEnc (s : State) (src : List Byte) : Verdict :=
  if src.length % 16 ≠ 0 then .raise .align
  else .finish { result := some 0, out := some (cbcEnc s.key s.iv src) }

/-- AES_CBC_DEC (R176). -/
def ruleAesCbcDec (s : State) (src : List Byte) : Verdict :=
  if src.length % 16 ≠ 0 then .raise .align
  else .finish { result := some 0, out := some (cbcDec s.key s.iv src) }

/-- AES_CBC_ENC (R175). -/
def execAesCbcEnc (s : State) : Host.Outcome State Fault Refusal := .next (runOnInput ruleAesCbcEnc s)

/-- AES_CBC_DEC (R176). -/
def execAesCbcDec (s : State) : Host.Outcome State Fault Refusal := .next (runOnInput ruleAesCbcDec s)

end Sys2Proof.Machine
end

