-- ==== Sys2Proof/Machine/Framer.lean ====
section
/-! DEFINITION. The checksum and the packet framer: CSUM, FRAME_ENCODE, FRAME_DECODE (40_framer.md). -/

namespace Sys2Proof.Machine

/-- `Csum(s)`: the 16-bit wrapping byte sum with seed 0xBEAF (R120). -/
def csum (s : List Byte) : Half := s.foldl (fun acc b => acc + b.setWidth 16) 0xBEAF

/-- CSUM (R122). -/
def ruleCsum (_ : State) (src : List Byte) : Verdict := .finish { result := some (csum src) }

/-- The zero-padded plaintext `SRC[0..n) ++ zeros(p - n)` (R124). -/
def paddedPayload (src : List Byte) : List Byte := src ++ List.replicate (pad16 src.length - src.length) 0

/-- The header with the checksum field 0x20..0x21 still zero and every other field filled in (R123, R124). -/
def frameHeader (s : State) (code ver : Byte) (pt : List Byte) : List Byte :=
  let h := putAt s.params.hdrTemplate 0x20 [0x00, 0x00]
  let h := putAt h 0x24 [ver]
  let h := putAt h 0x26 [code]
  let h := putAt h 0x28 (le16 s.counter)
  let h := putAt h 0x2a s.macBytes
  let h := putAt h 0x30 s.devidBytes
  putAt h 0x34 (le16 (csum pt))

/-- The packet with the checksum field still zero: header and ciphertext (R124). -/
def framePacket0 (s : State) (code ver : Byte) (pt : List Byte) : List Byte :=
  frameHeader s code ver pt ++ cbcEnc s.key s.iv pt

/-- FRAME_ENCODE (R124). -/
def ruleFrameEncode (code ver : Byte) (s : State) (src : List Byte) : Verdict :=
  if s.params.bufBytes < Config.hdrLen + pad16 src.length then .raise .len
  else
    let pkt := framePacket0 s code ver (paddedPayload src)
    let w := csum pkt
    .finish
      { result := some w
        out := some (putAt pkt 0x20 (le16 w))
        counter := some (s.counter + 1) }

/-- FRAME_DECODE (R128, R132). -/
def ruleFrameDecode (s : State) (src : List Byte) : Verdict :=
  if src.length < Config.hdrLen then .raise .trunc
  else
    let e := rdLE16 src s.params.errOffset
    if e ≠ 0 then .raise (.device e)
    else
      let c := src.length - Config.hdrLen
      if c = 0 ∨ c % 16 ≠ 0 then .raise .malformed
      else
        let pt := cbcDec s.key s.iv (src.drop Config.hdrLen)
        .finish
          { result := some 0
            out := some (pt.drop 4)
            echo := some (bytesWord (pt.take 4)) }

/-- CSUM (R122). -/
def execCsum (s : State) : Host.Outcome State Fault Refusal := .next (runOnInput ruleCsum s)

/-- FRAME_ENCODE (R124). -/
def execFrameEncode (code ver : Byte) (s : State) : Host.Outcome State Fault Refusal :=
  .next (runOnInput (ruleFrameEncode code ver) s)

/-- FRAME_DECODE (R128). -/
def execFrameDecode (s : State) : Host.Outcome State Fault Refusal := .next (runOnInput ruleFrameDecode s)

end Sys2Proof.Machine
end

