-- ==== Sys2Proof/Syntax.lean ====
section
/-! DEFINITION. The ten commands of the opcode map (30_encoding.md R93; spec/opcode_table.json). -/

namespace Sys2Proof

/-- The commands. Only FRAME_ENCODE (format FE) has operands: the command-code byte ARG0 and the
version/flag byte ARG1 (R91, R92). -/
inductive Instr where
  | nop
  | loadDefaults
  | csum
  | frameEncode (code ver : Byte)
  | frameDecode
  | aesCbcEnc
  | aesCbcDec
  | crc16
  | hframeWrap
  | hframeCheck
deriving DecidableEq, Repr

end Sys2Proof
end

