-- ==== Sys2Proof/Machine/Dispatch.lean ====
section
/-! DEFINITION. The meaning of each command, one arm each (30_encoding.md R93). -/

namespace Sys2Proof.Machine

/-- The execution and commit of a decoded command (R98). -/
def exec (i : Instr) (s : State) : Host.Outcome State Fault Refusal :=
  match i with
  | .nop => Sys2Proof.Machine.execNop s
  | .loadDefaults => Sys2Proof.Machine.execLoadDefaults s
  | .csum => Sys2Proof.Machine.execCsum s
  | .frameEncode code ver => Sys2Proof.Machine.execFrameEncode code ver s
  | .frameDecode => Sys2Proof.Machine.execFrameDecode s
  | .aesCbcEnc => Sys2Proof.Machine.execAesCbcEnc s
  | .aesCbcDec => Sys2Proof.Machine.execAesCbcDec s
  | .crc16 => Sys2Proof.Machine.execCrc16 s
  | .hframeWrap => Sys2Proof.Machine.execHframeWrap s
  | .hframeCheck => Sys2Proof.Machine.execHframeCheck s

end Sys2Proof.Machine
end

