-- ==== Sys2Proof/WellFormed.lean ====
section
/-! DEFINITION. Well-formed commands and well-formed parameters. -/

namespace Sys2Proof

/-- Every command is well-formed: the operands of FRAME_ENCODE are bytes by their type, and "every value of code and
ver (0x00 to 0xFF) is accepted" (30_encoding.md R92). -/
def Instr.wf : Instr → Bool
  | .nop => true
  | .loadDefaults => true
  | .csum => true
  | .frameEncode _ _ => true
  | .frameDecode => true
  | .aesCbcEnc => true
  | .aesCbcDec => true
  | .crc16 => true
  | .hframeWrap => true
  | .hframeCheck => true

/-- The legal parameter values (00_scope.md R9): BUF_BYTES a multiple of 16 with `0x48 <= BUF_BYTES <= 0x1000`,
HDR_TEMPLATE 0x38 bytes. ERR_OFFSET names two bytes inside the header (DEDUCED, log 3). -/
def Params.wf (p : Params) : Bool :=
  p.bufBytes % 16 == 0 && decide (0x48 ≤ p.bufBytes) && decide (p.bufBytes ≤ 0x1000) &&
  p.hdrTemplate.length == Config.hdrLen && decide (p.errOffset + 2 ≤ Config.hdrLen)

end Sys2Proof
end

