-- ==== Sys2Proof/Decode.lean ====
section
/-! DEFINITION. The command word: decoding and encoding (30_encoding.md R90 to R95, R102). -/

namespace Sys2Proof

/-- OP = COMMAND[7:0] (R91). -/
def opOf (w : Word) : Byte := w.extractLsb' 0 8

/-- ARG0 = COMMAND[15:8], the command-code byte (R91, R92). -/
def arg0Of (w : Word) : Byte := w.extractLsb' 8 8

/-- ARG1 = COMMAND[23:16], the version/flag byte (R91, R92). -/
def arg1Of (w : Word) : Byte := w.extractLsb' 16 8

/-- RSVD = COMMAND[31:24] (R91). -/
def rsvdOf (w : Word) : Byte := w.extractLsb' 24 8

/-- One row of the opcode map: its mask, its match, and the command its words stand for, given the two ARG bytes. -/
structure OpRow where
  mask : Word
  pat : Word
  build : Byte → Byte → Instr

/-- A word selects a row when `(word & mask) == match` (R93). -/
def OpRow.selects (r : OpRow) (w : Word) : Bool := w &&& r.mask == r.pat

/-- A row of format F0: all 32 bits are fixed (R91). -/
def rowF0 (op : Word) (i : Instr) : OpRow := ⟨0xFFFFFFFF, op, fun _ _ => i⟩

/-- The opcode map, row for row (R93). -/
def opcodeRows : List OpRow :=
  [rowF0 0x00 .nop,
   rowF0 0x01 .loadDefaults,
   rowF0 0x10 .csum,
   ⟨0xFF0000FF, 0x11, fun code ver => .frameEncode code ver⟩,
   rowF0 0x12 .frameDecode,
   rowF0 0x20 .aesCbcEnc,
   rowF0 0x21 .aesCbcDec,
   rowF0 0x30 .crc16,
   rowF0 0x31 .hframeWrap,
   rowF0 0x32 .hframeCheck]

/-- Why a word matches no row (R94). -/
inductive Illegal where
  /-- OP is none of the ten opcodes. -/
  | unlistedOpcode
  /-- RSVD is not zero. -/
  | reservedBits
  /-- ARG0 or ARG1 is not zero and OP is not FRAME_ENCODE's. -/
  | unusedArgs
deriving DecidableEq, Repr

/-- The opcodes of R93. -/
def opcodes : List Byte := [0x00, 0x01, 0x10, 0x11, 0x12, 0x20, 0x21, 0x30, 0x31, 0x32]

/-- The name of the first of R94's three reasons that holds of a word which matches no row. -/
def illegalReason (w : Word) : Illegal :=
  if !opcodes.contains (opOf w) then .unlistedOpcode
  else if rsvdOf w != 0 then .reservedBits
  else .unusedArgs

/-- Decoding is by exact match (R93); a word that matches no row is rejected by name (R94). -/
def decode (w : Word) : Except Illegal Instr :=
  match opcodeRows.find? (fun r => r.selects w) with
  | some r => .ok (r.build (arg0Of w) (arg1Of w))
  | none => .error (illegalReason w)

/-- The command word of a command (R93, R102). -/
def encode : Instr → Word
  | .nop => 0x00000000
  | .loadDefaults => 0x00000001
  | .csum => 0x00000010
  | .frameEncode code ver => 0x00000011 ||| code.setWidth 32 <<< 8 ||| ver.setWidth 32 <<< 16
  | .frameDecode => 0x00000012
  | .aesCbcEnc => 0x00000020
  | .aesCbcDec => 0x00000021
  | .crc16 => 0x00000030
  | .hframeWrap => 0x00000031
  | .hframeCheck => 0x00000032

/-- The command word whose low `nbits` bits are those of `w`. -/
def tableWord (nbits w : Nat) : Word := BitVec.ofNat 32 (w % 2 ^ nbits)

/-- The decoder on a word numbered as the opcode table numbers it. Every command is exactly one 32-bit word (R90), so more than
32 bits are no command. -/
def decodeTableWord (nbits w : Nat) : Option Instr :=
  if 32 < nbits then none
  else match decode (tableWord nbits w) with
    | .ok i => some i
    | .error _ => none

end Sys2Proof
end

