-- ==== Sys2Proof/Machine/Bus.lean ====
section
/-! DEFINITION. The host's accesses of the window: the address map, MemRead, MemWrite (10_state.md R23 to R41; 20_memory.md R60 to R68). -/

namespace Sys2Proof.Machine

/-- The registers of the window, each at its offset (10_state.md R23). -/
inductive Reg where
  | command
  | status
  | irqEn
  | srcLen
  | dstLen
  | result
  | echo
  | counter
  | devid
  | macLo
  | macHi
  | key (j : Fin 4)
  | iv (j : Fin 4)
deriving DecidableEq, Repr

/-- Where an access of the window goes (20_memory.md R64). -/
inductive Loc where
  /-- A register. -/
  | reg (r : Reg)
  /-- `SRC[i..i+4)`. -/
  | src (i : Nat)
  /-- `DST[i..i+4)`. -/
  | dst (i : Nat)
  /-- Reserved, or a window offset that is not backed: reads as zero, writes ignored (10_state.md R36, 20_memory.md R65, R66). -/
  | reserved
deriving DecidableEq, Repr

/-- The register at a word offset of the register page (R23). -/
def regAt : Nat → Option Reg
  | 0x000 => some .command
  | 0x004 => some .status
  | 0x008 => some .irqEn
  | 0x00C => some .srcLen
  | 0x010 => some .dstLen
  | 0x014 => some .result
  | 0x018 => some .echo
  | 0x01C => some .counter
  | 0x020 => some .devid
  | 0x024 => some .macLo
  | 0x028 => some .macHi
  | 0x030 => some (.key 0)
  | 0x034 => some (.key 1)
  | 0x038 => some (.key 2)
  | 0x03C => some (.key 3)
  | 0x040 => some (.iv 0)
  | 0x044 => some (.iv 1)
  | 0x048 => some (.iv 2)
  | 0x04C => some (.iv 3)
  | _ => none

/-- The word offset of an access: only offset bits 13:2 are decoded (20_memory.md R61). -/
def wordOffset (a : Offset) : Nat := a.toNat / 4 * 4

/-- The address map (20_memory.md R64 to R66). -/
def locate (p : Params) (a : Offset) : Loc :=
  let off := wordOffset a
  if off < 0x1000 then
    match regAt off with
    | some r => .reg r
    | none => .reserved
  else if off < 0x2000 then
    if off - 0x1000 < p.bufBytes then .src (off - 0x1000) else .reserved
  else if off < 0x3000 then
    if off - 0x2000 < p.bufBytes then .dst (off - 0x2000) else .reserved
  else .reserved

/-- What a read of a register returns (10_state.md R24 to R35). -/
def readReg (s : State) : Reg → Word
  | .command => 0
  | .status => s.statusWord
  | .irqEn => (BitVec.ofBool s.doneIe).setWidth 32
  | .srcLen => s.srcLen.setWidth 32
  | .dstLen => s.dstLen.setWidth 32
  | .result => s.result.setWidth 32
  | .echo => s.echo
  | .counter => s.counter.setWidth 32
  | .devid => s.devid
  | .macLo => s.macLo
  | .macHi => s.macHi.setWidth 32
  | .key j => columnWord (blockColumn s.key j)
  | .iv j => columnWord (blockColumn s.iv j)

/-- `MemRead(a, 4)` (00_scope.md R13). It changes nothing the spec names (20_memory.md R68); the step that makes it counts the
buffer bytes read. -/
def memRead (s : State) (a : Offset) : Word :=
  match locate s.params a with
  | .reg r => readReg s r
  | .src i => bytesWord (s.src.read i 4 s.tick)
  | .dst i => bytesWord (s.dst.read i 4 s.tick)
  | .reserved => 0

/-- The registers whose writes are dropped while BUSY = 1 (10_state.md R41). -/
def Reg.guarded : Reg → Bool
  | .command => true
  | .status => false
  | .irqEn => false
  | .srcLen => true
  | .dstLen => false
  | .result => false
  | .echo => false
  | .counter => true
  | .devid => true
  | .macLo => true
  | .macHi => true
  | .key _ => true
  | .iv _ => true

/-- The effect of a register write that is performed (10_state.md R24 to R35). A write of COMMAND is an issue (30_encoding.md R96). -/
def writeReg (s : State) (r : Reg) (v : Word) : State :=
  match r with
  | .command => s.issue v
  | .status => s.clearStatus v
  | .irqEn => { s with doneIe := v.getLsbD 0 }
  | .srcLen => { s with srcLen := v.setWidth 16 }
  | .dstLen => s
  | .result => s
  | .echo => s
  | .counter => { s with counter := v.setWidth 16 }
  | .devid => { s with devid := v }
  | .macLo => { s with macLo := v }
  | .macHi => { s with macHi := v.setWidth 16 }
  | .key j => { s with key := setBlockColumn s.key j (wordColumn v) }
  | .iv j => { s with iv := setBlockColumn s.iv j (wordColumn v) }

/-- `MemWrite(a, 4, v)` (00_scope.md R13; 10_state.md R41; 20_memory.md R65, R66). -/
def memWrite (s : State) (a : Offset) (v : Word) : State :=
  match locate s.params a with
  | .reg r => if s.busy && r.guarded then s.dropWrite else writeReg s r v
  | .src i => if s.busy then s.dropWrite else s.storeSrc i (wordBytes v)
  | .dst _ => s
  | .reserved => s

end Sys2Proof.Machine
end

