-- ==== Sys2Proof/Machine/HostProg.lean ====
section
/-! DEFINITION. Host programs: the pseudo-instructions and one access of the host (30_encoding.md R101 to R103). -/

namespace Sys2Proof.Machine

/-- `CMD X` is `WR COMMAND, enc(X)` (R102). -/
def cmdOp (i : Instr) : HostOp := .wr 0x000 (encode i)

/-- The words of LOADSRC: four bytes each, bytes beyond the last taken as 0 (R103). -/
def packWords : List Byte → List Word
  | [] => []
  | [a] => [bytesWord [a]]
  | [a, b] => [bytesWord [a, b]]
  | [a, b, c] => [bytesWord [a, b, c]]
  | a :: b :: c :: d :: rest => bytesWord [a, b, c, d] :: packWords rest

/-- `WR off, w` for words at consecutive word offsets. -/
def writeWords (off : Nat) : List Word → List HostOp
  | [] => []
  | w :: ws => .wr (BitVec.ofNat 14 off) w :: writeWords (off + 4) ws

/-- `LOADSRC bytes` (R103). -/
def loadSrc (bs : List Byte) : List HostOp :=
  writeWords 0x1000 (packWords bs) ++ [.wr 0x00C (BitVec.ofNat 32 bs.length)]

/-- `SETKEY bytes` (R103). -/
def setKey (b : Block) : List HostOp :=
  writeWords 0x030 [columnWord b.c0, columnWord b.c1, columnWord b.c2, columnWord b.c3]

/-- `SETIV bytes` (R103). -/
def setIv (b : Block) : List HostOp :=
  writeWords 0x040 [columnWord b.c0, columnWord b.c1, columnWord b.c2, columnWord b.c3]

/-- `SETMAC m0 .. m5` (R103). -/
def setMac (m0 m1 m2 m3 m4 m5 : Byte) : List HostOp :=
  [.wr 0x024 (bytesWord [m0, m1, m2, m3]), .wr 0x028 (bytesWord [m4, m5])]

/-- `SETID d0 d1 d2 d3` (R103). -/
def setId (d0 d1 d2 d3 : Byte) : List HostOp := [.wr 0x020 (bytesWord [d0, d1, d2, d3])]

/-- The state after a read of the host that returned `w`: the word is logged and four buffer bytes count as read (log 4, log 11). -/
def hostReads (s : State) (w : Word) (rest : List HostOp) : State :=
  (s.withHost { s.host with prog := rest, log := w :: s.host.log }).advance 4

/-- What follows a READDST or COPYDST whose `m` bytes stand in `bs`: the buffer holds them, and a COPYDST goes on with LOADSRC (R103). -/
def endCollect (s : State) (bs : List Byte) (copy : Bool) (rest : List HostOp) : State :=
  s.withHost { s.host with buf := bs, prog := (if copy then loadSrc bs else []) ++ rest }

/-- The first read of READDST and COPYDST: DST_LEN (R103). -/
def startCollect (s : State) (copy : Bool) (rest : List HostOp) : State :=
  let w := memRead s 0x010
  let m := w.toNat
  if m = 0 then endCollect (hostReads s w rest) [] copy rest
  else
    let s' := hostReads s w (.collect m 0 copy :: rest)
    s'.withHost { s'.host with buf := [] }

/-- One further read of READDST and COPYDST: word `j` of the DST window (R103). -/
def collectWord (s : State) (m j : Nat) (copy : Bool) (rest : List HostOp) : State :=
  let w := memRead s (BitVec.ofNat 14 (0x2000 + 4 * j))
  let bs := s.host.buf ++ wordBytes w
  if m ≤ 4 * (j + 1) then endCollect (hostReads s w rest) (bs.take m) copy rest
  else
    let s' := hostReads s w (.collect m (j + 1) copy :: rest)
    s'.withHost { s'.host with buf := bs }

/-- The host's turn: the next access of its program, if there is one (20_memory.md R72; 30_encoding.md R101, R103). -/
def hostTurn (s : State) : State :=
  match s.host.prog with
  | [] => s
  | .rd a :: rest => hostReads s (memRead s a) rest
  | .wr a v :: rest => (memWrite s a v).withHost { s.host with prog := rest }
  | .wait :: rest =>
    let w := memRead s 0x004
    hostReads s w (if w.getLsbD 0 then .wait :: rest else rest)
  | .readDst :: rest => startCollect s false rest
  | .copyDst :: rest => startCollect s true rest
  | .collect m j copy :: rest => collectWord s m j copy rest

end Sys2Proof.Machine
end

