-- ==== Sys2Proof/Machine/Agents.lean ====
section
/-! DEFINITION. The turns of the engine and of the reset input, and who moves next (30_encoding.md R98; 20_memory.md R72; 70_reset_and_hazards.md R270). -/

namespace Sys2Proof.Machine

/-- The engine's step: decode CMDLATCH, run and commit (R98). -/
def engineStep (s : State) : Host.Outcome State Fault Refusal :=
  match decode s.cmdLatch with
  | .ok i => exec i s
  | .error _ => execIllegal s

/-- The engine's turn: it has a step exactly when BUSY = 1 (R98), and keeps all state while idle (60_exceptions.md R253). -/
def engineTurn (s : State) : Host.Outcome State Fault Refusal :=
  if s.busy then engineStep s else .next s

/-- The reset input: every register at its reset value, a command in flight abandoned (R270). The host agent and the count of
buffer reads are not the engine's (log 4, log 9). -/
def resetTurn (s : State) : State :=
  { State.resetOf s.params with tick := s.tick, host := s.host }

/-- Who moves next: what the schedule says; with an empty schedule the engine if it is busy, else the host (log 6). -/
def nextTurn (s : State) : Turn :=
  match s.host.sched with
  | t :: _ => t
  | [] => if s.busy then .engine else .host

/-- The schedule moves on. -/
def popSched (s : State) : State :=
  match s.host.sched with
  | [] => s
  | _ :: r => s.withHost { s.host with sched := r }

/-- One turn of an agent. -/
def takeTurn (t : Turn) (s : State) : Host.Outcome State Fault Refusal :=
  match t with
  | .engine => engineTurn s
  | .host => .next (hostTurn s)
  | .reset => .next (resetTurn s)

end Sys2Proof.Machine
end

