-- ==== Sys2Proof/Machine/Step.lean ====
section
/-! DEFINITION. One step of the machine: one turn of one agent (20_memory.md R72). -/

namespace Sys2Proof.Machine

/-- One atomic step of the host, the engine or the reset input, in the order of the schedule (R72). -/
def step (s : State) : Host.Outcome State Fault Refusal := takeTurn (nextTurn s) (popSched s)

/-- `s` with the command word issued (30_encoding.md R96) and the engine to move: where the engine takes its next command from is
CMDLATCH (10_state.md R22, R39; log 7). -/
def State.withFetchWord (s : State) (nbits w : Nat) : State :=
  (s.issue (tableWord nbits w)).withHost { s.host with sched := [] }

end Sys2Proof.Machine
end

