-- ==== Sys2Proof/Safety.lean ====
section
/-! DEFINITION. The terms the claims are stated in: the invariant, what a command may write, and reference forms of the
checksum, the CRC, the S-box and the packet that are written from the rules' words, apart from the machine's own. -/

namespace Sys2Proof.Machine

/-- Every listed index is below `n`. -/
def Memory.below (m : Memory) (n : Nat) : Bool := m.all fun c => decide (c.1 < n)

/-- SRC and DST are in canonical form and hold nothing outside `[0..BUF_BYTES)` (10_state.md R37, R38). -/
abbrev State.BuffersOk (s : State) : Prop :=
  s.src.wf = true ∧ s.dst.wf = true ∧
  s.src.below s.params.bufBytes = true ∧ s.dst.below s.params.bufBytes = true

/-- DST_LEN never exceeds BUF_BYTES (R33), and every byte of `DST[0..DST_LEN)` has been written. -/
abbrev State.OutputOk (s : State) : Prop :=
  s.dstLen.toNat ≤ s.params.bufBytes ∧
  ∀ i, i < s.dstLen.toNat → (s.dst.get? i).isSome = true

/-- ERR is 0 to 7, and DONE is clear while BUSY is set (10_state.md R25, R40). -/
abbrev State.StatusOk (s : State) : Prop :=
  s.err.toNat ≤ 7 ∧ (s.busy = true → s.done = false)

/-- What every step keeps. -/
abbrev State.Inv (s : State) : Prop :=
  s.params.wf = true ∧ s.BuffersOk ∧ s.OutputOk ∧ s.StatusOk

/-- A run that neither faults nor is refused. -/
def SafeRun (k : Nat) (s : State) : Prop := ∃ t, core.run k s = .next t

/-- `d` is `m` with `bs` written over `[0..len(bs))` and every other byte as it was. -/
abbrev Memory.Overwrites (m d : Memory) (bs : List Byte) : Prop :=
  (∀ i, i < bs.length → d.get? i = bs[i]?) ∧ ∀ i, bs.length ≤ i → d.get? i = m.get? i

/-- The host has moved `DST[0..DST_LEN)` of `t` into SRC of `u` and set SRC_LEN (30_encoding.md R103, COPYDST). -/
abbrev MovedToSrc (t u : State) : Prop :=
  u.params = t.params ∧ u.srcLen = t.dstLen ∧ ∀ i, i < t.dstLen.toNat → u.src.get? i = t.dst.get? i

/-- The commands that read SRC: every opcode except NOP and LOAD_DEFAULTS (30_encoding.md R99). -/
def readsSrc : Instr → Bool
  | .nop => false
  | .loadDefaults => false
  | .csum => true
  | .frameEncode _ _ => true
  | .frameDecode => true
  | .aesCbcEnc => true
  | .aesCbcDec => true
  | .crc16 => true
  | .hframeWrap => true
  | .hframeCheck => true

/-- The commands that write DST and DST_LEN (10_state.md R33). -/
def writesDst : Instr → Bool
  | .nop => false
  | .loadDefaults => false
  | .csum => false
  | .frameEncode _ _ => true
  | .frameDecode => true
  | .aesCbcEnc => true
  | .aesCbcDec => true
  | .crc16 => false
  | .hframeWrap => true
  | .hframeCheck => true

/-- The completion codes each command can end with (60_exceptions.md R241). -/
def codesOf : Instr → List (BitVec 4)
  | .nop => [0]
  | .loadDefaults => [0]
  | .csum => [0, 2]
  | .frameEncode _ _ => [0, 2]
  | .frameDecode => [0, 2, 4, 5, 6]
  | .aesCbcEnc => [0, 2, 3]
  | .aesCbcDec => [0, 2, 3]
  | .crc16 => [0, 2]
  | .hframeWrap => [0, 2]
  | .hframeCheck => [0, 2, 5, 7]

/-- The error commit of 60_exceptions.md R243 with code `c` and RESULT `v`, after `n` buffer bytes have been read. -/
def errorCommit (s : State) (c : BitVec 4) (v : Half) (n : Nat) : State :=
  { s with result := v, err := c, done := true, busy := false, tick := s.tick + n }

/-- The sum of the bytes as a number (40_framer.md R121). -/
def byteSum (s : List Byte) : Nat := (s.map BitVec.toNat).sum

/-- The bits of a byte sequence, each byte least significant bit first: "input reflected" (42_crc.md R200). -/
def reflectedBits (s : List Byte) : List Bool :=
  s.flatMap fun b => (List.range 8).map fun i => b.getLsbD i

/-- One bit through the unreflected CRC register with polynomial 0x8005. -/
def crcBit (reg : Half) (bit : Bool) : Half :=
  if Bool.xor reg.msb bit then (reg <<< 1) ^^^ 0x8005 else reg <<< 1

/-- CRC-16/MODBUS from its parameters: "width 16, polynomial 0x8005, initial value 0xFFFF, input reflected, output
reflected, final XOR 0x0000" (R200). -/
def crcReference (s : List Byte) : Half := ((reflectedBits s).foldl crcBit 0xFFFF).reverse

/-- The affine map of the S-box: `b ^ rotl8(b,1) ^ rotl8(b,2) ^ rotl8(b,3) ^ rotl8(b,4) ^ 0x63` (41_crypto.md R162). -/
def sboxAffine (b : Byte) : Byte :=
  b ^^^ b.rotateLeft 1 ^^^ b.rotateLeft 2 ^^^ b.rotateLeft 3 ^^^ b.rotateLeft 4 ^^^ 0x63

/-- `S[r][c] = b[r + 4c]`: the AES state's byte at row r and column c (41_crypto.md R160). -/
def stateByte (b : Block) (r c : Nat) : Byte := (blockBytes b).getD (r + 4 * c) 0

/-- `w[i][j]`, byte j of word i of the key expansion: word c of round key r is `w[4r + c]` (41_crypto.md R164). -/
def keyByte (k : Block) (i j : Nat) : Byte := stateByte ((roundKeys k).getD (i / 4) default) j (i % 4)

/-- AddRoundKey(r) (41_crypto.md R168). -/
def addRoundKey (k : Block) (r : Nat) (s : Block) : Block := xorBlock s ((roundKeys k).getD r default)

/-- Four bytes of a sequence from index `o` on. -/
def columnAt (p : List Byte) (o : Nat) : Column := ⟨p.getD o 0, p.getD (o + 1) 0, p.getD (o + 2) 0, p.getD (o + 3) 0⟩

/-- `P_i = p[16i..16i+16)` (41_crypto.md R172). -/
def blockAt (p : List Byte) (i : Nat) : Block :=
  ⟨columnAt p (16 * i), columnAt p (16 * i + 4), columnAt p (16 * i + 8), columnAt p (16 * i + 12)⟩

/-- The next step is the engine's and runs the command `i`. -/
abbrev EngineRuns (s : State) (i : Instr) : Prop :=
  nextTurn s = .engine ∧ s.busy = true ∧ decode s.cmdLatch = .ok i

/-- The next step is a host write that is not dropped, at an offset in `[lo..hi)`. -/
abbrev HostWrites (s : State) (lo hi : Nat) : Prop :=
  nextTurn s = .host ∧ s.busy = false ∧ ∃ a v r, s.host.prog = .wr a v :: r ∧ lo ≤ a.toNat ∧ a.toNat < hi

/-- `s[a..b)` (00_scope.md R11). -/
def slice (s : List Byte) (a b : Nat) : List Byte := (s.drop a).take (b - a)

/-- The CommandPacket field by field, with `cs` in the checksum field (40_framer.md R123), for the plaintext `pt`. -/
def packetFields (s : State) (code ver : Byte) (pt : List Byte) (cs : Half) : List Byte :=
  slice s.params.hdrTemplate 0x00 0x20 ++ le16 cs ++
  slice s.params.hdrTemplate 0x22 0x24 ++ [ver] ++
  slice s.params.hdrTemplate 0x25 0x26 ++ [code] ++
  slice s.params.hdrTemplate 0x27 0x28 ++ le16 s.counter ++ s.macBytes ++ s.devidBytes ++
  le16 (BitVec.ofNat 16 (0xBEAF + byteSum pt)) ++
  slice s.params.hdrTemplate 0x36 0x38 ++ cbcEnc s.key s.iv pt

/-- The window offsets whose writes are dropped while BUSY = 1: COMMAND, SRC_LEN, COUNTER, DEVID, MAC_LO, MAC_HI, KEY0 to
KEY3, IV0 to IV3, and the SRC window below `0x1000 + BUF_BYTES` (10_state.md R41). -/
def guardedOffset (p : Params) (a : Offset) : Bool :=
  [0x000, 0x00C, 0x01C, 0x020, 0x024, 0x028, 0x030, 0x034, 0x038, 0x03C, 0x040, 0x044, 0x048, 0x04C].contains
    (a.toNat / 4 * 4) ||
  (decide (0x1000 ≤ a.toNat) && decide (a.toNat < 0x1000 + p.bufBytes))

/-- The reserved offsets: no register of 10_state.md R23, and not in the first BUF_BYTES bytes of the SRC or the DST window
(R36; 20_memory.md R64 to R66). -/
def reservedOffset (p : Params) (a : Offset) : Bool :=
  (decide (a.toNat < 0x1000) && (decide (0x050 ≤ a.toNat) || a.toNat / 4 * 4 == 0x02C)) ||
  (decide (0x1000 + p.bufBytes ≤ a.toNat) && decide (a.toNat < 0x2000)) ||
  decide (0x2000 + p.bufBytes ≤ a.toNat)

end Sys2Proof.Machine
end

