-- ==== Sys2Proof/Certificates/Slice0/Obligations.lean ====
section
/-! DEFINITION. The statements for the provers. Each docstring names the rule of spec/ that the statement formalises. -/

open Sys2Proof Sys2Proof.Machine

/-! ### The command word -/

/-- R93: words written out bit by bit (RSVD, ARG1, ARG0, OP) decode to the commands they stand for. A sanity statement. -/
def Obligations.SpecWordsDecode : Prop :=
  decode 0b00000000000000000000000000000000 = .ok .nop ∧
  decode 0b00000000000000000000000000000001 = .ok .loadDefaults ∧
  decode 0b00000000000000000000000000010000 = .ok .csum ∧
  decode 0b00000000001010100110101000010001 = .ok (.frameEncode 0x6a 0x2a) ∧
  decode 0b00000000000000000000000000010010 = .ok .frameDecode ∧
  decode 0b00000000000000000000000000100000 = .ok .aesCbcEnc ∧
  decode 0b00000000000000000000000000100001 = .ok .aesCbcDec ∧
  decode 0b00000000000000000000000000110000 = .ok .crc16 ∧
  decode 0b00000000000000000000000000110001 = .ok .hframeWrap ∧
  decode 0b00000000000000000000000000110010 = .ok .hframeCheck

/-- R91 to R93, R102: decoding and encoding agree in both directions, for every command with every operand value. -/
def Obligations.DecodeEncodeAgree : Prop :=
  (∀ i : Instr, i.wf = true → decode (encode i) = .ok i) ∧
  ∀ (w : Word) (i : Instr), decode w = .ok i → i.wf = true ∧ encode i = w

/-- R93: decoding is by exact match: a word selects a row when `(word & mask) == match`, with the opcode map's masks and matches
written out, and at most one row matches any word. -/
def Obligations.DecodingIsByExactMatch : Prop :=
  (∀ (w : Word) (i : Instr), decode w = .ok i ↔
    (w &&& 0xFFFFFFFF = 0x00 ∧ i = .nop) ∨ (w &&& 0xFFFFFFFF = 0x01 ∧ i = .loadDefaults) ∨
    (w &&& 0xFFFFFFFF = 0x10 ∧ i = .csum) ∨
    (w &&& 0xFF0000FF = 0x11 ∧ i = .frameEncode (w.extractLsb' 8 8) (w.extractLsb' 16 8)) ∨
    (w &&& 0xFFFFFFFF = 0x12 ∧ i = .frameDecode) ∨ (w &&& 0xFFFFFFFF = 0x20 ∧ i = .aesCbcEnc) ∨
    (w &&& 0xFFFFFFFF = 0x21 ∧ i = .aesCbcDec) ∨ (w &&& 0xFFFFFFFF = 0x30 ∧ i = .crc16) ∨
    (w &&& 0xFFFFFFFF = 0x31 ∧ i = .hframeWrap) ∨ (w &&& 0xFFFFFFFF = 0x32 ∧ i = .hframeCheck)) ∧
  ∀ w : Word, (opcodeRows.filter fun r => r.selects w).length ≤ 1

/-- R94: the illegal words are exactly the listed ones; such a word is accepted at issue like any other, and its command
raises ILLEGAL, changing nothing but STATUS and RESULT. -/
def Obligations.IllegalWordsRaiseIllegal : Prop :=
  (∀ w : Word, (∃ e, decode w = .error e) ↔
    (opOf w ∉ [0x00#8, 0x01#8, 0x10#8, 0x11#8, 0x12#8, 0x20#8, 0x21#8, 0x30#8, 0x31#8, 0x32#8] ∨
      rsvdOf w ≠ 0 ∨ (opOf w ≠ 0x11 ∧ (arg0Of w ≠ 0 ∨ arg1Of w ≠ 0)))) ∧
  (∀ (s : State) (w : Word), s.busy = false →
    memWrite s 0x000 w = { s with cmdLatch := w, busy := true, done := false }) ∧
  ∀ (s : State) (e : Illegal), decode s.cmdLatch = .error e →
    engineStep s = .next { s with result := 0, err := 1, done := true, busy := false }

/-! ### Steps and the life of a command -/

/-- R98, R72: when the engine moves while a command is in flight whose word decodes to `i`, the step is exec of `i` on the state
at that moment, the schedule moved on by its first entry. With an empty schedule nothing is moved on. The last clause says
the same of a command word that withFetchWord has placed. -/
def Obligations.StepRunsDecodedCommand : Prop :=
  (∀ (s : State) (i : Instr), nextTurn s = .engine → s.busy = true → decode s.cmdLatch = .ok i → i.wf = true →
    step s = exec i (popSched s)) ∧
  (∀ s : State, s.host.sched = [] → popSched s = s) ∧
  (∀ (s : State) (t : Turn) (r : List Turn), s.host.sched = t :: r →
    popSched s = { s with host := { s.host with sched := r } }) ∧
  ∀ (s : State) (w : Nat) (i : Instr), decodeTableWord 32 w = some i →
    step (s.withFetchWord 32 w) = exec i (s.withFetchWord 32 w)

/-- R98, R253: the engine has a step exactly when BUSY = 1: at its turn it is idle and keeps all state while BUSY = 0, and it
ends the command, with a commit, while BUSY = 1. The schedule is the model's choice (log 6). -/
def Obligations.EngineStepsExactlyWhileBusy : Prop :=
  ∀ s : State, nextTurn s = .engine →
    (s.busy = false → step s = .next (popSched s)) ∧
    (s.busy = true → ∃ t, step s = .next t ∧ t.busy = false ∧ t.done = true)

/-- R96: the issue of a command, and the dropped write of COMMAND while BUSY = 1. -/
def Obligations.IssueLatchesTheCommand : Prop :=
  ∀ (s : State) (v : Word),
    (s.busy = false → memWrite s 0x000 v = { s with cmdLatch := v, busy := true, done := false }) ∧
    (s.busy = true → memWrite s 0x000 v = { s with ovr := true })

/-- R97: the success commit applies all staged writes together with ERR 0, DONE 1, BUSY 0, and registers and DST bytes that a
rule does not write keep their values. -/
def Obligations.SuccessCommitAppliesStagedWrites : Prop :=
  ∀ (w : Staged) (s : State), ∃ t, settle (.finish w) s = t ∧
    t.err = 0 ∧ t.done = true ∧ t.busy = false ∧
    (∀ v, w.result = some v → t.result = v) ∧ (w.result = none → t.result = s.result) ∧
    (∀ v, w.echo = some v → t.echo = v) ∧ (w.echo = none → t.echo = s.echo) ∧
    (∀ v, w.counter = some v → t.counter = v) ∧ (w.counter = none → t.counter = s.counter) ∧
    (∀ v, w.key = some v → t.key = v) ∧ (w.key = none → t.key = s.key) ∧
    (∀ v, w.iv = some v → t.iv = v) ∧ (w.iv = none → t.iv = s.iv) ∧
    (∀ bs, w.out = some bs → s.dst.Overwrites t.dst bs ∧ t.dstLen = BitVec.ofNat 16 bs.length) ∧
    (w.out = none → t.dst = s.dst ∧ t.dstLen = s.dstLen) ∧
    t = { s with result := t.result, echo := t.echo, counter := t.counter, key := t.key, iv := t.iv,
                 dst := t.dst, dstLen := t.dstLen, err := 0, done := true, busy := false }

/-- R243: the error commit: RESULT is the device code, the computed CRC or 0, ERR the code of R240, DONE 1, BUSY 0; and a command
that ends with a nonzero ERR has changed nothing else (the count of buffer reads is the model's own, log 4). -/
def Obligations.ErrorCommitChangesResultAndStatusOnly : Prop :=
  (∀ s : State,
    settle (.raise .illegal) s = errorCommit s 1 0 0 ∧
    settle (.raise .len) s = errorCommit s 2 0 0 ∧
    settle (.raise .align) s = errorCommit s 3 0 0 ∧
    settle (.raise .trunc) s = errorCommit s 4 0 0 ∧
    settle (.raise .malformed) s = errorCommit s 5 0 0 ∧
    (∀ c, settle (.raise (.device c)) s = errorCommit s 6 c 0) ∧
    (∀ c, settle (.raise (.crc c)) s = errorCommit s 7 c 0)) ∧
  ∀ (i : Instr) (s t : State), exec i s = .next t → t.err ≠ 0 →
    t = { s with result := t.result, err := t.err, done := true, busy := false, tick := t.tick } ∧
    (t.err ≠ 6 → t.err ≠ 7 → t.result = 0)

/-- R99: ILLEGAL is checked first, then LEN for the commands that read SRC; NOP and LOAD_DEFAULTS never raise LEN. -/
def Obligations.SharedChecksComeFirst : Prop :=
  ∀ s : State,
    (∀ e, decode s.cmdLatch = .error e → engineStep s = .next (errorCommit s 1 0 0)) ∧
    (∀ i, decode s.cmdLatch = .ok i → readsSrc i = true → s.params.bufBytes < s.srcLen.toNat →
      engineStep s = .next (errorCommit s 2 0 0)) ∧
    (∀ i, decode s.cmdLatch = .ok i → readsSrc i = false →
      ∃ t, engineStep s = .next t ∧ t.err = 0)

/-- R97, R243, R244, R247: every command answers a next state in which it is done and the engine idle, and IRQ then follows
DONE_IE. -/
def Obligations.EveryCommandCommits : Prop :=
  ∀ (i : Instr) (s : State), ∃ t, exec i s = .next t ∧ t.done = true ∧ t.busy = false ∧ t.irq = s.doneIe

/-- Which command can end with which completion code (the spec derives this table from the command rules, 60_exceptions.md
section 1). -/
def Obligations.CompletionCodesOfEachCommand : Prop :=
  ∀ (i : Instr) (s t : State), exec i s = .next t → t.err ∈ codesOf i

/-- Every step keeps the invariant: legal parameters, buffers in canonical form inside BUF_BYTES, `DST_LEN <= BUF_BYTES` with
`DST[0..DST_LEN)` written, ERR at most 7, DONE clear while BUSY is set. -/
def Obligations.StepKeepsInvariant : Prop :=
  ∀ s t : State, s.Inv → step s = .next t → t.Inv

/-- The invariant holds after reset, for every legal choice of the parameters. -/
def Obligations.ResetMeetsInvariant : Prop :=
  State.reset.Inv ∧ ∀ p : Params, p.wf = true → (State.resetOf p).Inv

/-- R244: "There are no traps": no run is ever stopped, by a fault or by a refusal. -/
def Obligations.NoRunStops : Prop :=
  ∀ (k : Nat) (s : State), SafeRun k s

/-- R98, R280: a command in flight has ended after finitely many steps, at most one more than the schedule has entries (the
schedule is the model's form of weak fairness, log 6). -/
def Obligations.CommandInFlightEnds : Prop :=
  ∀ s : State, s.busy = true →
    ∃ k t, k ≤ s.host.sched.length + 1 ∧ core.run k s = .next t ∧ t.busy = false

/-- R9: no step changes the parameters. -/
def Obligations.ParametersNeverChange : Prop :=
  ∀ s t : State, step s = .next t → t.params = s.params

/-- While a command is in flight, no host turn changes what the command reads, and none changes what a host reads as the results
of the previous command (the spec derives this in 20_memory.md section 2). -/
def Obligations.HostCannotTouchCommandInFlight : Prop :=
  ∀ s t : State, s.busy = true → nextTurn s = .host → step s = .next t →
    t.busy = true ∧ t.cmdLatch = s.cmdLatch ∧ t.src = s.src ∧ t.srcLen = s.srcLen ∧ t.key = s.key ∧ t.iv = s.iv ∧
    t.macLo = s.macLo ∧ t.macHi = s.macHi ∧ t.devid = s.devid ∧ t.counter = s.counter ∧ t.params = s.params ∧
    t.dst = s.dst ∧ t.dstLen = s.dstLen ∧ t.result = s.result ∧ t.echo = s.echo ∧ t.err = s.err

/-! ### The commands -/

/-- R230: NOP does nothing but complete; a word with OP = 0x00 and any other bit set is not NOP but illegal. -/
def Obligations.NopDoesNothingButComplete : Prop :=
  decode 0x00000000 = .ok .nop ∧
  (∀ w : Word, opOf w = 0x00 → w ≠ 0 → ∃ e, decode w = .error e) ∧
  ∀ s : State, exec .nop s = .next { s with err := 0, done := true, busy := false } ∧
    ∀ t, exec .nop s = .next t → t.irq = s.doneIe ∧ (s.ovr = false → memRead t 0x004 = 0x00000002)

/-- R177: LOAD_DEFAULTS restores KEY and IV from the parameters, changes no other register, and right after reset changes
nothing. -/
def Obligations.LoadDefaultsRestoresKeyAndIv : Prop :=
  decode 0x00000001 = .ok .loadDefaults ∧
  (∀ s : State, exec .loadDefaults s =
    .next { s with key := s.params.defaultKey, iv := s.params.ivConst, err := 0, done := true, busy := false }) ∧
  ∀ p : Params, exec .loadDefaults (State.resetOf p) = .next { State.resetOf p with done := true }

/-- R122: CSUM writes the 16-bit byte sum of the input with seed 0xBEAF to RESULT, or raises LEN; nothing else changes. -/
def Obligations.CsumSumsTheInput : Prop :=
  decode 0x00000010 = .ok .csum ∧
  ∀ s : State,
    (s.params.bufBytes < s.inputLen → exec .csum s = .next (errorCommit s 2 0 0)) ∧
    (s.inputLen ≤ s.params.bufBytes → exec .csum s =
      .next { s with result := BitVec.ofNat 16 (0xBEAF + byteSum s.input), err := 0, done := true, busy := false,
                     tick := s.tick + s.inputLen })

/-- R123, R124, R126: FRAME_ENCODE: LEN when the packet does not fit; otherwise the packet, field by field, with both
checksums, DST_LEN, RESULT, the counter, and nothing else. -/
def Obligations.FrameEncodeBuildsThePacket : Prop :=
  (∀ code ver : Byte,
    decode (0x00000011 ||| code.setWidth 32 <<< 8 ||| ver.setWidth 32 <<< 16) = .ok (.frameEncode code ver)) ∧
  ∀ (s : State) (code ver : Byte), s.params.wf = true →
    (s.params.bufBytes < s.inputLen → exec (.frameEncode code ver) s = .next (errorCommit s 2 0 0)) ∧
    (s.inputLen ≤ s.params.bufBytes → s.params.bufBytes < 0x38 + pad16 s.inputLen →
      exec (.frameEncode code ver) s = .next (errorCommit s 2 0 s.inputLen)) ∧
    (0x38 + pad16 s.inputLen ≤ s.params.bufBytes →
      let pt := s.input ++ List.replicate (pad16 s.inputLen - s.inputLen) 0
      let w : Half := BitVec.ofNat 16 (0xBEAF + byteSum (packetFields s code ver pt 0))
      let pkt := packetFields s code ver pt w
      ∃ d, s.dst.Overwrites d pkt ∧ pkt.length = 0x38 + pad16 s.inputLen ∧
        exec (.frameEncode code ver) s =
          .next { s with dst := d, dstLen := BitVec.ofNat 16 (0x38 + pad16 s.inputLen), result := w,
                         counter := s.counter + 1, err := 0, done := true, busy := false,
                         tick := s.tick + s.inputLen })

/-- R128: FRAME_DECODE: TRUNC, DEVICE, MALFORMED in this order, otherwise ECHO, DST, DST_LEN and RESULT 0. The error code's
offset is the parameter ERR_OFFSET, 0x22 in the spec's default instance (R132). -/
def Obligations.FrameDecodeSplitsTheReply : Prop :=
  decode 0x00000012 = .ok .frameDecode ∧
  ∀ s : State, s.params.wf = true →
    let n := s.inputLen
    let e := (s.input.getD s.params.errOffset 0).toNat + 256 * (s.input.getD (s.params.errOffset + 1) 0).toNat
    let pt := cbcDec s.key s.iv (slice s.input 0x38 n)
    (s.params.bufBytes < n → exec .frameDecode s = .next (errorCommit s 2 0 0)) ∧
    (n ≤ s.params.bufBytes → n < 0x38 → exec .frameDecode s = .next (errorCommit s 4 0 n)) ∧
    (n ≤ s.params.bufBytes → 0x38 ≤ n → e ≠ 0 →
      exec .frameDecode s = .next (errorCommit s 6 (BitVec.ofNat 16 e) n)) ∧
    (n ≤ s.params.bufBytes → 0x38 ≤ n → e = 0 → (n = 0x38 ∨ (n - 0x38) % 16 ≠ 0) →
      exec .frameDecode s = .next (errorCommit s 5 0 n)) ∧
    (n ≤ s.params.bufBytes → 0x38 < n → e = 0 → (n - 0x38) % 16 = 0 →
      ∃ d, s.dst.Overwrites d (slice pt 4 (n - 0x38)) ∧ (slice pt 4 (n - 0x38)).length = n - 0x38 - 4 ∧
        exec .frameDecode s =
          .next { s with echo := bytesWord (slice pt 0 4), dst := d, dstLen := BitVec.ofNat 16 (n - 0x38 - 4),
                         result := 0, err := 0, done := true, busy := false, tick := s.tick + n })

/-- R175: AES_CBC_ENC: ALIGN when the length is not a multiple of 16, otherwise the ciphertext in DST; IV, KEY and everything
else unchanged. -/
def Obligations.AesCbcEncEncryptsTheInput : Prop :=
  decode 0x00000020 = .ok .aesCbcEnc ∧
  ∀ s : State,
    (s.params.bufBytes < s.inputLen → exec .aesCbcEnc s = .next (errorCommit s 2 0 0)) ∧
    (s.inputLen ≤ s.params.bufBytes → s.inputLen % 16 ≠ 0 →
      exec .aesCbcEnc s = .next (errorCommit s 3 0 s.inputLen)) ∧
    (s.inputLen ≤ s.params.bufBytes → s.inputLen % 16 = 0 →
      ∃ d, s.dst.Overwrites d (cbcEnc s.key s.iv s.input) ∧ (cbcEnc s.key s.iv s.input).length = s.inputLen ∧
        exec .aesCbcEnc s =
          .next { s with dst := d, dstLen := s.srcLen, result := 0, err := 0, done := true, busy := false,
                         tick := s.tick + s.inputLen })

/-- R176: AES_CBC_DEC: ALIGN when the length is not a multiple of 16, otherwise the plaintext in DST, whatever the key; everything
else unchanged. -/
def Obligations.AesCbcDecDecryptsTheInput : Prop :=
  decode 0x00000021 = .ok .aesCbcDec ∧
  ∀ s : State,
    (s.params.bufBytes < s.inputLen → exec .aesCbcDec s = .next (errorCommit s 2 0 0)) ∧
    (s.inputLen ≤ s.params.bufBytes → s.inputLen % 16 ≠ 0 →
      exec .aesCbcDec s = .next (errorCommit s 3 0 s.inputLen)) ∧
    (s.inputLen ≤ s.params.bufBytes → s.inputLen % 16 = 0 →
      ∃ d, s.dst.Overwrites d (cbcDec s.key s.iv s.input) ∧ (cbcDec s.key s.iv s.input).length = s.inputLen ∧
        exec .aesCbcDec s =
          .next { s with dst := d, dstLen := s.srcLen, result := 0, err := 0, done := true, busy := false,
                         tick := s.tick + s.inputLen })

/-- R202: CRC16 writes the CRC-16/MODBUS of the input to RESULT, or raises LEN; nothing else changes. -/
def Obligations.Crc16OfTheInput : Prop :=
  decode 0x00000030 = .ok .crc16 ∧
  ∀ s : State,
    (s.params.bufBytes < s.inputLen → exec .crc16 s = .next (errorCommit s 2 0 0)) ∧
    (s.inputLen ≤ s.params.bufBytes → exec .crc16 s =
      .next { s with result := crcReference s.input, err := 0, done := true, busy := false,
                     tick := s.tick + s.inputLen })

/-- R203, R204: HFRAME_WRAP: LEN when the frame does not fit, otherwise the HysenFrame in DST and its CRC in RESULT. -/
def Obligations.HframeWrapBuildsTheFrame : Prop :=
  decode 0x00000031 = .ok .hframeWrap ∧
  ∀ s : State,
    (s.params.bufBytes < s.inputLen → exec .hframeWrap s = .next (errorCommit s 2 0 0)) ∧
    (s.inputLen ≤ s.params.bufBytes → s.params.bufBytes < s.inputLen + 4 →
      exec .hframeWrap s = .next (errorCommit s 2 0 s.inputLen)) ∧
    (s.inputLen + 4 ≤ s.params.bufBytes →
      ∃ d, s.dst.Overwrites d
          ([BitVec.ofNat 8 (s.inputLen + 2), BitVec.ofNat 8 ((s.inputLen + 2) % 65536 / 256)] ++ s.input ++
            le16 (crcReference s.input)) ∧
        exec .hframeWrap s =
          .next { s with dst := d, dstLen := BitVec.ofNat 16 (s.inputLen + 4), result := crcReference s.input,
                         err := 0, done := true, busy := false, tick := s.tick + s.inputLen })

/-- R205: HFRAME_CHECK: MALFORMED, then CRC with the computed CRC in RESULT, otherwise the inner payload in DST. -/
def Obligations.HframeCheckExtractsThePayload : Prop :=
  decode 0x00000032 = .ok .hframeCheck ∧
  ∀ s : State,
    let n := s.inputLen
    let l := (s.input.getD 0 0).toNat + 256 * (s.input.getD 1 0).toNat
    let q := slice s.input 2 l
    let rx := (s.input.getD l 0).toNat + 256 * (s.input.getD (l + 1) 0).toNat
    (s.params.bufBytes < n → exec .hframeCheck s = .next (errorCommit s 2 0 0)) ∧
    (n ≤ s.params.bufBytes → (n < 4 ∨ l < 2 ∨ n < l + 2) →
      exec .hframeCheck s = .next (errorCommit s 5 0 n)) ∧
    (n ≤ s.params.bufBytes → 4 ≤ n → 2 ≤ l → l + 2 ≤ n → (crcReference q).toNat ≠ rx →
      exec .hframeCheck s = .next (errorCommit s 7 (crcReference q) n)) ∧
    (n ≤ s.params.bufBytes → 4 ≤ n → 2 ≤ l → l + 2 ≤ n → (crcReference q).toNat = rx →
      ∃ d, s.dst.Overwrites d q ∧ q.length = l - 2 ∧
        exec .hframeCheck s =
          .next { s with dst := d, dstLen := BitVec.ofNat 16 (l - 2), result := crcReference q, err := 0,
                         done := true, busy := false, tick := s.tick + n })

/-! ### The primitives -/

/-- R120: `Csum` is the seed 0xBEAF plus the sum of the bytes, modulo 2^16. -/
def Obligations.CsumIsTheByteSum : Prop :=
  ∀ s : List Byte, csum s = BitVec.ofNat 16 (0xBEAF + byteSum s)

/-- The spec's laws of Csum (40_framer.md section 1, which derives them): the seed, concatenation, order, and zero bytes. -/
def Obligations.CsumLaws : Prop :=
  csum [] = 0xBEAF ∧
  (∀ s t : List Byte, csum (s ++ t) = csum s + BitVec.ofNat 16 (byteSum t)) ∧
  (∀ s t : List Byte, s.Perm t → csum s = csum t) ∧
  ∀ (s : List Byte) (k : Nat), csum (s ++ List.replicate k 0) = csum s

/-- R200: the right-shifting register with 0xA001 computes the CRC of the stated parameters: width 16, polynomial 0x8005, initial value
0xFFFF, input reflected, output reflected, final XOR 0. -/
def Obligations.CrcRealisesItsParameters : Prop :=
  ∀ s : List Byte, crc16 s = crcReference s

/-- Multiplication in the field is the XOR of `xtime^i(a)` over the set bits i of b; the S-box table is the affine map of the inverse
in GF(2^8), 0 mapping to the image of 0, and the inverse table is its inverse permutation (41_crypto.md section 1). -/
def Obligations.SboxIsAffineOfInverse : Prop :=
  (∀ a : Byte, xtime a = (if a.getLsbD 7 then (a <<< 1) ^^^ 0x1B else a <<< 1)) ∧
  (∀ a b : Byte, gmul a b = ((List.range 8).filter fun i => b.getLsbD i).foldl (fun x i => x ^^^ xtime^[i] a) 0) ∧
  sbox 0 = sboxAffine 0 ∧
  (∀ x y : Byte, gmul x y = 1 → sbox x = sboxAffine y) ∧
  (∀ x : Byte, x ≠ 0 → ∃ y : Byte, gmul x y = 1) ∧
  ∀ x : Byte, invSbox (sbox x) = x ∧ sbox (invSbox x) = x

/-- The inverse cipher undoes the cipher, for every key and block (41_crypto.md section 1). -/
def Obligations.AesDecryptUndoesEncrypt : Prop :=
  ∀ k b : Block, aesDecrypt k (aesEncrypt k b) = b

/-- The chaining of the CBC mode, block by block: `C_i = AES_Encrypt(k, P_i ^ prev)` and `P_i = AES_Decrypt(k, C_i) ^ prev`, where
`P_i = p[16i..16i+16)` and `prev` is the IV at the first block and the ciphertext block before it at every other (41_crypto.md
section 2). -/
def Obligations.CbcChainsTheBlocks : Prop :=
  ∀ (k iv : Block) (p : List Byte), p.length % 16 = 0 →
    (cbcEnc k iv p).length = p.length ∧ (cbcDec k iv p).length = p.length ∧
    ∀ i, i < p.length / 16 →
      blockAt (cbcEnc k iv p) i =
        aesEncrypt k (xorBlock (blockAt p i) (if i = 0 then iv else blockAt (cbcEnc k iv p) (i - 1))) ∧
      blockAt (cbcDec k iv p) i =
        xorBlock (aesDecrypt k (blockAt p i)) (if i = 0 then iv else blockAt p (i - 1))

/-- The cipher round trip on the machine: AES_CBC_ENC, DST moved into SRC, AES_CBC_DEC under the same KEY and IV gives back the input
(41_crypto.md section 4, which derives it). -/
def Obligations.CipherRoundTrip : Prop :=
  ∀ s : State, s.params.wf = true → s.inputLen ≤ s.params.bufBytes → s.inputLen % 16 = 0 →
    ∃ t, exec .aesCbcEnc s = .next t ∧
      ∀ u, MovedToSrc t u → u.key = s.key → u.iv = s.iv →
        ∃ v, exec .aesCbcDec u = .next v ∧ v.err = 0 ∧ v.dstLen = s.srcLen ∧
          ∀ i, i < s.inputLen → v.dst.get? i = s.input[i]?

/-- The packet round trip: what FRAME_ENCODE builds, FRAME_DECODE under the same KEY and IV splits into the first four bytes of the
padded payload (ECHO) and the rest (DST), if the header template's error code field is zero and the payload is not empty. With an
empty payload it ends with MALFORMED, and with a nonzero error code field with DEVICE and that code (derived from 40_framer.md
sections 4 and 5 and 41_crypto.md sections 1 and 2). -/
def Obligations.PacketRoundTrip : Prop :=
  ∀ (s : State) (code ver : Byte), s.params.wf = true → s.params.errOffset = 0x22 →
    0x38 + pad16 s.inputLen ≤ s.params.bufBytes →
    let e := (s.params.hdrTemplate.getD 0x22 0).toNat + 256 * (s.params.hdrTemplate.getD 0x23 0).toNat
    ∃ t, exec (.frameEncode code ver) s = .next t ∧
      ∀ u, MovedToSrc t u → u.key = s.key → u.iv = s.iv →
        ∃ v, exec .frameDecode u = .next v ∧
          (e ≠ 0 → v.err = 6 ∧ v.result = BitVec.ofNat 16 e) ∧
          (e = 0 → s.inputLen = 0 → v.err = 5) ∧
          (e = 0 → 0 < s.inputLen → v.err = 0 ∧ v.dstLen.toNat = pad16 s.inputLen - 4 ∧
            v.echo = bytesWord ((paddedPayload s.input).take 4) ∧
            ∀ i, i < pad16 s.inputLen - 4 → v.dst.get? i = (paddedPayload s.input)[i + 4]?)

/-- The HysenFrame round trip: what HFRAME_WRAP builds, HFRAME_CHECK accepts, giving back the inner payload and the CRC (derived from
42_crc.md sections 3 to 5). -/
def Obligations.HysenFrameRoundTrip : Prop :=
  ∀ s : State, s.params.wf = true → s.inputLen + 4 ≤ s.params.bufBytes →
    ∃ t, exec .hframeWrap s = .next t ∧
      ∀ u, MovedToSrc t u →
        ∃ v, exec .hframeCheck u = .next v ∧ v.err = 0 ∧ v.dstLen = s.srcLen ∧ v.result = t.result ∧
          ∀ i, i < s.inputLen → v.dst.get? i = s.input[i]?

/-! ### What a command leaves alone -/

/-- The frame of every command: the parameters, OVR, IRQ_EN, SRC_LEN, DEVID, MAC, CMDLATCH, SRC and the host agent (10_state.md
sections 3 to 5; 60_exceptions.md section 1). -/
def Obligations.CommandsLeaveTheseAlone : Prop :=
  ∀ (i : Instr) (s t : State), exec i s = .next t →
    t.params = s.params ∧ t.ovr = s.ovr ∧ t.doneIe = s.doneIe ∧ t.srcLen = s.srcLen ∧ t.devid = s.devid ∧
    t.macLo = s.macLo ∧ t.macHi = s.macHi ∧ t.cmdLatch = s.cmdLatch ∧ t.src = s.src ∧ t.host = s.host

/-- Who writes what (10_state.md section 3). Of the commands, KEY and IV only LOAD_DEFAULTS, ECHO only FRAME_DECODE, COUNTER only
FRAME_ENCODE, RESULT every command but NOP and LOAD_DEFAULTS, DST_LEN only a successful command that writes DST. Of all steps, KEY,
IV and COUNTER change also by a host write of them with BUSY = 0, RESULT also by an illegal word's commit, and all of them by the
reset input. -/
def Obligations.OnlyTheseCommandsWrite : Prop :=
  (∀ (i : Instr) (s t : State), exec i s = .next t →
    (i ≠ .loadDefaults → t.key = s.key ∧ t.iv = s.iv) ∧
    (i ≠ .frameDecode → t.echo = s.echo) ∧
    ((∀ c v, i ≠ .frameEncode c v) → t.counter = s.counter) ∧
    (i = .nop ∨ i = .loadDefaults → t.result = s.result) ∧
    (writesDst i = false ∨ t.err ≠ 0 → t.dstLen = s.dstLen) ∧
    (t.err ≠ 0 → t.key = s.key ∧ t.iv = s.iv ∧ t.echo = s.echo ∧ t.counter = s.counter)) ∧
  ∀ s t : State, step s = .next t →
    (t.key ≠ s.key → EngineRuns s .loadDefaults ∨ HostWrites s 0x030 0x040 ∨ nextTurn s = .reset) ∧
    (t.iv ≠ s.iv → EngineRuns s .loadDefaults ∨ HostWrites s 0x040 0x050 ∨ nextTurn s = .reset) ∧
    (t.echo ≠ s.echo → EngineRuns s .frameDecode ∨ nextTurn s = .reset) ∧
    (t.counter ≠ s.counter →
      (∃ code ver, EngineRuns s (.frameEncode code ver)) ∨ HostWrites s 0x01C 0x020 ∨ nextTurn s = .reset) ∧
    (t.result ≠ s.result → (nextTurn s = .engine ∧ s.busy = true) ∨ nextTurn s = .reset) ∧
    (t.dstLen ≠ s.dstLen → (∃ i, EngineRuns s i ∧ writesDst i = true) ∨ nextTurn s = .reset)

/-- Counter use (40_framer.md section 4): FRAME_ENCODE puts the old COUNTER into header bytes 0x28 and 0x29 and increments it once
per success, not on an error; no other command reads or changes it. The last clause, that 65536 successes with no other change give
the starting value, the spec marks as derived. -/
def Obligations.CounterCountsPackets : Prop :=
  (∀ (s t : State) (code ver : Byte), s.params.wf = true → exec (.frameEncode code ver) s = .next t →
    (t.err = 0 → t.dst.get? 0x28 = some (BitVec.ofNat 8 s.counter.toNat) ∧
      t.dst.get? 0x29 = some (BitVec.ofNat 8 (s.counter.toNat / 256)) ∧
      t.counter.toNat = (s.counter.toNat + 1) % 65536) ∧
    (t.err ≠ 0 → t.counter = s.counter)) ∧
  (∀ (i : Instr) (s t : State) (c : Half), (∀ code ver, i ≠ .frameEncode code ver) → exec i s = .next t →
    t.counter = s.counter ∧ exec i { s with counter := c } = .next { t with counter := c }) ∧
  ∀ f : Nat → State,
    (∀ k, ∃ code ver u, exec (.frameEncode code ver) (f k) = .next u ∧ u.err = 0 ∧ (f (k + 1)).counter = u.counter) →
    (f 65536).counter = (f 0).counter

/-- R38: only a successful command that writes DST changes DST, inside `[0..DST_LEN)`, where every byte is then written; all other
bytes keep their contents, an error writes no DST byte, and no host write reaches DST. -/
def Obligations.DstChangesOnlyBelowDstLen : Prop :=
  (∀ (i : Instr) (s t : State), s.params.wf = true → exec i s = .next t → ∀ a,
    (t.err = 0 → writesDst i = true → a < t.dstLen.toNat → (t.dst.get? a).isSome = true) ∧
    (¬ (t.err = 0 ∧ writesDst i = true ∧ a < t.dstLen.toNat) → t.dst.get? a = s.dst.get? a)) ∧
  (∀ (s : State) (a : Offset) (v : Word), (memWrite s a v).dst = s.dst) ∧
  ∀ (i : Instr) (s t : State), exec i s = .next t → t.src = s.src

/-- What a command reads of the buffers: "A command reads only `SRC[0..n)`" and "never reads DST" (10_state.md section 4; 20_memory.md
section 1). The input is n bytes, each written one as it stands in SRC; with other SRC contents at or beyond n, or with other DST
contents, a command ends in the same way and writes the same bytes. -/
def Obligations.CommandsDoNotReadDst : Prop :=
  (∀ s : State, s.input.length = s.srcLen.toNat ∧
    ∀ a b, a < s.srcLen.toNat → s.src.get? a = some b → s.input[a]? = some b) ∧
  (∀ (i : Instr) (s t : State) (m : Memory), (∀ a, a < s.srcLen.toNat → m.get? a = s.src.get? a) →
    exec i s = .next t → exec i { s with src := m } = .next { t with src := m }) ∧
  ∀ (i : Instr) (s t : State) (m : Memory), exec i s = .next t →
    ∃ d, exec i { s with dst := m } = .next { t with dst := d } ∧
      (t.err = 0 → writesDst i = true → ∀ a, a < t.dstLen.toNat → d.get? a = t.dst.get? a)

/-- "The header bytes other than 0x22–0x23 ... are not read" (40_framer.md section 5): FRAME_DECODE ends in the same way on inputs that
agree on the error code and on the ciphertext. -/
def Obligations.FrameDecodeIgnoresTheRestOfTheHeader : Prop :=
  ∀ (s t : State) (m : Memory), s.params.wf = true →
    (∀ a, (a = s.params.errOffset ∨ a = s.params.errOffset + 1 ∨ 0x38 ≤ a) → m.get? a = s.src.get? a) →
    exec .frameDecode s = .next t → exec .frameDecode { s with src := m } = .next { t with src := m }

/-! ### The host's accesses -/

/-- R25: the STATUS register: the fields where they stand, every other bit 0; the write that clears DONE and OVR, whatever BUSY is; and
no command leaves an ERR above 7. -/
def Obligations.StatusRegisterLayout : Prop :=
  (∀ s : State, ∀ k, k < 32 → (memRead s 0x004).getLsbD k =
    if k = 0 then s.busy else if k = 1 then s.done else if k = 2 then s.ovr
    else if 8 ≤ k ∧ k ≤ 11 then s.err.getLsbD (k - 8) else false) ∧
  (∀ (s : State) (v : Word), memWrite s 0x004 v =
    { s with done := s.done && !v.getLsbD 1, ovr := s.ovr && !v.getLsbD 2 }) ∧
  ∀ (i : Instr) (s t : State), exec i s = .next t → t.err.toNat ≤ 7

/-- R41: while BUSY = 1 a write of a listed location changes nothing but OVR; writes of STATUS and IRQ_EN are accepted, and writes of
read-only or reserved locations are ignored, whatever BUSY is. -/
def Obligations.GuardedWritesAreDroppedWhileBusy : Prop :=
  ∀ (s : State) (a : Offset) (v : Word), s.params.wf = true →
    (s.busy = true → guardedOffset s.params a = true → memWrite s a v = { s with ovr := true }) ∧
    (a.toNat / 4 * 4 = 0x004 → memWrite s a v =
      { s with done := s.done && !v.getLsbD 1, ovr := s.ovr && !v.getLsbD 2 }) ∧
    (a.toNat / 4 * 4 = 0x008 → memWrite s a v = { s with doneIe := v.getLsbD 0 }) ∧
    (guardedOffset s.params a = false → a.toNat / 4 * 4 ≠ 0x004 → a.toNat / 4 * 4 ≠ 0x008 → memWrite s a v = s)

/-- R36, R64: reserved offsets and reserved bits read as 0 and ignore writes, and such a write never sets OVR. -/
def Obligations.ReservedReadsZeroAndIgnoresWrites : Prop :=
  (∀ (s : State) (a : Offset) (v : Word), s.params.wf = true → reservedOffset s.params a = true →
    memRead s a = 0 ∧ memWrite s a v = s) ∧
  (∀ s : State, memRead s 0x000 = 0 ∧ memRead s 0x004 &&& 0xFFFFF0F8 = 0 ∧ memRead s 0x008 &&& 0xFFFFFFFE = 0 ∧
    memRead s 0x00C &&& 0xFFFF0000 = 0 ∧ memRead s 0x010 &&& 0xFFFF0000 = 0 ∧ memRead s 0x014 &&& 0xFFFF0000 = 0 ∧
    memRead s 0x01C &&& 0xFFFF0000 = 0 ∧ memRead s 0x028 &&& 0xFFFF0000 = 0) ∧
  ∀ (s : State) (v : Word),
    memWrite s 0x004 v = memWrite s 0x004 (v &&& 0x00000006) ∧ memWrite s 0x008 v = memWrite s 0x008 (v &&& 0x00000001) ∧
    memWrite s 0x00C v = memWrite s 0x00C (v &&& 0x0000FFFF) ∧ memWrite s 0x01C v = memWrite s 0x01C (v &&& 0x0000FFFF) ∧
    memWrite s 0x028 v = memWrite s 0x028 (v &&& 0x0000FFFF)

/-- R65: the SRC window: a read returns each written byte `SRC[4j+k]` in bits 8k+7 to 8k, whatever the other bytes of the word are; a
write sets the four bytes and no other byte (dropped while BUSY = 1), and a word beyond BUF_BYTES reads 0 and ignores writes. -/
def Obligations.SrcWindowReadsAndWritesSrc : Prop :=
  ∀ (s : State) (j : Nat) (v : Word), s.params.wf = true → 4 * j < 0x1000 →
    let a : Offset := BitVec.ofNat 14 (0x1000 + 4 * j)
    (4 * j < s.params.bufBytes →
      (∀ k b, k < 4 → s.src.get? (4 * j + k) = some b → (memRead s a).extractLsb' (8 * k) 8 = b) ∧
      (s.busy = true → memWrite s a v = { s with ovr := true }) ∧
      (s.busy = false → ∃ m, memWrite s a v = { s with src := m } ∧
        (∀ k, k < 4 → m.get? (4 * j + k) = some (v.extractLsb' (8 * k) 8)) ∧
        (∀ x, x < 4 * j ∨ 4 * j + 4 ≤ x → m.get? x = s.src.get? x) ∧
        memRead (memWrite s a v) a = v)) ∧
    (s.params.bufBytes ≤ 4 * j → memRead s a = 0 ∧ memWrite s a v = s)

/-- R66: the DST window: a read returns each written byte `DST[4j+k]` in bits 8k+7 to 8k, whatever the other bytes of the word and
DST_LEN are; a write is ignored and sets no OVR, and a word beyond BUF_BYTES reads 0. -/
def Obligations.DstWindowReadsDst : Prop :=
  ∀ (s : State) (j : Nat) (v : Word), s.params.wf = true → 4 * j < 0x1000 →
    let a : Offset := BitVec.ofNat 14 (0x2000 + 4 * j)
    (4 * j < s.params.bufBytes →
      ∀ k b, k < 4 → s.dst.get? (4 * j + k) = some b → (memRead s a).extractLsb' (8 * k) 8 = b) ∧
    (s.params.bufBytes ≤ 4 * j → memRead s a = 0) ∧
    memWrite s a v = s

/-- R61: only offset bits 13:2 are decoded. -/
def Obligations.OffsetLowBitsAreIgnored : Prop :=
  ∀ (s : State) (a : Offset) (v : Word),
    memRead s a = memRead s (a &&& 0x3FFC) ∧ memWrite s a v = memWrite s (a &&& 0x3FFC) v

/-- What a read of each register returns, in every state, whatever BUSY is: the field, zero-extended, and of KEYj and IVj the bytes 4j
to 4j+3, byte 4j+k in bits 8k+7 to 8k. With BUSY = 0 the read-write registers read back what was written, in the bits they have, and a
write of one changes no other register (10_state.md section 3; 20_memory.md section 2). -/
def Obligations.RegistersReadBackWrites : Prop :=
  (∀ s : State,
    memRead s 0x008 = (if s.doneIe then 1 else 0) ∧ memRead s 0x00C = s.srcLen.setWidth 32 ∧
    memRead s 0x010 = s.dstLen.setWidth 32 ∧ memRead s 0x014 = s.result.setWidth 32 ∧ memRead s 0x018 = s.echo ∧
    memRead s 0x01C = s.counter.setWidth 32 ∧ memRead s 0x020 = s.devid ∧ memRead s 0x024 = s.macLo ∧
    memRead s 0x028 = s.macHi.setWidth 32 ∧
    ∀ j k : Nat, j < 4 → k < 4 →
      (blockBytes s.key)[4 * j + k]? =
        some ((memRead s (BitVec.ofNat 14 (0x030 + 4 * j))).extractLsb' (8 * k) 8) ∧
      (blockBytes s.iv)[4 * j + k]? =
        some ((memRead s (BitVec.ofNat 14 (0x040 + 4 * j))).extractLsb' (8 * k) 8)) ∧
  ∀ (s : State) (v : Word), s.busy = false →
    (∃ c, memWrite s 0x00C v = { s with srcLen := c } ∧ memRead (memWrite s 0x00C v) 0x00C = v &&& 0xFFFF) ∧
    (∃ c, memWrite s 0x01C v = { s with counter := c } ∧ memRead (memWrite s 0x01C v) 0x01C = v &&& 0xFFFF) ∧
    (∃ c, memWrite s 0x020 v = { s with devid := c } ∧ memRead (memWrite s 0x020 v) 0x020 = v) ∧
    (∃ c, memWrite s 0x024 v = { s with macLo := c } ∧ memRead (memWrite s 0x024 v) 0x024 = v) ∧
    (∃ c, memWrite s 0x028 v = { s with macHi := c } ∧ memRead (memWrite s 0x028 v) 0x028 = v &&& 0xFFFF) ∧
    (∃ c, memWrite s 0x008 v = { s with doneIe := c } ∧ memRead (memWrite s 0x008 v) 0x008 = v &&& 1) ∧
    ∀ j : Nat, j < 4 →
      (∃ k : Block, memWrite s (BitVec.ofNat 14 (0x030 + 4 * j)) v = { s with key := k } ∧
        (∀ i, i < 16 → (blockBytes k)[i]? =
          if 4 * j ≤ i ∧ i < 4 * j + 4 then some (v.extractLsb' (8 * (i - 4 * j)) 8) else (blockBytes s.key)[i]?) ∧
        memRead (memWrite s (BitVec.ofNat 14 (0x030 + 4 * j)) v) (BitVec.ofNat 14 (0x030 + 4 * j)) = v) ∧
      (∃ k : Block, memWrite s (BitVec.ofNat 14 (0x040 + 4 * j)) v = { s with iv := k } ∧
        (∀ i, i < 16 → (blockBytes k)[i]? =
          if 4 * j ≤ i ∧ i < 4 * j + 4 then some (v.extractLsb' (8 * (i - 4 * j)) 8) else (blockBytes s.iv)[i]?) ∧
        memRead (memWrite s (BitVec.ofNat 14 (0x040 + 4 * j)) v) (BitVec.ofNat 14 (0x040 + 4 * j)) = v)

/-- R247, R248: IRQ = DONE & DONE_IE; a commit asserts it while DONE_IE = 1, and so does setting DONE_IE while DONE = 1; it
deasserts when DONE is cleared, when DONE_IE is cleared, at an issue and at reset. -/
def Obligations.InterruptIsDoneAndEnable : Prop :=
  (∀ s : State, s.irq = (s.done && s.doneIe)) ∧
  (∀ (i : Instr) (s t : State), exec i s = .next t → t.irq = s.doneIe) ∧
  (∀ (s : State) (v : Word), (memWrite s 0x008 v).irq = (s.done && v.getLsbD 0)) ∧
  (∀ (s : State) (v : Word), v.getLsbD 1 = true → (memWrite s 0x004 v).irq = false) ∧
  (∀ (s : State) (v : Word), s.busy = false → (memWrite s 0x000 v).irq = false) ∧
  ∀ s t : State, nextTurn s = .reset → step s = .next t → t.irq = false

/-- R68: no read has a side effect (but the model's own count of reads and the host agent), and every write but the issue of a
command is idempotent. -/
def Obligations.ReadsHaveNoSideEffects : Prop :=
  (∀ (s t : State) (a : Offset) (r : List HostOp), nextTurn s = .host → s.host.prog = .rd a :: r → step s = .next t →
    t = { s with tick := t.tick, host := t.host } ∧ t.host.log = memRead s a :: s.host.log ∧ t.host.prog = r) ∧
  (∀ (s : State) (a : Offset) (v : Word), s.Inv → a.toNat / 4 * 4 ≠ 0x000 →
    memWrite (memWrite s a v) a v = memWrite s a v) ∧
  ∀ (s : State) (v : Word), s.busy = false → s.ovr = false →
    memWrite (memWrite s 0x000 v) 0x000 v ≠ memWrite s 0x000 v

/-- The host's turn makes the next access of its program: a write, a read, one poll of WAIT, or nothing (20_memory.md section 2,
30_encoding.md section 4; the schedule is the model's choice, log 6). -/
def Obligations.HostTurnMakesOneAccess : Prop :=
  ∀ s : State, nextTurn s = .host →
    (s.host.prog = [] → step s = .next (popSched s)) ∧
    (∀ a v r, s.host.prog = .wr a v :: r → ∃ t, step s = .next t ∧ t.host.prog = r ∧
      t = { memWrite s a v with host := t.host }) ∧
    (∀ a r, s.host.prog = .rd a :: r → ∃ t, step s = .next t ∧ t.host.prog = r ∧
      t.host.log = memRead s a :: s.host.log) ∧
    ∀ r, s.host.prog = .wait :: r → ∃ t, step s = .next t ∧ t.host.log = memRead s 0x004 :: s.host.log ∧
      t.host.prog = (if s.busy then .wait :: r else r)

/-! ### Reset and host programs -/

/-- R270: the reset input sets every register to its reset value, abandons a command in flight, and deasserts IRQ; the state
after reset is that of the spec's default instance. CMDLATCH may be anything, and no clause says what it is. -/
def Obligations.ResetSetsEveryRegister : Prop :=
  (∀ s : State, nextTurn s = .reset → ∃ t, step s = .next t ∧ t.params = s.params ∧
    t.busy = false ∧ t.done = false ∧ t.ovr = false ∧ t.err = 0 ∧ t.doneIe = false ∧ t.srcLen = 0 ∧ t.dstLen = 0 ∧
    t.result = 0 ∧ t.echo = 0 ∧ t.counter = 0 ∧ t.devid = 0 ∧ t.macLo = 0 ∧ t.macHi = 0 ∧
    t.key = s.params.defaultKey ∧ t.iv = s.params.ivConst ∧ t.irq = false ∧
    (∀ a, t.src.get? a = none) ∧ ∀ a, t.dst.get? a = none) ∧
  State.reset.statusWord = 0 ∧ State.reset.doneIe = false ∧ State.reset.srcLen = 0 ∧ State.reset.dstLen = 0 ∧
  State.reset.result = 0 ∧ State.reset.echo = 0 ∧ State.reset.counter = 0 ∧ State.reset.devid = 0 ∧
  State.reset.macLo = 0 ∧ State.reset.macHi = 0 ∧ State.reset.key = State.reset.params.defaultKey ∧
  State.reset.iv = State.reset.params.ivConst ∧ State.reset.irq = false ∧
  (∀ a, State.reset.src.get? a = none) ∧ ∀ a, State.reset.dst.get? a = none

/-- `CMD X` then `WAIT`, with an empty schedule: three steps, after which the command has run on the state at its issue and WAIT has
read a STATUS with BUSY clear (30_encoding.md sections 3 and 4; the schedule is the model's choice, log 6). -/
def Obligations.CmdThenWaitRunsTheCommand : Prop :=
  ∀ (s : State) (i : Instr) (r : List HostOp), i.wf = true → s.busy = false → s.host.sched = [] →
    s.host.prog = cmdOp i :: .wait :: r →
    ∃ t v, exec i { s with cmdLatch := encode i, busy := true, done := false,
                           host := { s.host with prog := .wait :: r } } = .next t ∧
      core.run 3 s = .next v ∧ v.host.prog = r ∧ v.host.log = memRead t 0x004 :: s.host.log ∧
      (memRead t 0x004).getLsbD 0 = false ∧ v = { t with tick := v.tick, host := v.host }

/-- `LOADSRC bytes`, with an empty schedule and BUSY = 0: SRC holds the bytes, then zeros up to the end of the last word, then what it
held; SRC_LEN is their number, and no other register changes (30_encoding.md section 4; the schedule is the model's choice, log 6). -/
def Obligations.LoadSrcFillsSrc : Prop :=
  ∀ (s : State) (bs : List Byte) (r : List HostOp), s.params.wf = true → s.busy = false → s.host.sched = [] →
    s.host.prog = loadSrc bs ++ r → bs.length ≤ s.params.bufBytes →
    ∃ t, core.run ((bs.length + 3) / 4 + 1) s = .next t ∧ t.host.prog = r ∧ t.srcLen.toNat = bs.length ∧
      (∀ i, i < bs.length → t.src.get? i = bs[i]?) ∧
      (∀ i, bs.length ≤ i → t.src.get? i = if i < (bs.length + 3) / 4 * 4 then some 0 else s.src.get? i) ∧
      t = { s with src := t.src, srcLen := t.srcLen, host := { s.host with prog := r } }

/-- `READDST -> buf`, with an empty schedule and BUSY = 0: the buffer holds `DST[0..DST_LEN)`, and no register changes (30_encoding.md
section 4; the schedule is the model's choice, log 6). -/
def Obligations.ReadDstCollectsTheOutput : Prop :=
  ∀ (s : State) (r : List HostOp), s.Inv → s.busy = false → s.host.sched = [] → s.host.prog = .readDst :: r →
    ∃ t, core.run ((s.dstLen.toNat + 3) / 4 + 1) s = .next t ∧ t.host.prog = r ∧
      t.host.buf.length = s.dstLen.toNat ∧ (∀ i, i < s.dstLen.toNat → t.host.buf[i]? = s.dst.get? i) ∧
      t = { s with tick := t.tick, host := t.host }

/-- `COPYDST`, with an empty schedule and BUSY = 0: `DST[0..DST_LEN)` stands in SRC, then zeros up to the end of the last word, then what
SRC held; SRC_LEN is DST_LEN, and no other register changes (30_encoding.md section 4; the schedule is the model's choice, log 6). -/
def Obligations.CopyDstMovesTheOutputToSrc : Prop :=
  ∀ (s : State) (r : List HostOp), s.Inv → s.busy = false → s.host.sched = [] → s.host.prog = .copyDst :: r →
    ∃ t, core.run (2 * ((s.dstLen.toNat + 3) / 4) + 2) s = .next t ∧ t.host.prog = r ∧ MovedToSrc s t ∧
      (∀ i, s.dstLen.toNat ≤ i → t.src.get? i = if i < (s.dstLen.toNat + 3) / 4 * 4 then some 0 else s.src.get? i) ∧
      t = { s with src := t.src, srcLen := t.srcLen, tick := t.tick, host := t.host }

/-- `SETKEY`, `SETIV`, `SETMAC` and `SETID`, with an empty schedule and BUSY = 0: after their eleven writes KEY, IV, MAC and DEVID hold
the given bytes in index order, and no other register changes (30_encoding.md section 4; the schedule is the model's choice, log 6). -/
def Obligations.SetSessionWritesTheRegisters : Prop :=
  ∀ (s : State) (k v : Block) (m0 m1 m2 m3 m4 m5 d0 d1 d2 d3 : Byte) (r : List HostOp), s.busy = false → s.host.sched = [] →
    s.host.prog = setKey k ++ setIv v ++ setMac m0 m1 m2 m3 m4 m5 ++ setId d0 d1 d2 d3 ++ r →
    ∃ t, core.run 11 s = .next t ∧ t.key = k ∧ t.iv = v ∧ t.macBytes = [m0, m1, m2, m3, m4, m5] ∧
      t.devidBytes = [d0, d1, d2, d3] ∧
      t = { s with key := t.key, iv := t.iv, macLo := t.macLo, macHi := t.macHi, devid := t.devid,
                   host := { s.host with prog := r } }

/-! ### The steps of the cipher -/

/-- The steps of AES-128 in the words of 41_crypto.md section 1: SubBytes, ShiftRows, MixColumns and AddRoundKey by row and column, the
word recurrence of the key expansion, and the order of the rounds, with the inverses. -/
def Obligations.CipherFollowsItsSteps : Prop :=
  (∀ (s : Block) (r c : Nat), r < 4 → c < 4 →
    stateByte (subBytes s) r c = sbox (stateByte s r c) ∧
    stateByte (invSubBytes s) r c = invSbox (stateByte s r c) ∧
    stateByte (shiftRows s) r c = stateByte s r ((c + r) % 4) ∧
    stateByte (invShiftRows s) r ((c + r) % 4) = stateByte s r c) ∧
  (∀ (s : Block) (c : Nat), c < 4 →
    let s0 := stateByte s 0 c
    let s1 := stateByte s 1 c
    let s2 := stateByte s 2 c
    let s3 := stateByte s 3 c
    stateByte (mixColumns s) 0 c = gmul 2 s0 ^^^ gmul 3 s1 ^^^ s2 ^^^ s3 ∧
    stateByte (mixColumns s) 1 c = s0 ^^^ gmul 2 s1 ^^^ gmul 3 s2 ^^^ s3 ∧
    stateByte (mixColumns s) 2 c = s0 ^^^ s1 ^^^ gmul 2 s2 ^^^ gmul 3 s3 ∧
    stateByte (mixColumns s) 3 c = gmul 3 s0 ^^^ s1 ^^^ s2 ^^^ gmul 2 s3 ∧
    stateByte (invMixColumns s) 0 c = gmul 0x0e s0 ^^^ gmul 0x0b s1 ^^^ gmul 0x0d s2 ^^^ gmul 0x09 s3 ∧
    stateByte (invMixColumns s) 1 c = gmul 0x09 s0 ^^^ gmul 0x0e s1 ^^^ gmul 0x0b s2 ^^^ gmul 0x0d s3 ∧
    stateByte (invMixColumns s) 2 c = gmul 0x0d s0 ^^^ gmul 0x09 s1 ^^^ gmul 0x0e s2 ^^^ gmul 0x0b s3 ∧
    stateByte (invMixColumns s) 3 c = gmul 0x0b s0 ^^^ gmul 0x0d s1 ^^^ gmul 0x09 s2 ^^^ gmul 0x0e s3) ∧
  (∀ (k s : Block) (r j c : Nat), r ≤ 10 → j < 4 → c < 4 →
    stateByte (addRoundKey k r s) j c = stateByte s j c ^^^ keyByte k (4 * r + c) j ∧
    addRoundKey k r (addRoundKey k r s) = s) ∧
  (∀ (k : Block) (i j : Nat), j < 4 →
    (i < 4 → keyByte k i j = (blockBytes k).getD (4 * i + j) 0) ∧
    (4 ≤ i → i < 44 → i % 4 ≠ 0 → keyByte k i j = keyByte k (i - 4) j ^^^ keyByte k (i - 1) j) ∧
    (4 ≤ i → i < 44 → i % 4 = 0 → keyByte k i j = keyByte k (i - 4) j ^^^ (sbox (keyByte k (i - 1) ((j + 1) % 4)) ^^^
      if j = 0 then [0x01, 0x02, 0x04, 0x08, 0x10, 0x20, 0x40, 0x80, 0x1b, 0x36].getD (i / 4 - 1) 0 else 0))) ∧
  ∀ k b : Block,
    aesEncrypt k b = addRoundKey k 10 (shiftRows (subBytes
      ([1, 2, 3, 4, 5, 6, 7, 8, 9].foldl (fun s r => addRoundKey k r (mixColumns (shiftRows (subBytes s))))
        (addRoundKey k 0 b)))) ∧
    aesDecrypt k b = addRoundKey k 0 (invSubBytes (invShiftRows
      ([9, 8, 7, 6, 5, 4, 3, 2, 1].foldl (fun s r => invMixColumns (addRoundKey k r (invSubBytes (invShiftRows s))))
        (addRoundKey k 10 b))))
end

