-- ==== Sys2Proof/Laws/Bytes.lean ====
section
/-! SUPPORT. The laws of byte orders, lengths, blocks and of a field written into a byte sequence. -/

namespace Sys2Proof.Machine

@[simp] theorem le16_length (v : Half) : (le16 v).length = 2 := rfl

@[simp] theorem wordBytes_length (w : Word) : (wordBytes w).length = 4 := rfl

@[simp] theorem columnBytes_length (c : Column) : (columnBytes c).length = 4 := rfl

@[simp] theorem blockBytes_length (b : Block) : (blockBytes b).length = 16 := rfl

@[simp] theorem macBytes_length (s : State) : s.macBytes.length = 6 := rfl

@[simp] theorem devidBytes_length (s : State) : s.devidBytes.length = 4 := rfl

/-- The low and high byte of a 16-bit value put together again. -/
theorem half_of_bytes (v : Half) :
    (v.extractLsb' 0 8).setWidth 16 ||| (v.extractLsb' 8 8).setWidth 16 <<< 8 = v := by
  ext i hi
  simp only [BitVec.getElem_or, BitVec.getElem_setWidth, BitVec.getLsbD_extractLsb', BitVec.getElem_shiftLeft]
  by_cases h : i < 8
  · simp [h, BitVec.getLsbD_eq_getElem hi]
  · have h2 : i - 8 < 8 := by omega
    have h3 : 8 + (i - 8) = i := by omega
    simp [h, h2, h3, BitVec.getLsbD_eq_getElem hi]

/-- Reading back a LE16 field that stands at offset `o`. -/
theorem rdLE16_of_le16 (v : Half) (a c : List Byte) (o : Nat) (ho : a.length = o) :
    rdLE16 (a ++ le16 v ++ c) o = v := by
  subst ho
  have h0 : (a ++ le16 v ++ c).getD a.length 0 = v.extractLsb' 0 8 := by
    simp [List.getD_eq_getElem?_getD, le16]
  have h1 : (a ++ le16 v ++ c).getD (a.length + 1) 0 = v.extractLsb' 8 8 := by
    simp [List.getD_eq_getElem?_getD, le16]
  rw [rdLE16, h0, h1, half_of_bytes]

/-- A word is the word of its bytes. -/
@[simp] theorem bytesWord_wordBytes (w : Word) : bytesWord (wordBytes w) = w := by
  have : bytesWord (wordBytes w) =
      w.extractLsb' 24 8 ++ w.extractLsb' 16 8 ++ w.extractLsb' 8 8 ++ w.extractLsb' 0 8 := rfl
  rw [this]
  refine BitVec.eq_of_getLsbD_eq fun i hi => ?_
  simp only [BitVec.getLsbD_append, BitVec.getLsbD_extractLsb']
  grind

/-- A register KEYj or IVj reads back the word written to it. -/
@[simp] theorem columnWord_wordColumn (w : Word) : columnWord (wordColumn w) = w := bytesWord_wordBytes w

/-- A column is what its register word holds. -/
@[simp] theorem wordColumn_columnWord (c : Column) : wordColumn (columnWord c) = c := by
  obtain ⟨a, b, c, d⟩ := c
  simp only [wordColumn, columnWord, Column.mk.injEq]
  refine ⟨?_, ?_, ?_, ?_⟩ <;>
  · ext i hi
    simp only [BitVec.getElem_extractLsb', BitVec.getLsbD_append]
    grind

@[simp] theorem blockColumn_setBlockColumn (b : Block) (j : Fin 4) (c : Column) :
    blockColumn (setBlockColumn b j c) j = c := by
  fin_cases j <;> rfl

theorem blockColumn_setBlockColumn_ne (b : Block) {i j : Fin 4} (c : Column) (h : i ≠ j) :
    blockColumn (setBlockColumn b j c) i = blockColumn b i := by
  fin_cases i <;> fin_cases j <;> first | rfl | exact absurd rfl h

theorem le_pad16 (n : Nat) : n ≤ pad16 n := by unfold pad16; omega

theorem pad16_mod (n : Nat) : pad16 n % 16 = 0 := by unfold pad16; omega

theorem pad16_lt (n : Nat) : pad16 n < n + 16 := by unfold pad16; omega

theorem pad16_of_mod {n : Nat} (h : n % 16 = 0) : pad16 n = n := by unfold pad16; omega

/-- The bytes of blocks, taken apart again. -/
@[simp] theorem blocksOf_bytesOf (bs : List Block) : blocksOf (bytesOf bs) = bs := by
  induction bs with
  | nil => rfl
  | cons b bs ih =>
    obtain ⟨⟨a0, a1, a2, a3⟩, ⟨b0, b1, b2, b3⟩, ⟨c0, c1, c2, c3⟩, ⟨d0, d1, d2, d3⟩⟩ := b
    simp only [blocksOf, bytesOf, blockBytes, columnBytes, List.cons_append, List.nil_append, columnsOf,
      blocksOfColumns] at *
    rw [ih]

@[simp] theorem bytesOf_length (bs : List Block) : (bytesOf bs).length = 16 * bs.length := by
  induction bs with
  | nil => rfl
  | cons b bs ih => simp [bytesOf, ih]; omega

/-- A byte sequence whose length is a multiple of 16 is the bytes of its blocks (41_crypto.md R174). -/
theorem bytesOf_blocksOf {bs : List Byte} (h : bs.length % 16 = 0) : bytesOf (blocksOf bs) = bs := by
  obtain ⟨m, hm⟩ : ∃ m, bs.length = 16 * m := ⟨bs.length / 16, by omega⟩
  induction m generalizing bs with
  | zero =>
    have : bs = [] := by simpa using hm
    subst this
    rfl
  | succ m ih =>
    match bs, hm with
    | a0 :: a1 :: a2 :: a3 :: b0 :: b1 :: b2 :: b3 :: c0 :: c1 :: c2 :: c3 :: d0 :: d1 :: d2 :: d3 :: r, hm =>
      simp only [List.length_cons] at hm
      have hr : r.length = 16 * m := by omega
      have := ih (bs := r) (by omega) hr
      simp only [blocksOf, columnsOf, blocksOfColumns, bytesOf, blockBytes, columnBytes, List.cons_append,
        List.nil_append] at *
      rw [this]

theorem blocksOf_length {bs : List Byte} (h : bs.length % 16 = 0) : (blocksOf bs).length = bs.length / 16 := by
  have := congrArg List.length (bytesOf_blocksOf h)
  rw [bytesOf_length] at this
  omega

/-- A field written inside a byte sequence leaves its length. -/
theorem putAt_length {h : List Byte} {o : Nat} {bs : List Byte} (ho : o + bs.length ≤ h.length) :
    (putAt h o bs).length = h.length := by
  simp [putAt]
  omega

theorem putAt_length_eq {h : List Byte} {o n : Nat} {bs : List Byte} (hn : h.length = n) (ho : o + bs.length ≤ n) :
    (putAt h o bs).length = n := by
  rw [putAt_length (by omega), hn]

/-- What a byte sequence holds after a field has been written inside it. -/
theorem putAt_getElem? {h : List Byte} {o : Nat} {bs : List Byte} (ho : o + bs.length ≤ h.length) (i : Nat) :
    (putAt h o bs)[i]? = if o ≤ i ∧ i < o + bs.length then bs[i - o]? else h[i]? := by
  have hl : (h.take o).length = o := by simp; omega
  unfold putAt
  by_cases h1 : i < o
  · rw [if_neg (by omega), List.append_assoc, List.getElem?_append_left (by omega), List.getElem?_take_of_lt h1]
  · by_cases h2 : i < o + bs.length
    · rw [if_pos (by omega), List.getElem?_append_left (by simp; omega), List.getElem?_append_right (by omega), hl]
    · rw [if_neg (by omega), List.getElem?_append_right (by simp; omega), List.getElem?_drop]
      congr 1
      simp
      omega

end Sys2Proof.Machine
end

