-- ==== Sys2Proof/Laws/Aes.lean ====
section
/-! SUPPORT. The laws of the AES steps: each step and its inverse, the key expansion by columns, and the blocks and lengths of the
CBC mode. -/

namespace Sys2Proof.Machine

theorem gmulBits_xor (n : Nat) (a x y : Byte) :
    gmulBits n a (x ^^^ y) = gmulBits n a x ^^^ gmulBits n a y := by
  induction n generalizing a x y with
  | zero => simp [gmulBits]
  | succ n ih =>
    have hs : (x ^^^ y) >>> 1 = x >>> 1 ^^^ y >>> 1 := by
      ext i hi
      simp
    simp only [gmulBits, hs, ih, BitVec.getLsbD_xor]
    cases x.getLsbD 0 <;> cases y.getLsbD 0
    · simp
    · simp only [Bool.xor_true, Bool.not_false, if_true, Bool.false_eq_true, if_false]
      ac_rfl
    · simp only [Bool.xor_false, if_true, Bool.false_eq_true, if_false]
      ac_rfl
    · simp only [Bool.xor_true, Bool.not_true, if_true, Bool.false_eq_true, if_false]
      rw [show ∀ p q r : Byte, p ^^^ q ^^^ (p ^^^ r) = (p ^^^ p) ^^^ (q ^^^ r) by intros; ac_rfl]
      simp

/-- Multiplication distributes over addition (41_crypto.md R161). -/
theorem gmul_xor (a x y : Byte) : gmul a (x ^^^ y) = gmul a x ^^^ gmul a y := gmulBits_xor 8 a x y

/-- The two S-box tables are inverse to each other (R163). -/
@[simp] theorem invSbox_sbox (x : Byte) : invSbox (sbox x) = x := by
  have h : ∀ x : Byte, invSbox (sbox x) = x := by decide +kernel
  exact h x

@[simp] theorem invSubBytes_subBytes (s : Block) : invSubBytes (subBytes s) = s := by
  simp [invSubBytes, subBytes, mapBlock, mapColumn]

@[simp] theorem invShiftRows_shiftRows (s : Block) : invShiftRows (shiftRows s) = s := rfl

theorem xorColumn_self_right (a b : Column) : xorColumn (xorColumn a b) b = a := by
  simp [xorColumn]

/-- Adding the same block twice changes nothing: AddRoundKey is its own inverse (R168). -/
@[simp] theorem xorBlock_self_right (a b : Block) : xorBlock (xorBlock a b) b = a := by
  simp [xorBlock, xorColumn_self_right]

/-- One entry of the product of the two MixColumns matrices, on one byte. -/
theorem mix_entries : ∀ a : Byte,
    (gmul 0x0e (gmul 2 a) ^^^ gmul 0x0b (gmul 1 a) ^^^ gmul 0x0d (gmul 1 a) ^^^ gmul 0x09 (gmul 3 a) = a) ∧
    (gmul 0x0e (gmul 3 a) ^^^ gmul 0x0b (gmul 2 a) ^^^ gmul 0x0d (gmul 1 a) ^^^ gmul 0x09 (gmul 1 a) = 0) ∧
    (gmul 0x0e (gmul 1 a) ^^^ gmul 0x0b (gmul 3 a) ^^^ gmul 0x0d (gmul 2 a) ^^^ gmul 0x09 (gmul 1 a) = 0) ∧
    (gmul 0x0e (gmul 1 a) ^^^ gmul 0x0b (gmul 1 a) ^^^ gmul 0x0d (gmul 3 a) ^^^ gmul 0x09 (gmul 2 a) = 0) := by
  decide +kernel

/-- A row of the inverse matrix applied to a mixed column, up to the order of the sums. -/
theorem inv_mix_row (a b c d : Byte) :
    mixRow 0x0e 0x0b 0x0d 0x09 (mixColumn ⟨a, b, c, d⟩) = a := by
  obtain ⟨ha, -⟩ := mix_entries a
  obtain ⟨-, hb, -⟩ := mix_entries b
  obtain ⟨-, -, hc, -⟩ := mix_entries c
  obtain ⟨-, -, -, hd⟩ := mix_entries d
  have h : mixRow 0x0e 0x0b 0x0d 0x09 (mixColumn ⟨a, b, c, d⟩) =
      (gmul 0x0e (gmul 2 a) ^^^ gmul 0x0b (gmul 1 a) ^^^ gmul 0x0d (gmul 1 a) ^^^ gmul 0x09 (gmul 3 a)) ^^^
      (gmul 0x0e (gmul 3 b) ^^^ gmul 0x0b (gmul 2 b) ^^^ gmul 0x0d (gmul 1 b) ^^^ gmul 0x09 (gmul 1 b)) ^^^
      (gmul 0x0e (gmul 1 c) ^^^ gmul 0x0b (gmul 3 c) ^^^ gmul 0x0d (gmul 2 c) ^^^ gmul 0x09 (gmul 1 c)) ^^^
      (gmul 0x0e (gmul 1 d) ^^^ gmul 0x0b (gmul 1 d) ^^^ gmul 0x0d (gmul 3 d) ^^^ gmul 0x09 (gmul 2 d)) := by
    simp only [mixRow, mixColumn, gmul_xor]
    ac_rfl
  rw [h, ha, hb, hc, hd]
  simp

/-- Both matrices are circulant: rotating a column rotates its image. -/
theorem mixColumn_rotWord (c : Column) : mixColumn (rotWord c) = rotWord (mixColumn c) := by
  simp only [mixColumn, rotWord, mixRow, Column.mk.injEq]
  refine ⟨?_, ?_, ?_, ?_⟩ <;> ac_rfl

theorem invMixColumn_rows (c : Column) :
    invMixColumn c = ⟨mixRow 0x0e 0x0b 0x0d 0x09 c, mixRow 0x0e 0x0b 0x0d 0x09 (rotWord c),
      mixRow 0x0e 0x0b 0x0d 0x09 (rotWord (rotWord c)),
      mixRow 0x0e 0x0b 0x0d 0x09 (rotWord (rotWord (rotWord c)))⟩ := by
  simp only [invMixColumn, rotWord, mixRow, Column.mk.injEq]
  refine ⟨trivial, ?_, ?_, ?_⟩ <;> ac_rfl

/-- InvMixColumns undoes MixColumns on a column (R167). -/
theorem invMixColumn_mixColumn (c : Column) : invMixColumn (mixColumn c) = c := by
  rw [invMixColumn_rows, ← mixColumn_rotWord, ← mixColumn_rotWord, ← mixColumn_rotWord]
  obtain ⟨a, b, c, d⟩ := c
  simp only [rotWord, inv_mix_row]

/-- InvMixColumns undoes MixColumns (R167). -/
@[simp] theorem invMixColumns_mixColumns (s : Block) : invMixColumns (mixColumns s) = s := by
  simp [invMixColumns, mixColumns, invMixColumn_mixColumn]

@[simp] theorem cbcEncBlocks_length (k p : Block) (bs : List Block) : (cbcEncBlocks k p bs).length = bs.length := by
  induction bs generalizing p with
  | nil => rfl
  | cons b bs ih => simp [cbcEncBlocks, ih]

@[simp] theorem cbcDecBlocks_length (k p : Block) (bs : List Block) : (cbcDecBlocks k p bs).length = bs.length := by
  induction bs generalizing p with
  | nil => rfl
  | cons b bs ih => simp [cbcDecBlocks, ih]

/-- "The output has the input's length" (R174). -/
theorem cbcEnc_length (k iv : Block) {p : List Byte} (h : p.length % 16 = 0) : (cbcEnc k iv p).length = p.length := by
  simp [cbcEnc, blocksOf_length h]
  omega

/-- "The output has the input's length" (R174). -/
theorem cbcDec_length (k iv : Block) {c : List Byte} (h : c.length % 16 = 0) : (cbcDec k iv c).length = c.length := by
  simp [cbcDec, blocksOf_length h]
  omega

@[simp] theorem gmul_one (x : Byte) : gmul 1 x = x := by revert x; decide +kernel

/-- Four turns of the key expansion's loop, column by column (41_crypto.md R164). -/
theorem nextRoundKey_columns (w : Block) (rc : Byte) :
    (nextRoundKey w rc).c0 = xorColumn w.c0 ⟨sbox w.c3.r1 ^^^ rc, sbox w.c3.r2, sbox w.c3.r3, sbox w.c3.r0⟩ ∧
    (nextRoundKey w rc).c1 = xorColumn w.c1 (nextRoundKey w rc).c0 ∧
    (nextRoundKey w rc).c2 = xorColumn w.c2 (nextRoundKey w rc).c1 ∧
    (nextRoundKey w rc).c3 = xorColumn w.c3 (nextRoundKey w rc).c2 := ⟨rfl, rfl, rfl, rfl⟩

/-- The bytes of a block list, read as blocks at multiples of 16. -/
theorem blockAt_bytesOf (bs : List Block) (i : Nat) (h : i < bs.length) : blockAt (bytesOf bs) i = bs[i] := by
  induction bs generalizing i with
  | nil => simp at h
  | cons b bs ih =>
    have hb : (blockBytes b).length = 16 := rfl
    cases i with
    | zero => rfl
    | succ i =>
      have hg : ∀ o, (bytesOf (b :: bs)).getD (16 * (i + 1) + o) 0 = (bytesOf bs).getD (16 * i + o) 0 := fun o => by
        rw [bytesOf, List.getD_append_right _ _ _ _ (by omega), hb]
        congr 1
        omega
      have hc : ∀ o, columnAt (bytesOf (b :: bs)) (16 * (i + 1) + o) = columnAt (bytesOf bs) (16 * i + o) := fun o => by
        simp only [columnAt, Nat.add_assoc, hg]
      rw [List.getElem_cons_succ, ← ih i (by simpa using h)]
      unfold blockAt
      exact congr (congr (congr (congrArg Block.mk (hc 0)) (hc 4)) (hc 8)) (hc 12)

/-- The blocks of a byte sequence (41_crypto.md R172). -/
theorem blocksOf_getElem? {p : List Byte} (hp : p.length % 16 = 0) {i : Nat} (h : i < p.length / 16) :
    (blocksOf p)[i]? = some (blockAt p i) := by
  have hl : i < (blocksOf p).length := by rw [blocksOf_length hp]; exact h
  rw [List.getElem?_eq_getElem hl, ← blockAt_bytesOf _ _ hl, bytesOf_blocksOf hp]

end Sys2Proof.Machine
end

