-- ==== Sys2Proof/Laws/Memory.lean ====
section
/-! SUPPORT. The laws of the buffers: read after write, the canonical form, the bound on the indexes. -/

namespace Sys2Proof.Machine

@[simp] theorem Memory.get?_nil (a : Nat) : Memory.get? [] a = none := rfl

theorem Memory.get?_cons (k : Nat) (b : Byte) (m : Memory) (a : Nat) :
    Memory.get? ((k, b) :: m) a = if a = k then some b else Memory.get? m a := rfl

/-- A read after a write of one byte. -/
theorem Memory.get?_set (m : Memory) (a : Nat) (b : Byte) (x : Nat) :
    Memory.get? (Memory.set m a b) x = if x = a then some b else Memory.get? m x := by
  induction m with
  | nil => simp [Memory.set, Memory.get?]
  | cons c m ih =>
    obtain ⟨k, c⟩ := c
    simp only [Memory.set]
    split
    · simp [Memory.get?]
    · split
      · subst_vars
        by_cases h : x = k <;> simp [Memory.get?, h]
      · by_cases h : x = k
        · subst h
          have : x ≠ a := by omega
          simp [Memory.get?, this]
        · simp [Memory.get?, h, ih]

/-- A read after a write of a byte sequence. -/
theorem Memory.get?_setBytes (m : Memory) (a : Nat) (bs : List Byte) (x : Nat) :
    Memory.get? (Memory.setBytes m a bs) x =
      if a ≤ x ∧ x < a + bs.length then bs[x - a]? else Memory.get? m x := by
  induction bs generalizing m a with
  | nil =>
    simp only [Memory.setBytes, List.length_nil]
    rw [if_neg (by omega)]
  | cons b bs ih =>
    simp only [Memory.setBytes, ih, Memory.get?_set, List.length_cons]
    by_cases h1 : x = a
    · subst h1
      simp
    · by_cases h2 : a + 1 ≤ x ∧ x < a + 1 + bs.length
      · rw [if_pos h2, if_pos (by omega)]
        obtain ⟨j, rfl⟩ : ∃ j, x = a + 1 + j := ⟨x - (a + 1), by omega⟩
        have h3 : a + 1 + j - a = j + 1 := by omega
        simp [h3]
      · rw [if_neg h2, if_neg h1, if_neg (by omega)]

theorem Memory.overwrites_setBytes (m : Memory) (bs : List Byte) :
    Memory.Overwrites m (Memory.setBytes m 0 bs) bs := by
  refine ⟨fun i hi => ?_, fun i hi => ?_⟩
  · rw [Memory.get?_setBytes, if_pos (by omega)]
    simp
  · rw [Memory.get?_setBytes, if_neg (by omega)]

/-- Every index listed in a canonical memory's tail is above its head's. -/
theorem Memory.wf_cons_iff (x : Host.Cell) (m : Memory) :
    Memory.wf (x :: m) = true ↔ Memory.wf m = true ∧ ∀ c ∈ m, x.1 < c.1 := by
  induction m generalizing x with
  | nil => simp [Memory.wf]
  | cons y m ih =>
    simp only [Memory.wf, Bool.and_eq_true, decide_eq_true_eq, List.mem_cons, forall_eq_or_imp]
    constructor
    · rintro ⟨h1, h2⟩
      exact ⟨h2, h1, fun c hc => lt_trans h1 (((ih y).1 h2).2 c hc)⟩
    · rintro ⟨h1, h2, -⟩
      exact ⟨h2, h1⟩

theorem Memory.mem_set {m : Memory} {a : Nat} {b : Byte} {c : Host.Cell}
    (h : c ∈ Memory.set m a b) : c = (a, b) ∨ c ∈ m := by
  induction m with
  | nil => simpa [Memory.set] using h
  | cons x m ih =>
    obtain ⟨k, d⟩ := x
    simp only [Memory.set] at h
    split at h
    · simpa using h
    · split at h
      · simp only [List.mem_cons] at h
        rcases h with h | h
        · exact .inl h
        · exact .inr (List.mem_cons_of_mem _ h)
      · simp only [List.mem_cons] at h ⊢
        rcases h with h | h
        · exact .inr (.inl h)
        · rcases ih h with h | h
          · exact .inl h
          · exact .inr (.inr h)

/-- A write of one byte keeps the canonical form. -/
theorem Memory.wf_set {m : Memory} (a : Nat) (b : Byte) (h : m.wf = true) : (m.set a b).wf = true := by
  induction m with
  | nil => rfl
  | cons x m ih =>
    obtain ⟨k, d⟩ := x
    rw [Memory.wf_cons_iff] at h
    simp only [Memory.set]
    split
    · rename_i hlt
      rw [Memory.wf_cons_iff, Memory.wf_cons_iff]
      refine ⟨h, fun c hc => ?_⟩
      simp only [List.mem_cons] at hc
      rcases hc with rfl | hc
      · exact hlt
      · exact lt_trans hlt (h.2 c hc)
    · split
      · subst_vars
        rw [Memory.wf_cons_iff]
        exact h
      · rw [Memory.wf_cons_iff]
        refine ⟨ih h.1, fun c hc => ?_⟩
        rcases Memory.mem_set hc with rfl | hc
        · simp only
          omega
        · exact h.2 c hc

/-- A write of a byte sequence keeps the canonical form. -/
theorem Memory.wf_setBytes {m : Memory} (a : Nat) (bs : List Byte) (h : m.wf = true) :
    (m.setBytes a bs).wf = true := by
  induction bs generalizing m a with
  | nil => exact h
  | cons b bs ih => exact ih _ (Memory.wf_set _ _ h)

theorem Memory.below_set {m : Memory} {n : Nat} (a : Nat) (b : Byte) (h : m.below n = true) (ha : a < n) :
    (m.set a b).below n = true := by
  simp only [Memory.below, List.all_eq_true, decide_eq_true_eq] at *
  intro c hc
  rcases Memory.mem_set hc with rfl | hc
  · exact ha
  · exact h c hc

/-- A write inside the bound keeps the bound. -/
theorem Memory.below_setBytes {m : Memory} {n : Nat} (a : Nat) (bs : List Byte) (h : m.below n = true)
    (ha : a + bs.length ≤ n) : (m.setBytes a bs).below n = true := by
  induction bs generalizing m a with
  | nil => exact h
  | cons b bs ih =>
    simp only [List.length_cons] at ha
    exact ih _ (Memory.below_set _ _ h (by omega)) (by omega)

/-- Two canonical memories that read the same everywhere are equal. -/
theorem Memory.ext_of_wf {m d : Memory} (hm : m.wf = true) (hd : d.wf = true)
    (h : ∀ a, m.get? a = d.get? a) : m = d := by
  induction m generalizing d with
  | nil =>
    cases d with
    | nil => rfl
    | cons y d => simpa [Memory.get?] using h y.1
  | cons x m ih =>
    cases d with
    | nil => simpa [Memory.get?] using h x.1
    | cons y d =>
      obtain ⟨k, b⟩ := x
      obtain ⟨l, c⟩ := y
      rw [Memory.wf_cons_iff] at hm hd
      have none_of_le : ∀ (e : Memory) (z : Nat), (∀ c ∈ e, z < c.1) → Memory.get? e z = none := by
        intro e z hz
        induction e with
        | nil => rfl
        | cons w e ihe =>
          obtain ⟨w, v⟩ := w
          have h1 : z < w := hz (w, v) List.mem_cons_self
          rw [Memory.get?_cons, if_neg (by omega), ihe fun c hc => hz c (List.mem_cons_of_mem _ hc)]
      have hk := h k
      have hl := h l
      rw [Memory.get?_cons, Memory.get?_cons] at hk hl
      have hkl : k = l := by
        by_contra hne
        rcases Nat.lt_or_gt_of_ne hne with hlt | hlt
        · rw [if_pos rfl, if_neg hne, none_of_le d k fun c hc => lt_trans hlt (hd.2 c hc)] at hk
          cases hk
        · rw [if_neg (Ne.symm hne), if_pos rfl, none_of_le m l fun c hc => lt_trans hlt (hm.2 c hc)] at hl
          cases hl
      subst hkl
      rw [if_pos rfl, if_pos rfl] at hk
      cases hk
      congr 1
      refine ih hm.1 hd.1 fun a => ?_
      by_cases ha : a = k
      · subst ha
        rw [none_of_le m a hm.2, none_of_le d a hd.2]
      · have := h a
        rwa [Memory.get?_cons, Memory.get?_cons, if_neg ha, if_neg ha] at this

@[simp] theorem Memory.read_length (m : Memory) (a n k : Nat) : (m.read a n k).length = n := by
  simp [Memory.read]

theorem Memory.read_getElem? (m : Memory) (a n k i : Nat) :
    (m.read a n k)[i]? = if i < n then some (m.readByte (a + i) (k + i)) else none := by
  by_cases h : i < n
  · simp [Memory.read, h]
  · simp [Memory.read, h]

/-- What a command reads depends on what the buffer's bytes read as and on nothing else. -/
theorem Memory.read_congr {m d : Memory} {a n k : Nat}
    (h : ∀ i, i < n → m.get? (a + i) = d.get? (a + i)) : m.read a n k = d.read a n k := by
  simp only [Memory.read, List.map_inj_left, List.mem_range]
  intro i hi
  simp [Memory.readByte, h i hi]

/-- A read of bytes that are all written gives those bytes, whatever the free values are. -/
theorem Memory.read_eq_of_written {m : Memory} {a k : Nat} {bs : List Byte}
    (h : ∀ i, i < bs.length → m.get? (a + i) = bs[i]?) : m.read a bs.length k = bs := by
  refine List.ext_getElem? fun i => ?_
  rw [Memory.read_getElem?]
  split
  · rename_i hi
    simp [Memory.readByte, h i hi, List.getElem?_eq_getElem hi]
  · rename_i hi
    rw [List.getElem?_eq_none (by omega)]

@[simp] theorem State.input_length (s : State) : s.input.length = s.inputLen := by
  simp [State.input]

end Sys2Proof.Machine
end

