-- ==== Sys2Proof/Laws/State.lean ====
section
/-! SUPPORT. One lemma per field for each named update of State. -/

namespace Sys2Proof.Machine

@[simp] theorem State.commit_params (w : Staged) (s : State) : (s.commit w).params = s.params := rfl
@[simp] theorem State.commit_busy (w : Staged) (s : State) : (s.commit w).busy = false := rfl
@[simp] theorem State.commit_done (w : Staged) (s : State) : (s.commit w).done = true := rfl
@[simp] theorem State.commit_ovr (w : Staged) (s : State) : (s.commit w).ovr = s.ovr := rfl
@[simp] theorem State.commit_err (w : Staged) (s : State) : (s.commit w).err = 0 := rfl
@[simp] theorem State.commit_doneIe (w : Staged) (s : State) : (s.commit w).doneIe = s.doneIe := rfl
@[simp] theorem State.commit_srcLen (w : Staged) (s : State) : (s.commit w).srcLen = s.srcLen := rfl
@[simp] theorem State.commit_dstLen (w : Staged) (s : State) : (s.commit w).dstLen = (w.out.map fun bs => BitVec.ofNat 16 bs.length).getD s.dstLen := rfl
@[simp] theorem State.commit_result (w : Staged) (s : State) : (s.commit w).result = w.result.getD s.result := rfl
@[simp] theorem State.commit_echo (w : Staged) (s : State) : (s.commit w).echo = w.echo.getD s.echo := rfl
@[simp] theorem State.commit_counter (w : Staged) (s : State) : (s.commit w).counter = w.counter.getD s.counter := rfl
@[simp] theorem State.commit_devid (w : Staged) (s : State) : (s.commit w).devid = s.devid := rfl
@[simp] theorem State.commit_macLo (w : Staged) (s : State) : (s.commit w).macLo = s.macLo := rfl
@[simp] theorem State.commit_macHi (w : Staged) (s : State) : (s.commit w).macHi = s.macHi := rfl
@[simp] theorem State.commit_key (w : Staged) (s : State) : (s.commit w).key = w.key.getD s.key := rfl
@[simp] theorem State.commit_iv (w : Staged) (s : State) : (s.commit w).iv = w.iv.getD s.iv := rfl
@[simp] theorem State.commit_cmdLatch (w : Staged) (s : State) : (s.commit w).cmdLatch = s.cmdLatch := rfl
@[simp] theorem State.commit_src (w : Staged) (s : State) : (s.commit w).src = s.src := rfl
@[simp] theorem State.commit_dst (w : Staged) (s : State) : (s.commit w).dst = (w.out.map fun bs => s.dst.setBytes 0 bs).getD s.dst := rfl
@[simp] theorem State.commit_tick (w : Staged) (s : State) : (s.commit w).tick = s.tick := rfl
@[simp] theorem State.commit_host (w : Staged) (s : State) : (s.commit w).host = s.host := rfl

@[simp] theorem State.fail_params (e : Err) (s : State) : (s.fail e).params = s.params := rfl
@[simp] theorem State.fail_busy (e : Err) (s : State) : (s.fail e).busy = false := rfl
@[simp] theorem State.fail_done (e : Err) (s : State) : (s.fail e).done = true := rfl
@[simp] theorem State.fail_ovr (e : Err) (s : State) : (s.fail e).ovr = s.ovr := rfl
@[simp] theorem State.fail_err (e : Err) (s : State) : (s.fail e).err = e.code := rfl
@[simp] theorem State.fail_doneIe (e : Err) (s : State) : (s.fail e).doneIe = s.doneIe := rfl
@[simp] theorem State.fail_srcLen (e : Err) (s : State) : (s.fail e).srcLen = s.srcLen := rfl
@[simp] theorem State.fail_dstLen (e : Err) (s : State) : (s.fail e).dstLen = s.dstLen := rfl
@[simp] theorem State.fail_result (e : Err) (s : State) : (s.fail e).result = e.value := rfl
@[simp] theorem State.fail_echo (e : Err) (s : State) : (s.fail e).echo = s.echo := rfl
@[simp] theorem State.fail_counter (e : Err) (s : State) : (s.fail e).counter = s.counter := rfl
@[simp] theorem State.fail_devid (e : Err) (s : State) : (s.fail e).devid = s.devid := rfl
@[simp] theorem State.fail_macLo (e : Err) (s : State) : (s.fail e).macLo = s.macLo := rfl
@[simp] theorem State.fail_macHi (e : Err) (s : State) : (s.fail e).macHi = s.macHi := rfl
@[simp] theorem State.fail_key (e : Err) (s : State) : (s.fail e).key = s.key := rfl
@[simp] theorem State.fail_iv (e : Err) (s : State) : (s.fail e).iv = s.iv := rfl
@[simp] theorem State.fail_cmdLatch (e : Err) (s : State) : (s.fail e).cmdLatch = s.cmdLatch := rfl
@[simp] theorem State.fail_src (e : Err) (s : State) : (s.fail e).src = s.src := rfl
@[simp] theorem State.fail_dst (e : Err) (s : State) : (s.fail e).dst = s.dst := rfl
@[simp] theorem State.fail_tick (e : Err) (s : State) : (s.fail e).tick = s.tick := rfl
@[simp] theorem State.fail_host (e : Err) (s : State) : (s.fail e).host = s.host := rfl

@[simp] theorem State.advance_params (n : Nat) (s : State) : (s.advance n).params = s.params := rfl
@[simp] theorem State.advance_busy (n : Nat) (s : State) : (s.advance n).busy = s.busy := rfl
@[simp] theorem State.advance_done (n : Nat) (s : State) : (s.advance n).done = s.done := rfl
@[simp] theorem State.advance_ovr (n : Nat) (s : State) : (s.advance n).ovr = s.ovr := rfl
@[simp] theorem State.advance_err (n : Nat) (s : State) : (s.advance n).err = s.err := rfl
@[simp] theorem State.advance_doneIe (n : Nat) (s : State) : (s.advance n).doneIe = s.doneIe := rfl
@[simp] theorem State.advance_srcLen (n : Nat) (s : State) : (s.advance n).srcLen = s.srcLen := rfl
@[simp] theorem State.advance_dstLen (n : Nat) (s : State) : (s.advance n).dstLen = s.dstLen := rfl
@[simp] theorem State.advance_result (n : Nat) (s : State) : (s.advance n).result = s.result := rfl
@[simp] theorem State.advance_echo (n : Nat) (s : State) : (s.advance n).echo = s.echo := rfl
@[simp] theorem State.advance_counter (n : Nat) (s : State) : (s.advance n).counter = s.counter := rfl
@[simp] theorem State.advance_devid (n : Nat) (s : State) : (s.advance n).devid = s.devid := rfl
@[simp] theorem State.advance_macLo (n : Nat) (s : State) : (s.advance n).macLo = s.macLo := rfl
@[simp] theorem State.advance_macHi (n : Nat) (s : State) : (s.advance n).macHi = s.macHi := rfl
@[simp] theorem State.advance_key (n : Nat) (s : State) : (s.advance n).key = s.key := rfl
@[simp] theorem State.advance_iv (n : Nat) (s : State) : (s.advance n).iv = s.iv := rfl
@[simp] theorem State.advance_cmdLatch (n : Nat) (s : State) : (s.advance n).cmdLatch = s.cmdLatch := rfl
@[simp] theorem State.advance_src (n : Nat) (s : State) : (s.advance n).src = s.src := rfl
@[simp] theorem State.advance_dst (n : Nat) (s : State) : (s.advance n).dst = s.dst := rfl
@[simp] theorem State.advance_tick (n : Nat) (s : State) : (s.advance n).tick = s.tick + n := rfl
@[simp] theorem State.advance_host (n : Nat) (s : State) : (s.advance n).host = s.host := rfl

@[simp] theorem State.dropWrite_params (s : State) : (s.dropWrite).params = s.params := rfl
@[simp] theorem State.dropWrite_busy (s : State) : (s.dropWrite).busy = s.busy := rfl
@[simp] theorem State.dropWrite_done (s : State) : (s.dropWrite).done = s.done := rfl
@[simp] theorem State.dropWrite_ovr (s : State) : (s.dropWrite).ovr = true := rfl
@[simp] theorem State.dropWrite_err (s : State) : (s.dropWrite).err = s.err := rfl
@[simp] theorem State.dropWrite_doneIe (s : State) : (s.dropWrite).doneIe = s.doneIe := rfl
@[simp] theorem State.dropWrite_srcLen (s : State) : (s.dropWrite).srcLen = s.srcLen := rfl
@[simp] theorem State.dropWrite_dstLen (s : State) : (s.dropWrite).dstLen = s.dstLen := rfl
@[simp] theorem State.dropWrite_result (s : State) : (s.dropWrite).result = s.result := rfl
@[simp] theorem State.dropWrite_echo (s : State) : (s.dropWrite).echo = s.echo := rfl
@[simp] theorem State.dropWrite_counter (s : State) : (s.dropWrite).counter = s.counter := rfl
@[simp] theorem State.dropWrite_devid (s : State) : (s.dropWrite).devid = s.devid := rfl
@[simp] theorem State.dropWrite_macLo (s : State) : (s.dropWrite).macLo = s.macLo := rfl
@[simp] theorem State.dropWrite_macHi (s : State) : (s.dropWrite).macHi = s.macHi := rfl
@[simp] theorem State.dropWrite_key (s : State) : (s.dropWrite).key = s.key := rfl
@[simp] theorem State.dropWrite_iv (s : State) : (s.dropWrite).iv = s.iv := rfl
@[simp] theorem State.dropWrite_cmdLatch (s : State) : (s.dropWrite).cmdLatch = s.cmdLatch := rfl
@[simp] theorem State.dropWrite_src (s : State) : (s.dropWrite).src = s.src := rfl
@[simp] theorem State.dropWrite_dst (s : State) : (s.dropWrite).dst = s.dst := rfl
@[simp] theorem State.dropWrite_tick (s : State) : (s.dropWrite).tick = s.tick := rfl
@[simp] theorem State.dropWrite_host (s : State) : (s.dropWrite).host = s.host := rfl

@[simp] theorem State.storeSrc_params (i : Nat) (bs : List Byte) (s : State) : (s.storeSrc i bs).params = s.params := rfl
@[simp] theorem State.storeSrc_busy (i : Nat) (bs : List Byte) (s : State) : (s.storeSrc i bs).busy = s.busy := rfl
@[simp] theorem State.storeSrc_done (i : Nat) (bs : List Byte) (s : State) : (s.storeSrc i bs).done = s.done := rfl
@[simp] theorem State.storeSrc_ovr (i : Nat) (bs : List Byte) (s : State) : (s.storeSrc i bs).ovr = s.ovr := rfl
@[simp] theorem State.storeSrc_err (i : Nat) (bs : List Byte) (s : State) : (s.storeSrc i bs).err = s.err := rfl
@[simp] theorem State.storeSrc_doneIe (i : Nat) (bs : List Byte) (s : State) : (s.storeSrc i bs).doneIe = s.doneIe := rfl
@[simp] theorem State.storeSrc_srcLen (i : Nat) (bs : List Byte) (s : State) : (s.storeSrc i bs).srcLen = s.srcLen := rfl
@[simp] theorem State.storeSrc_dstLen (i : Nat) (bs : List Byte) (s : State) : (s.storeSrc i bs).dstLen = s.dstLen := rfl
@[simp] theorem State.storeSrc_result (i : Nat) (bs : List Byte) (s : State) : (s.storeSrc i bs).result = s.result := rfl
@[simp] theorem State.storeSrc_echo (i : Nat) (bs : List Byte) (s : State) : (s.storeSrc i bs).echo = s.echo := rfl
@[simp] theorem State.storeSrc_counter (i : Nat) (bs : List Byte) (s : State) : (s.storeSrc i bs).counter = s.counter := rfl
@[simp] theorem State.storeSrc_devid (i : Nat) (bs : List Byte) (s : State) : (s.storeSrc i bs).devid = s.devid := rfl
@[simp] theorem State.storeSrc_macLo (i : Nat) (bs : List Byte) (s : State) : (s.storeSrc i bs).macLo = s.macLo := rfl
@[simp] theorem State.storeSrc_macHi (i : Nat) (bs : List Byte) (s : State) : (s.storeSrc i bs).macHi = s.macHi := rfl
@[simp] theorem State.storeSrc_key (i : Nat) (bs : List Byte) (s : State) : (s.storeSrc i bs).key = s.key := rfl
@[simp] theorem State.storeSrc_iv (i : Nat) (bs : List Byte) (s : State) : (s.storeSrc i bs).iv = s.iv := rfl
@[simp] theorem State.storeSrc_cmdLatch (i : Nat) (bs : List Byte) (s : State) : (s.storeSrc i bs).cmdLatch = s.cmdLatch := rfl
@[simp] theorem State.storeSrc_src (i : Nat) (bs : List Byte) (s : State) : (s.storeSrc i bs).src = s.src.setBytes i bs := rfl
@[simp] theorem State.storeSrc_dst (i : Nat) (bs : List Byte) (s : State) : (s.storeSrc i bs).dst = s.dst := rfl
@[simp] theorem State.storeSrc_tick (i : Nat) (bs : List Byte) (s : State) : (s.storeSrc i bs).tick = s.tick := rfl
@[simp] theorem State.storeSrc_host (i : Nat) (bs : List Byte) (s : State) : (s.storeSrc i bs).host = s.host := rfl

@[simp] theorem State.withHost_params (h : HostSide) (s : State) : (s.withHost h).params = s.params := rfl
@[simp] theorem State.withHost_busy (h : HostSide) (s : State) : (s.withHost h).busy = s.busy := rfl
@[simp] theorem State.withHost_done (h : HostSide) (s : State) : (s.withHost h).done = s.done := rfl
@[simp] theorem State.withHost_ovr (h : HostSide) (s : State) : (s.withHost h).ovr = s.ovr := rfl
@[simp] theorem State.withHost_err (h : HostSide) (s : State) : (s.withHost h).err = s.err := rfl
@[simp] theorem State.withHost_doneIe (h : HostSide) (s : State) : (s.withHost h).doneIe = s.doneIe := rfl
@[simp] theorem State.withHost_srcLen (h : HostSide) (s : State) : (s.withHost h).srcLen = s.srcLen := rfl
@[simp] theorem State.withHost_dstLen (h : HostSide) (s : State) : (s.withHost h).dstLen = s.dstLen := rfl
@[simp] theorem State.withHost_result (h : HostSide) (s : State) : (s.withHost h).result = s.result := rfl
@[simp] theorem State.withHost_echo (h : HostSide) (s : State) : (s.withHost h).echo = s.echo := rfl
@[simp] theorem State.withHost_counter (h : HostSide) (s : State) : (s.withHost h).counter = s.counter := rfl
@[simp] theorem State.withHost_devid (h : HostSide) (s : State) : (s.withHost h).devid = s.devid := rfl
@[simp] theorem State.withHost_macLo (h : HostSide) (s : State) : (s.withHost h).macLo = s.macLo := rfl
@[simp] theorem State.withHost_macHi (h : HostSide) (s : State) : (s.withHost h).macHi = s.macHi := rfl
@[simp] theorem State.withHost_key (h : HostSide) (s : State) : (s.withHost h).key = s.key := rfl
@[simp] theorem State.withHost_iv (h : HostSide) (s : State) : (s.withHost h).iv = s.iv := rfl
@[simp] theorem State.withHost_cmdLatch (h : HostSide) (s : State) : (s.withHost h).cmdLatch = s.cmdLatch := rfl
@[simp] theorem State.withHost_src (h : HostSide) (s : State) : (s.withHost h).src = s.src := rfl
@[simp] theorem State.withHost_dst (h : HostSide) (s : State) : (s.withHost h).dst = s.dst := rfl
@[simp] theorem State.withHost_tick (h : HostSide) (s : State) : (s.withHost h).tick = s.tick := rfl
@[simp] theorem State.withHost_host (h : HostSide) (s : State) : (s.withHost h).host = h := rfl

@[simp] theorem State.issue_params (v : Word) (s : State) : (s.issue v).params = s.params := rfl
@[simp] theorem State.issue_busy (v : Word) (s : State) : (s.issue v).busy = true := rfl
@[simp] theorem State.issue_done (v : Word) (s : State) : (s.issue v).done = false := rfl
@[simp] theorem State.issue_ovr (v : Word) (s : State) : (s.issue v).ovr = s.ovr := rfl
@[simp] theorem State.issue_err (v : Word) (s : State) : (s.issue v).err = s.err := rfl
@[simp] theorem State.issue_doneIe (v : Word) (s : State) : (s.issue v).doneIe = s.doneIe := rfl
@[simp] theorem State.issue_srcLen (v : Word) (s : State) : (s.issue v).srcLen = s.srcLen := rfl
@[simp] theorem State.issue_dstLen (v : Word) (s : State) : (s.issue v).dstLen = s.dstLen := rfl
@[simp] theorem State.issue_result (v : Word) (s : State) : (s.issue v).result = s.result := rfl
@[simp] theorem State.issue_echo (v : Word) (s : State) : (s.issue v).echo = s.echo := rfl
@[simp] theorem State.issue_counter (v : Word) (s : State) : (s.issue v).counter = s.counter := rfl
@[simp] theorem State.issue_devid (v : Word) (s : State) : (s.issue v).devid = s.devid := rfl
@[simp] theorem State.issue_macLo (v : Word) (s : State) : (s.issue v).macLo = s.macLo := rfl
@[simp] theorem State.issue_macHi (v : Word) (s : State) : (s.issue v).macHi = s.macHi := rfl
@[simp] theorem State.issue_key (v : Word) (s : State) : (s.issue v).key = s.key := rfl
@[simp] theorem State.issue_iv (v : Word) (s : State) : (s.issue v).iv = s.iv := rfl
@[simp] theorem State.issue_cmdLatch (v : Word) (s : State) : (s.issue v).cmdLatch = v := rfl
@[simp] theorem State.issue_src (v : Word) (s : State) : (s.issue v).src = s.src := rfl
@[simp] theorem State.issue_dst (v : Word) (s : State) : (s.issue v).dst = s.dst := rfl
@[simp] theorem State.issue_tick (v : Word) (s : State) : (s.issue v).tick = s.tick := rfl
@[simp] theorem State.issue_host (v : Word) (s : State) : (s.issue v).host = s.host := rfl

@[simp] theorem State.clearStatus_params (v : Word) (s : State) : (s.clearStatus v).params = s.params := rfl
@[simp] theorem State.clearStatus_busy (v : Word) (s : State) : (s.clearStatus v).busy = s.busy := rfl
@[simp] theorem State.clearStatus_done (v : Word) (s : State) : (s.clearStatus v).done = (s.done && !v.getLsbD 1) := rfl
@[simp] theorem State.clearStatus_ovr (v : Word) (s : State) : (s.clearStatus v).ovr = (s.ovr && !v.getLsbD 2) := rfl
@[simp] theorem State.clearStatus_err (v : Word) (s : State) : (s.clearStatus v).err = s.err := rfl
@[simp] theorem State.clearStatus_doneIe (v : Word) (s : State) : (s.clearStatus v).doneIe = s.doneIe := rfl
@[simp] theorem State.clearStatus_srcLen (v : Word) (s : State) : (s.clearStatus v).srcLen = s.srcLen := rfl
@[simp] theorem State.clearStatus_dstLen (v : Word) (s : State) : (s.clearStatus v).dstLen = s.dstLen := rfl
@[simp] theorem State.clearStatus_result (v : Word) (s : State) : (s.clearStatus v).result = s.result := rfl
@[simp] theorem State.clearStatus_echo (v : Word) (s : State) : (s.clearStatus v).echo = s.echo := rfl
@[simp] theorem State.clearStatus_counter (v : Word) (s : State) : (s.clearStatus v).counter = s.counter := rfl
@[simp] theorem State.clearStatus_devid (v : Word) (s : State) : (s.clearStatus v).devid = s.devid := rfl
@[simp] theorem State.clearStatus_macLo (v : Word) (s : State) : (s.clearStatus v).macLo = s.macLo := rfl
@[simp] theorem State.clearStatus_macHi (v : Word) (s : State) : (s.clearStatus v).macHi = s.macHi := rfl
@[simp] theorem State.clearStatus_key (v : Word) (s : State) : (s.clearStatus v).key = s.key := rfl
@[simp] theorem State.clearStatus_iv (v : Word) (s : State) : (s.clearStatus v).iv = s.iv := rfl
@[simp] theorem State.clearStatus_cmdLatch (v : Word) (s : State) : (s.clearStatus v).cmdLatch = s.cmdLatch := rfl
@[simp] theorem State.clearStatus_src (v : Word) (s : State) : (s.clearStatus v).src = s.src := rfl
@[simp] theorem State.clearStatus_dst (v : Word) (s : State) : (s.clearStatus v).dst = s.dst := rfl
@[simp] theorem State.clearStatus_tick (v : Word) (s : State) : (s.clearStatus v).tick = s.tick := rfl
@[simp] theorem State.clearStatus_host (v : Word) (s : State) : (s.clearStatus v).host = s.host := rfl

end Sys2Proof.Machine
end

