-- ==== Sys2Proof/Laws/Ops.lean ====
section
/-! SUPPORT. What a command can do, said once: the verdict of each rule, the two commits, and one inversion lemma for exec. -/

namespace Sys2Proof.Machine

@[simp] theorem State.advance_zero (s : State) : s.advance 0 = s := rfl

@[simp] theorem settle_finish (w : Staged) (s : State) : settle (.finish w) s = s.commit w := rfl

@[simp] theorem settle_raise (e : Err) (s : State) : settle (.raise e) s = s.fail e := rfl

/-- Every commit ends the command (30_encoding.md R97; 60_exceptions.md R243). -/
theorem settle_ends (v : Verdict) (s : State) : (settle v s).done = true ∧ (settle v s).busy = false := by
  cases v <;> simp

/-- A command that reads SRC: the LEN check, then the rule (R99). -/
theorem runOnInput_of_le {rule : State → List Byte → Verdict} {s : State} (h : s.inputLen ≤ s.params.bufBytes) :
    runOnInput rule s = settle (rule s s.input) (s.advance s.inputLen) := by
  rw [runOnInput, if_neg (by omega)]

theorem runOnInput_of_gt {rule : State → List Byte → Verdict} {s : State} (h : s.params.bufBytes < s.inputLen) :
    runOnInput rule s = s.fail .len := by
  rw [runOnInput, if_pos h]

/-- A raised error has a code from 1 to 7 (R240). -/
theorem Err.code_range (e : Err) : 1 ≤ e.code.toNat ∧ e.code.toNat ≤ 7 := by
  cases e <;> simp [Err.code]

theorem Err.code_ne_zero (e : Err) : e.code ≠ 0 := by
  cases e <;> simp [Err.code]

/-- What the staged writes of a command may be (10_state.md R27, R30, R31, R33, R34). -/
structure StagedBy (i : Instr) (s : State) (w : Staged) : Prop where
  key : i ≠ .loadDefaults → w.key = none
  iv : i ≠ .loadDefaults → w.iv = none
  echo : i ≠ .frameDecode → w.echo = none
  counter : (∀ c v, i ≠ .frameEncode c v) → w.counter = none
  counterUp : ∀ c v, i = .frameEncode c v → w.counter = some (s.counter + 1)
  out : writesDst i = false → w.out = none
  outSome : writesDst i = true → ∃ bs, w.out = some bs ∧ (s.params.wf = true → bs.length ≤ s.params.bufBytes)
  result : readsSrc i = true → w.result.isSome = true
  resultKept : readsSrc i = false → w.result = none

theorem hdrTemplate_length {s : State} (h : s.params.wf = true) : s.params.hdrTemplate.length = 0x38 := by
  simp only [Params.wf, Config.hdrLen, Bool.and_eq_true, beq_iff_eq, decide_eq_true_eq] at h
  exact h.1.2

theorem bufBytes_le {p : Params} (h : p.wf = true) : p.bufBytes ≤ 0x1000 := by
  simp only [Params.wf, Bool.and_eq_true, decide_eq_true_eq] at h
  exact h.1.1.2

theorem bufBytes_mod {p : Params} (h : p.wf = true) : p.bufBytes % 16 = 0 := by
  simp only [Params.wf, Bool.and_eq_true, beq_iff_eq, decide_eq_true_eq] at h
  exact h.1.1.1.1

theorem errOffset_le {p : Params} (h : p.wf = true) : p.errOffset + 2 ≤ 0x38 := by
  simp only [Params.wf, Config.hdrLen, Bool.and_eq_true, beq_iff_eq] at h
  exact of_decide_eq_true h.2

/-- The header keeps the template's length. -/
theorem frameHeader_length {s : State} (h : s.params.hdrTemplate.length = 0x38) (code ver : Byte) (pt : List Byte) :
    (frameHeader s code ver pt).length = 0x38 := by
  unfold frameHeader
  refine putAt_length_eq (putAt_length_eq (putAt_length_eq (putAt_length_eq (putAt_length_eq (putAt_length_eq
    (putAt_length_eq h ?_) ?_) ?_) ?_) ?_) ?_) ?_ <;> simp

@[simp] theorem paddedPayload_length (src : List Byte) : (paddedPayload src).length = pad16 src.length := by
  have := le_pad16 src.length
  simp [paddedPayload]
  omega

theorem framePacket0_length {s : State} (h : s.params.hdrTemplate.length = 0x38) (code ver : Byte) (src : List Byte) :
    (framePacket0 s code ver (paddedPayload src)).length = 0x38 + pad16 src.length := by
  rw [framePacket0, List.length_append, frameHeader_length h, cbcEnc_length, paddedPayload_length]
  rw [paddedPayload_length]
  exact pad16_mod _

/-- What an output of FRAME_ENCODE is. -/
theorem ruleFrameEncode_cases (code ver : Byte) (s : State) (src : List Byte) :
    ruleFrameEncode code ver s src = .raise .len ∨
    (0x38 + pad16 src.length ≤ s.params.bufBytes ∧
      ruleFrameEncode code ver s src = .finish
        { result := some (csum (framePacket0 s code ver (paddedPayload src)))
          out := some (putAt (framePacket0 s code ver (paddedPayload src)) 0x20
            (le16 (csum (framePacket0 s code ver (paddedPayload src)))))
          counter := some (s.counter + 1) }) := by
  unfold ruleFrameEncode Config.hdrLen
  split
  · exact .inl rfl
  · exact .inr ⟨by omega, rfl⟩

theorem ruleFrameDecode_eq (s : State) (src : List Byte) :
    ruleFrameDecode s src =
      if src.length < 0x38 then .raise .trunc
      else if rdLE16 src s.params.errOffset ≠ 0 then .raise (.device (rdLE16 src s.params.errOffset))
      else if src.length - 0x38 = 0 ∨ (src.length - 0x38) % 16 ≠ 0 then .raise .malformed
      else .finish
        { result := some 0
          out := some ((cbcDec s.key s.iv (src.drop 0x38)).drop 4)
          echo := some (bytesWord ((cbcDec s.key s.iv (src.drop 0x38)).take 4)) } := rfl

/-- What FRAME_DECODE can end in, in its check order (40_framer.md R128). -/
theorem ruleFrameDecode_cases (s : State) (src : List Byte) :
    ruleFrameDecode s src = .raise .trunc ∨
    (∃ e, e ≠ 0 ∧ ruleFrameDecode s src = .raise (.device e)) ∨
    ruleFrameDecode s src = .raise .malformed ∨
    (0x38 < src.length ∧ (src.length - 0x38) % 16 = 0 ∧ ruleFrameDecode s src = .finish
        { result := some 0
          out := some ((cbcDec s.key s.iv (src.drop 0x38)).drop 4)
          echo := some (bytesWord ((cbcDec s.key s.iv (src.drop 0x38)).take 4)) }) := by
  rw [ruleFrameDecode_eq]
  split
  · exact .inl rfl
  · split
    · rename_i h
      exact .inr (.inl ⟨_, h, rfl⟩)
    · split
      · exact .inr (.inr (.inl rfl))
      · exact .inr (.inr (.inr ⟨by omega, by omega, rfl⟩))

theorem ruleHframeCheck_eq (s : State) (src : List Byte) :
    ruleHframeCheck s src =
      if src.length < 4 then .raise .malformed
      else if (rdLE16 src 0).toNat < 2 ∨ src.length < (rdLE16 src 0).toNat + 2 then .raise .malformed
      else if crc16 ((src.drop 2).take ((rdLE16 src 0).toNat - 2)) ≠ rdLE16 src (rdLE16 src 0).toNat then
        .raise (.crc (crc16 ((src.drop 2).take ((rdLE16 src 0).toNat - 2))))
      else .finish
        { result := some (crc16 ((src.drop 2).take ((rdLE16 src 0).toNat - 2)))
          out := some ((src.drop 2).take ((rdLE16 src 0).toNat - 2)) } := rfl

/-- What HFRAME_CHECK can end in (42_crc.md R205). -/
theorem ruleHframeCheck_cases (s : State) (src : List Byte) :
    ruleHframeCheck s src = .raise .malformed ∨
    (∃ c, ruleHframeCheck s src = .raise (.crc c)) ∨
    (∃ q : List Byte, q.length ≤ src.length ∧
      ruleHframeCheck s src = .finish { result := some (crc16 q), out := some q }) := by
  rw [ruleHframeCheck_eq]
  split
  · exact .inl rfl
  · split
    · exact .inl rfl
    · split
      · exact .inr (.inl ⟨_, rfl⟩)
      · exact .inr (.inr ⟨_, by simp, rfl⟩)

/-- A command that reads SRC ends in a commit after its read, or in LEN without one. -/
theorem runOnInput_cases (rule : State → List Byte → Verdict) (s : State) :
    (s.params.bufBytes < s.inputLen ∧ runOnInput rule s = s.fail .len) ∨
    (s.inputLen ≤ s.params.bufBytes ∧ runOnInput rule s = settle (rule s s.input) (s.advance s.inputLen)) := by
  by_cases h : s.params.bufBytes < s.inputLen
  · exact .inl ⟨h, runOnInput_of_gt h⟩
  · exact .inr ⟨by omega, runOnInput_of_le (by omega)⟩

/-- How a command can end: its own staged writes, or one of its own errors (60_exceptions.md R241). -/
inductive EndsIn (i : Instr) (s : State) : State → Prop where
  | success (n : Nat) (w : Staged) (hw : StagedBy i s w) : EndsIn i s ((s.advance n).commit w)
  | error (n : Nat) (e : Err) (he : e.code ∈ codesOf i) : EndsIn i s ((s.advance n).fail e)

theorem endsIn_runOnInput {i : Instr} {s : State} {rule : State → List Byte → Verdict}
    (hlen : Err.len.code ∈ codesOf i)
    (h : s.inputLen ≤ s.params.bufBytes →
      (∃ w, rule s s.input = .finish w ∧ StagedBy i s w) ∨ (∃ e, rule s s.input = .raise e ∧ e.code ∈ codesOf i)) :
    EndsIn i s (runOnInput rule s) := by
  rcases runOnInput_cases rule s with ⟨-, heq⟩ | ⟨hle, heq⟩
  · rw [heq]
    exact .error 0 .len hlen
  · rw [heq]
    rcases h hle with ⟨w, hv, hw⟩ | ⟨e, hv, he⟩
    · rw [hv]
      exact .success _ w hw
    · rw [hv]
      exact .error _ e he

/-- The inversion lemma of exec: every command answers a next state, and that state is one of its commits. -/
theorem exec_endsIn (i : Instr) (s : State) : ∃ t, exec i s = .next t ∧ EndsIn i s t := by
  cases i with
  | nop => exact ⟨_, rfl, .success 0 { } (by constructor <;> simp [readsSrc, writesDst])⟩
  | loadDefaults => exact ⟨_, rfl, .success 0 _ (by constructor <;> simp [readsSrc, writesDst])⟩
  | csum =>
    refine ⟨_, rfl, endsIn_runOnInput (by decide) fun _ => .inl ⟨_, rfl, ?_⟩⟩
    constructor <;> simp [readsSrc, writesDst]
  | crc16 =>
    refine ⟨_, rfl, endsIn_runOnInput (by decide) fun _ => .inl ⟨_, rfl, ?_⟩⟩
    constructor <;> simp [readsSrc, writesDst]
  | frameEncode code ver =>
    refine ⟨_, rfl, endsIn_runOnInput (by simp [Err.code, codesOf]) fun _ => ?_⟩
    rcases ruleFrameEncode_cases code ver s s.input with h | ⟨hfit, h⟩
    · exact .inr ⟨_, h, by simp [Err.code, codesOf]⟩
    · refine .inl ⟨_, h, ?_⟩
      constructor <;> simp [readsSrc, writesDst]
      intro hp
      have hl := framePacket0_length (hdrTemplate_length hp) code ver s.input
      rw [putAt_length (by simp [hl]; omega), hl]
      exact hfit
  | frameDecode =>
    refine ⟨_, rfl, endsIn_runOnInput (by decide) fun hle => ?_⟩
    rcases ruleFrameDecode_cases s s.input with h | ⟨e, -, h⟩ | h | ⟨h1, h2, h⟩
    · exact .inr ⟨_, h, by simp [Err.code, codesOf]⟩
    · exact .inr ⟨_, h, by simp [Err.code, codesOf]⟩
    · exact .inr ⟨_, h, by simp [Err.code, codesOf]⟩
    · refine .inl ⟨_, h, ?_⟩
      constructor <;> simp [readsSrc, writesDst]
      rw [cbcDec_length _ _ (by simpa using h2)]
      simp
      omega
  | aesCbcEnc =>
    refine ⟨_, rfl, endsIn_runOnInput (by decide) fun hle => ?_⟩
    unfold ruleAesCbcEnc
    split
    · exact .inr ⟨_, rfl, by simp [Err.code, codesOf]⟩
    · rename_i h
      refine .inl ⟨_, rfl, ?_⟩
      constructor <;> simp [readsSrc, writesDst]
      rw [cbcEnc_length _ _ (by simpa using h)]
      simp
      omega
  | aesCbcDec =>
    refine ⟨_, rfl, endsIn_runOnInput (by decide) fun hle => ?_⟩
    unfold ruleAesCbcDec
    split
    · exact .inr ⟨_, rfl, by simp [Err.code, codesOf]⟩
    · rename_i h
      refine .inl ⟨_, rfl, ?_⟩
      constructor <;> simp [readsSrc, writesDst]
      rw [cbcDec_length _ _ (by simpa using h)]
      simp
      omega
  | hframeWrap =>
    refine ⟨_, rfl, endsIn_runOnInput (by decide) fun _ => ?_⟩
    unfold ruleHframeWrap
    split
    · exact .inr ⟨_, rfl, by simp [Err.code, codesOf]⟩
    · rename_i h
      refine .inl ⟨_, rfl, ?_⟩
      constructor <;> simp [readsSrc, writesDst, hysenFrame]
      simp at h
      omega
  | hframeCheck =>
    refine ⟨_, rfl, endsIn_runOnInput (by decide) fun hle => ?_⟩
    rcases ruleHframeCheck_cases s s.input with h | ⟨c, h⟩ | ⟨q, hq, h⟩
    · exact .inr ⟨_, h, by simp [Err.code, codesOf]⟩
    · exact .inr ⟨_, h, by simp [Err.code, codesOf]⟩
    · refine .inl ⟨_, h, ?_⟩
      constructor <;> simp [readsSrc, writesDst]
      simp at hq
      omega

/-- The form later proofs use: from `exec i s = next t`, how the command ended. -/
theorem endsIn_of_exec {i : Instr} {s t : State} (h : exec i s = .next t) : EndsIn i s t := by
  obtain ⟨u, hu, he⟩ := exec_endsIn i s
  rw [h] at hu
  cases hu
  exact he

end Sys2Proof.Machine
end

