-- ==== Sys2Proof/Laws/Bus.lean ====
section
/-! SUPPORT. What a host access can do, said once. -/

namespace Sys2Proof.Machine

/-- The state fields a host access never writes: only a commit, the reset input and the engine's own reads change them. -/
structure HostFrame (s t : State) : Prop where
  params : t.params = s.params
  err : t.err = s.err
  dstLen : t.dstLen = s.dstLen
  result : t.result = s.result
  echo : t.echo = s.echo
  dst : t.dst = s.dst

theorem HostFrame.refl (s : State) : HostFrame s s := ⟨rfl, rfl, rfl, rfl, rfl, rfl⟩

theorem HostFrame.trans {s t u : State} (h : HostFrame s t) (k : HostFrame t u) : HostFrame s u :=
  ⟨k.1.trans h.1, k.2.trans h.2, k.3.trans h.3, k.4.trans h.4, k.5.trans h.5, k.6.trans h.6⟩

/-- The fields that a host access leaves alone while a command is in flight (10_state.md R41; 20_memory.md R76). -/
structure BusyFrame (s t : State) : Prop extends HostFrame s t where
  busy : t.busy = s.busy
  srcLen : t.srcLen = s.srcLen
  counter : t.counter = s.counter
  devid : t.devid = s.devid
  macLo : t.macLo = s.macLo
  macHi : t.macHi = s.macHi
  key : t.key = s.key
  iv : t.iv = s.iv
  cmdLatch : t.cmdLatch = s.cmdLatch
  src : t.src = s.src

theorem BusyFrame.refl (s : State) : BusyFrame s s :=
  { HostFrame.refl s with
    busy := rfl, srcLen := rfl, counter := rfl, devid := rfl, macLo := rfl, macHi := rfl, key := rfl, iv := rfl,
    cmdLatch := rfl, src := rfl }

theorem BusyFrame.trans {s t u : State} (h : BusyFrame s t) (k : BusyFrame t u) : BusyFrame s u :=
  { h.toHostFrame.trans k.toHostFrame with
    busy := k.busy.trans h.busy, srcLen := k.srcLen.trans h.srcLen, counter := k.counter.trans h.counter,
    devid := k.devid.trans h.devid, macLo := k.macLo.trans h.macLo, macHi := k.macHi.trans h.macHi,
    key := k.key.trans h.key, iv := k.iv.trans h.iv, cmdLatch := k.cmdLatch.trans h.cmdLatch,
    src := k.src.trans h.src }

/-- A performed register write keeps what no host access writes. -/
theorem writeReg_frame (s : State) (r : Reg) (v : Word) : HostFrame s (writeReg s r v) := by
  cases r <;> exact ⟨rfl, rfl, rfl, rfl, rfl, rfl⟩

/-- A write of a register that is not guarded leaves a command in flight alone. -/
theorem writeReg_busyFrame (s : State) {r : Reg} (v : Word) (h : r.guarded = false) :
    BusyFrame s (writeReg s r v) := by
  cases r <;> simp_all only [Reg.guarded, Bool.true_eq_false] <;>
    exact ⟨⟨rfl, rfl, rfl, rfl, rfl, rfl⟩, rfl, rfl, rfl, rfl, rfl, rfl, rfl, rfl, rfl, rfl⟩

/-- MemWrite keeps what no host access writes. -/
theorem memWrite_frame (s : State) (a : Offset) (v : Word) : HostFrame s (memWrite s a v) := by
  unfold memWrite
  split
  · split
    · exact ⟨rfl, rfl, rfl, rfl, rfl, rfl⟩
    · exact writeReg_frame s _ v
  · split <;> exact ⟨rfl, rfl, rfl, rfl, rfl, rfl⟩
  · exact .refl s
  · exact .refl s

/-- MemWrite leaves a command in flight alone. -/
theorem memWrite_busyFrame {s : State} (a : Offset) (v : Word) (h : s.busy = true) :
    BusyFrame s (memWrite s a v) := by
  unfold memWrite
  rw [h]
  split
  · split
    · exact ⟨⟨rfl, rfl, rfl, rfl, rfl, rfl⟩, rfl, rfl, rfl, rfl, rfl, rfl, rfl, rfl, rfl, rfl⟩
    · rename_i r hr
      exact writeReg_busyFrame s v (by simpa using hr)
  · exact ⟨⟨rfl, rfl, rfl, rfl, rfl, rfl⟩, rfl, rfl, rfl, rfl, rfl, rfl, rfl, rfl, rfl, rfl⟩
  · exact .refl s
  · exact .refl s

/-- An access that goes to SRC goes to a backed word of it. -/
theorem locate_src {p : Params} {a : Offset} {i : Nat} (h : locate p a = .src i) :
    i < p.bufBytes ∧ i % 4 = 0 ∧ wordOffset a = 0x1000 + i ∧ i < 0x1000 := by
  have hw : wordOffset a % 4 = 0 := by unfold wordOffset; omega
  simp only [locate] at h
  by_cases h1 : wordOffset a < 0x1000
  · simp only [h1, if_true] at h
    cases hr : regAt (wordOffset a) <;> simp [hr] at h
  · simp only [h1, if_false] at h
    by_cases h2 : wordOffset a < 0x2000
    · simp only [h2, if_true] at h
      by_cases h3 : wordOffset a - 0x1000 < p.bufBytes
      · simp only [h3, if_true] at h
        simp only [Loc.src.injEq] at h
        exact ⟨by omega, by omega, by omega, by omega⟩
      · simp only [h3, if_false] at h
        cases h
    · simp only [h2, if_false] at h
      split at h
      · split at h <;> cases h
      · cases h

/-- What the host's own bookkeeping changes. -/
theorem hostReads_busyFrame (s : State) (w : Word) (r : List HostOp) : BusyFrame s (hostReads s w r) :=
  ⟨⟨rfl, rfl, rfl, rfl, rfl, rfl⟩, rfl, rfl, rfl, rfl, rfl, rfl, rfl, rfl, rfl, rfl⟩

theorem withHost_busyFrame (s : State) (h : HostSide) : BusyFrame s (s.withHost h) :=
  ⟨⟨rfl, rfl, rfl, rfl, rfl, rfl⟩, rfl, rfl, rfl, rfl, rfl, rfl, rfl, rfl, rfl, rfl⟩

theorem startCollect_reads (s : State) (copy : Bool) (r : List HostOp) :
    startCollect s copy r = (s.withHost (startCollect s copy r).host).advance 4 := by
  unfold startCollect
  simp only
  split <;> rfl

theorem collectWord_reads (s : State) (m j : Nat) (copy : Bool) (r : List HostOp) :
    collectWord s m j copy r = (s.withHost (collectWord s m j copy r).host).advance 4 := by
  unfold collectWord
  simp only
  split <;> rfl

/-- How a host turn can go: a MemWrite, or a read or nothing, which changes the host agent and the count of reads only. -/
theorem hostTurn_cases (s : State) :
    (∃ a v r, s.host.prog = .wr a v :: r ∧ hostTurn s = (memWrite s a v).withHost { s.host with prog := r }) ∨
    (∃ h n, hostTurn s = (s.withHost h).advance n) := by
  unfold hostTurn
  split
  · exact .inr ⟨s.host, 0, rfl⟩
  · exact .inr ⟨_, 4, rfl⟩
  · rename_i a v r hp
    exact .inl ⟨a, v, r, hp, rfl⟩
  · exact .inr ⟨_, 4, rfl⟩
  · exact .inr ⟨_, 4, startCollect_reads s _ _⟩
  · exact .inr ⟨_, 4, startCollect_reads s _ _⟩
  · exact .inr ⟨_, 4, collectWord_reads s _ _ _ _⟩

theorem advance_withHost_busyFrame (s : State) (h : HostSide) (n : Nat) : BusyFrame s ((s.withHost h).advance n) :=
  ⟨⟨rfl, rfl, rfl, rfl, rfl, rfl⟩, rfl, rfl, rfl, rfl, rfl, rfl, rfl, rfl, rfl, rfl⟩

/-- A host turn keeps what no host access writes. -/
theorem hostTurn_frame (s : State) : HostFrame s (hostTurn s) := by
  rcases hostTurn_cases s with ⟨a, v, r, -, h⟩ | ⟨h', n, h⟩ <;> rw [h]
  · exact (memWrite_frame s a v).trans (withHost_busyFrame _ _).toHostFrame
  · exact (advance_withHost_busyFrame s h' n).toHostFrame

/-- A host turn leaves a command in flight alone. -/
theorem hostTurn_busyFrame {s : State} (hb : s.busy = true) : BusyFrame s (hostTurn s) := by
  rcases hostTurn_cases s with ⟨a, v, r, -, h⟩ | ⟨h', n, h⟩ <;> rw [h]
  · exact (memWrite_busyFrame a v hb).trans (withHost_busyFrame _ _)
  · exact advance_withHost_busyFrame s h' n

end Sys2Proof.Machine
end

