-- ==== Sys2Proof/Laws/PerInstr.lean ====
section
/-! SUPPORT. Per-instruction laws: the command word of each command carries its opcode and a zero RSVD field. -/

namespace Sys2Proof.Laws

/-- The word of FRAME_ENCODE, field by field (30_encoding.md R91). -/
theorem encode_frameEncode (code ver : Byte) :
    encode (.frameEncode code ver) = 0#8 ++ ver ++ code ++ 0x11#8 := by
  have h : encode (.frameEncode code ver) =
      (0x11#8).setWidth 32 ||| code.setWidth 32 <<< 8 ||| ver.setWidth 32 <<< 16 := rfl
  rw [h]
  refine BitVec.eq_of_getLsbD_eq fun k hk => ?_
  simp only [BitVec.getLsbD_or, BitVec.getLsbD_setWidth, BitVec.getLsbD_shiftLeft, BitVec.getLsbD_append]
  have h1 : ∀ k, 8 ≤ k → (0x11#8).getLsbD k = false := fun k hk => BitVec.getLsbD_of_ge _ _ hk
  have h2 : ∀ k, 8 ≤ k → code.getLsbD k = false := fun k hk => BitVec.getLsbD_of_ge _ _ hk
  have h3 : ∀ k, 8 ≤ k → ver.getLsbD k = false := fun k hk => BitVec.getLsbD_of_ge _ _ hk
  grind

/-- OP and RSVD of a command's word: OP is the opcode of 30_encoding.md R93 and RSVD is zero (R91, R102). -/
def WordFields.opcode : Instr → Byte
  | .nop => 0x00
  | .loadDefaults => 0x01
  | .csum => 0x10
  | .frameEncode _ _ => 0x11
  | .frameDecode => 0x12
  | .aesCbcEnc => 0x20
  | .aesCbcDec => 0x21
  | .crc16 => 0x30
  | .hframeWrap => 0x31
  | .hframeCheck => 0x32

def WordFields.Statement (i : Instr) : Prop :=
  i.wf = true ∧ opOf (encode i) = WordFields.opcode i ∧ rsvdOf (encode i) = 0

theorem WordFields.nop : WordFields.Statement .nop := by unfold WordFields.Statement; decide
theorem WordFields.loadDefaults : WordFields.Statement .loadDefaults := by unfold WordFields.Statement; decide
theorem WordFields.csum : WordFields.Statement .csum := by unfold WordFields.Statement; decide
theorem WordFields.frameEncode (code ver : Byte) : WordFields.Statement (.frameEncode code ver) := by
  refine ⟨rfl, ?_, ?_⟩
  · rw [encode_frameEncode, opOf]
    refine BitVec.eq_of_getLsbD_eq fun k hk => ?_
    simp only [BitVec.getLsbD_append, BitVec.getLsbD_extractLsb']
    grind [WordFields.opcode]
  · rw [encode_frameEncode, rsvdOf]
    refine BitVec.eq_of_getLsbD_eq fun k hk => ?_
    simp only [BitVec.getLsbD_append, BitVec.getLsbD_extractLsb']
    grind
theorem WordFields.frameDecode : WordFields.Statement .frameDecode := by unfold WordFields.Statement; decide
theorem WordFields.aesCbcEnc : WordFields.Statement .aesCbcEnc := by unfold WordFields.Statement; decide
theorem WordFields.aesCbcDec : WordFields.Statement .aesCbcDec := by unfold WordFields.Statement; decide
theorem WordFields.crc16 : WordFields.Statement .crc16 := by unfold WordFields.Statement; decide
theorem WordFields.hframeWrap : WordFields.Statement .hframeWrap := by unfold WordFields.Statement; decide
theorem WordFields.hframeCheck : WordFields.Statement .hframeCheck := by unfold WordFields.Statement; decide

end Sys2Proof.Laws
end

