-- ==== Sys2Proof/Laws/Decode.lean ====
section
/-! SUPPORT. The decoder said once: as a chain of comparisons, and in terms of the four fields of the word. -/

namespace Sys2Proof

/-- What the decoder answers when the rows `rs` are left to look at. -/
def decodeRows (rs : List OpRow) (w : Word) : Except Illegal Instr :=
  match rs.find? (fun r => r.selects w) with
  | some r => .ok (r.build (arg0Of w) (arg1Of w))
  | none => .error (illegalReason w)

theorem decodeRows_cons (r : OpRow) (rs : List OpRow) (w : Word) :
    decodeRows (r :: rs) w =
      if w &&& r.mask = r.pat then .ok (r.build (arg0Of w) (arg1Of w)) else decodeRows rs w := by
  unfold decodeRows
  by_cases h : w &&& r.mask = r.pat <;> simp [OpRow.selects, h]

theorem and_ones (w : Word) : w &&& 0xFFFFFFFF = w := BitVec.and_allOnes

/-- The decoder as a chain of comparisons (30_encoding.md R93). -/
theorem decode_eq (w : Word) : decode w =
    if w = 0x00 then .ok .nop
    else if w = 0x01 then .ok .loadDefaults
    else if w = 0x10 then .ok .csum
    else if w &&& 0xFF0000FF = 0x11 then .ok (.frameEncode (arg0Of w) (arg1Of w))
    else if w = 0x12 then .ok .frameDecode
    else if w = 0x20 then .ok .aesCbcEnc
    else if w = 0x21 then .ok .aesCbcDec
    else if w = 0x30 then .ok .crc16
    else if w = 0x31 then .ok .hframeWrap
    else if w = 0x32 then .ok .hframeCheck
    else .error (illegalReason w) := by
  have h : decode w = decodeRows opcodeRows w := rfl
  rw [h]
  simp only [opcodeRows, rowF0, decodeRows_cons, and_ones]
  rfl

/-- A word is its four fields. -/
theorem word_eq_fields (w : Word) : w = rsvdOf w ++ arg1Of w ++ arg0Of w ++ opOf w := by
  refine BitVec.eq_of_getLsbD_eq fun i hi => ?_
  simp only [rsvdOf, arg1Of, arg0Of, opOf, BitVec.getLsbD_append, BitVec.getLsbD_extractLsb']
  grind

/-- Two words are equal when their fields are (R91). -/
theorem eq_fields_iff (w : Word) (rsvd arg1 arg0 op : Byte) :
    w = rsvd ++ arg1 ++ arg0 ++ op ↔ opOf w = op ∧ arg0Of w = arg0 ∧ arg1Of w = arg1 ∧ rsvdOf w = rsvd := by
  constructor
  · rintro rfl
    refine ⟨?_, ?_, ?_, ?_⟩ <;>
    · refine BitVec.eq_of_getLsbD_eq fun i hi => ?_
      simp only [rsvdOf, arg1Of, arg0Of, opOf, BitVec.getLsbD_append, BitVec.getLsbD_extractLsb']
      grind
  · rintro ⟨rfl, rfl, rfl, rfl⟩
    exact word_eq_fields w

/-- The mask of the FE row looks at RSVD and OP (R93). -/
theorem selects_frameEncode_iff (w : Word) : w &&& 0xFF0000FF = 0x11 ↔ rsvdOf w = 0 ∧ opOf w = 0x11 := by
  have hm : w &&& 0xFF0000FF = rsvdOf w ++ 0#8 ++ 0#8 ++ opOf w := by
    have ones : ∀ x : Byte, x &&& 0xFF#8 = x := fun x => BitVec.and_allOnes
    conv_lhs => rw [word_eq_fields w, show (0xFF0000FF : Word) = 0xFF#8 ++ 0#8 ++ 0#8 ++ 0xFF#8 by decide]
    rw [BitVec.and_append, BitVec.and_append, BitVec.and_append]
    simp [ones]
  rw [hm, show (0x11 : Word) = 0#8 ++ 0#8 ++ 0#8 ++ 0x11#8 by decide, eq_fields_iff]
  have h := (eq_fields_iff (rsvdOf w ++ 0#8 ++ 0#8 ++ opOf w) _ _ _ _).1 rfl
  rw [h.1, h.2.1, h.2.2.1, h.2.2.2]
  simp [and_comm]

end Sys2Proof
end

