-- ==== Sys2Proof/Laws/Step.lean ====
section
/-! SUPPORT. What a step can do, said once. -/

namespace Sys2Proof.Machine

/-- The engine's step is the decoded command's meaning. -/
theorem engineStep_of_decode {s : State} {i : Instr} (h : decode s.cmdLatch = .ok i) : engineStep s = exec i s := by
  simp [engineStep, h]

theorem engineStep_of_illegal {s : State} {e : Illegal} (h : decode s.cmdLatch = .error e) :
    engineStep s = .next (s.fail .illegal) := by
  simp [engineStep, h, execIllegal]

/-- How the engine's step can end: a command's commit, or ILLEGAL. -/
theorem engineStep_cases (s : State) :
    (∃ i t, decode s.cmdLatch = .ok i ∧ engineStep s = .next t ∧ exec i s = .next t ∧ EndsIn i s t) ∨
    (∃ e, decode s.cmdLatch = .error e ∧ engineStep s = .next (s.fail .illegal)) := by
  cases hd : decode s.cmdLatch with
  | ok i =>
    obtain ⟨t, ht, he⟩ := exec_endsIn i s
    exact .inl ⟨i, t, rfl, by rw [engineStep_of_decode hd, ht], ht, he⟩
  | error e => exact .inr ⟨e, rfl, engineStep_of_illegal hd⟩

/-- A schedule that moves on changes the host agent only. -/
theorem popSched_eq (s : State) : popSched s = s.withHost { s.host with sched := s.host.sched.tail } := by
  unfold popSched
  cases h : s.host.sched with
  | nil =>
    change s = s.withHost { s.host with sched := [] }
    rw [← h]
    rfl
  | cons t r => rfl

/-- How a step can go: the engine commits or idles, the host makes an access, or the reset input is asserted. -/
theorem step_cases (s : State) :
    (nextTurn s = .engine ∧ s.busy = true ∧ step s = engineStep (popSched s)) ∨
    (nextTurn s = .engine ∧ s.busy = false ∧ step s = .next (popSched s)) ∨
    (nextTurn s = .host ∧ step s = .next (hostTurn (popSched s))) ∨
    (nextTurn s = .reset ∧ step s = .next (resetTurn (popSched s))) := by
  have hb : (popSched s).busy = s.busy := by rw [popSched_eq]; rfl
  cases ht : nextTurn s with
  | engine =>
    cases h : s.busy with
    | true => exact .inl ⟨rfl, rfl, by simp [step, ht, takeTurn, engineTurn, hb, h]⟩
    | false => exact .inr (.inl ⟨rfl, rfl, by simp [step, ht, takeTurn, engineTurn, hb, h]⟩)
  | host => exact .inr (.inr (.inl ⟨rfl, by simp [step, ht, takeTurn]⟩))
  | reset => exact .inr (.inr (.inr ⟨rfl, by simp [step, ht, takeTurn]⟩))

end Sys2Proof.Machine
end

