-- ==== Sys2Proof/Tests/Slice0.lean ====
section
/-! SUPPORT. Tests from spec/95_test_vectors.md (each theorem names its vector), and witnesses that meet the hypotheses of the
statements. -/

namespace Sys2Proof.Tests

set_option Elab.async false

open Sys2Proof Sys2Proof.Machine

/-! ### Helpers -/

/-- The first block of a byte list. -/
def blockOf (bs : List Byte) : Block := (blocksOf bs).headD default

/-- The key `01 02 .. 10` of the test vectors. -/
def keyT : Block := blockOf [1, 2, 3, 4, 5, 6, 7, 8, 9, 10, 11, 12, 13, 14, 15, 16]

/-- The key `00 01 .. 0f`. -/
def keyC1 : Block := blockOf [0, 1, 2, 3, 4, 5, 6, 7, 8, 9, 10, 11, 12, 13, 14, 15]

/-- The key of vectors A3 and A5. -/
def keyF2 : Block :=
  blockOf [0x2b, 0x7e, 0x15, 0x16, 0x28, 0xae, 0xd2, 0xa6, 0xab, 0xf7, 0x15, 0x88, 0x09, 0xcf, 0x4f, 0x3c]

def ivZ : Block := blockOf (List.replicate 16 0)

/-- The magic of the template T_M. -/
def magicM : List Byte := [0x5a, 0xa5, 0xaa, 0x55, 0x5a, 0xa5, 0xaa, 0x55]

def templateM : List Byte := magicM ++ List.replicate 0x30 0

/-- The parameters of the test vectors. -/
def paramsT : Params := ⟨0x1000, keyC1, ivZ, templateM, 0x22⟩

/-- The common settings of the test vectors, with `bs` in SRC. -/
def start (bs : List Byte) : State :=
  { State.resetOf paramsT with
    key := keyT, macLo := 0xddccbbaa, macHi := 0xffee, devid := 0x04030201
    srcLen := BitVec.ofNat 16 bs.length, src := (List.range bs.length).zip bs }

/-- A start with nothing in SRC but a given SRC_LEN. -/
def startLen (n : Nat) : State := { start [] with srcLen := BitVec.ofNat 16 n }

/-- A check of the next state. -/
def after (o : Host.Outcome State Fault Refusal) (p : State → Bool) : Bool :=
  match o with
  | .next t => p t
  | .fault _ => false
  | .refused _ => false

/-- The next state, for witnesses. -/
def nextOf (o : Host.Outcome State Fault Refusal) : State :=
  match o with
  | .next t => t
  | .fault _ => State.reset
  | .refused _ => State.reset

/-- `DST[0..n)`. -/
def dstBytes (t : State) (n : Nat) : List Byte := t.dst.read 0 n 0

/-- `s` with the host program `p` to run and the schedule `q`. -/
def driven (s : State) (p : List HostOp) (q : List Turn) : State := s.withHost ⟨p, q, [], []⟩

/-! ### Parameters: an ill-formed one for each check (00_scope.md R9) -/

theorem test_params_default_wf : Params.default.wf = true ∧ paramsT.wf = true := by decide
theorem test_params_least_wf : ({ paramsT with bufBytes := 0x50 } : Params).wf = true := by decide
theorem test_params_refuse_not_multiple_of_16 : ({ paramsT with bufBytes := 0x58 } : Params).wf = false := by decide
theorem test_params_refuse_too_small : ({ paramsT with bufBytes := 0x40 } : Params).wf = false := by decide
theorem test_params_refuse_too_large : ({ paramsT with bufBytes := 0x1010 } : Params).wf = false := by decide
theorem test_params_refuse_short_template : ({ paramsT with hdrTemplate := magicM } : Params).wf = false := by decide
theorem test_params_refuse_err_offset : ({ paramsT with errOffset := 0x37 } : Params).wf = false := by decide

/-! ### Decoding: words from 30_encoding.md R93 and the vectors -/

theorem test_decode_nop : decode 0x00000000 = .ok .nop := by decide
theorem test_decode_loadDefaults : decode 0x00000001 = .ok .loadDefaults := by decide
theorem test_decode_csum : decode 0x00000010 = .ok .csum := by decide
theorem test_decode_frameEncode_E3 : decode 0x002a6a11 = .ok (.frameEncode 0x6a 0x2a) := by decide
theorem test_decode_frameEncode_top : decodeTableWord 32 0x00ffff11 = some (.frameEncode 0xff 0xff) := by decide
theorem test_decode_frameDecode : decode 0x00000012 = .ok .frameDecode := by decide
theorem test_decode_aesCbcEnc : decode 0x00000020 = .ok .aesCbcEnc := by decide
theorem test_decode_aesCbcDec : decode 0x00000021 = .ok .aesCbcDec := by decide
theorem test_decode_crc16 : decode 0x00000030 = .ok .crc16 := by decide
theorem test_decode_hframeWrap : decode 0x00000031 = .ok .hframeWrap := by decide
theorem test_decode_hframeCheck : decode 0x00000032 = .ok .hframeCheck := by decide
/-- X3: the illegal words. -/
theorem test_decode_X3 :
    decode 0x00000002 = .error .unlistedOpcode ∧ decode 0x00000013 = .error .unlistedOpcode ∧
    decode 0x000000ff = .error .unlistedOpcode ∧ decode 0x00000100 = .error .unusedArgs ∧
    decode 0x00010010 = .error .unusedArgs ∧ decode 0x80000030 = .error .reservedBits := by decide
/-- An illegal word's step is the error commit: STATUS 0x102 (X3). -/
theorem test_step_X3 :
    after (step (State.reset.withFetchWord 32 0x80000030)) (fun t => t.statusWord == 0x102 && t.result == 0) = true := by
  decide
theorem test_step_first_command :
    step (State.reset.withFetchWord 32 0x12) = exec .frameDecode (State.reset.withFetchWord 32 0x12) := by rfl

/-! ### The commands -/

/-- X1. -/
theorem test_nop_X1 : after (exec .nop { start [] with busy := true }) (fun t => t == { start [] with done := true }) = true := by
  decide +kernel

/-- LD1. -/
theorem test_loadDefaults_LD1 :
    after (exec .loadDefaults { start [] with counter := 0x10, dstLen := 0x48 })
      (fun t => t == { start [] with key := keyC1, iv := ivZ, done := true, counter := 0x10, dstLen := 0x48 }) = true := by
  decide +kernel

/-- CS2. -/
theorem test_csum_CS2 : after (exec .csum (start [1, 2, 3])) (fun t => t.result == 0xBEB5 && t.statusWord == 2) = true := by
  decide
/-- CS4: the sum wraps to 0. -/
theorem test_csum_CS4 : csum (List.replicate 65 0xff ++ [0x92]) = 0 := by decide +kernel

/-- The packet of vector E1. -/
def packetE1 : List Byte :=
  magicM ++ List.replicate 24 0 ++
  [0x60, 0xd1, 0x00, 0x00, 0x00, 0x00, 0x6a, 0x00, 0x34, 0x12, 0xaa, 0xbb, 0xcc, 0xdd, 0xee, 0xff] ++
  [0x01, 0x02, 0x03, 0x04, 0xb0, 0xbe, 0x00, 0x00] ++
  [0x45, 0x22, 0xa0, 0x3d, 0x98, 0x00, 0x9d, 0x55, 0x45, 0xed, 0x42, 0xfb, 0xd8, 0x35, 0x78, 0xd0]

/-- E1. -/
theorem test_frameEncode_E1 :
    after (exec (.frameEncode 0x6a 0) { start [1] with counter := 0x1234 }) (fun t =>
      dstBytes t 0x48 == packetE1 && t.dstLen == 0x48 && t.result == 0xD160 && t.counter == 0x1235) = true := by
  decide +kernel

/-- E2: no payload, and the counter wraps. -/
theorem test_frameEncode_E2 :
    after (exec (.frameEncode 0x65 0) { start [] with counter := 0xffff }) (fun t =>
      dstBytes t 0x38 == magicM ++ List.replicate 24 0 ++
        [0x80, 0xcb, 0x00, 0x00, 0x00, 0x00, 0x65, 0x00, 0xff, 0xff, 0xaa, 0xbb, 0xcc, 0xdd, 0xee, 0xff] ++
        [0x01, 0x02, 0x03, 0x04, 0xaf, 0xbe, 0x00, 0x00] &&
      t.dstLen == 0x38 && t.result == 0xCB80 && t.counter == 0) = true := by
  decide +kernel

/-- The reply of vector D7. -/
def replyD7 : List Byte :=
  templateM ++ [0x7b, 0x0b, 0x70, 0x11, 0xb6, 0xe0, 0xe5, 0xc6, 0x3d, 0xb3, 0x67, 0x6c, 0xfb, 0xc0, 0xbc, 0x96]

/-- A header with the error code of vector D5, and `c` ciphertext bytes. -/
def replyD5 (c : Nat) : List Byte := putAt templateM 0x22 [0x01] ++ List.replicate c 0

/-- D7. -/
theorem test_frameDecode_D7 :
    after (exec .frameDecode (start replyD7)) (fun t =>
      t.echo == 0x04030201 && dstBytes t 12 == [1, 0, 0, 0, 0, 0, 0, 0, 0, 0, 0, 0] && t.dstLen == 12 && t.result == 0 &&
      t.statusWord == 2) = true := by
  decide +kernel

/-- D5: DEVICE before the length of the ciphertext. -/
theorem test_frameDecode_D5 :
    after (exec .frameDecode (start (replyD5 0))) (fun t => t.statusWord == 0x602 && t.result == 1 && t.dst == []) = true := by
  decide +kernel

/-- The plaintext of vector A5. -/
def plainA5 : List Byte :=
  [0x6b, 0xc1, 0xbe, 0xe2, 0x2e, 0x40, 0x9f, 0x96, 0xe9, 0x3d, 0x7e, 0x11, 0x73, 0x93, 0x17, 0x2a,
   0xae, 0x2d, 0x8a, 0x57, 0x1e, 0x03, 0xac, 0x9c, 0x9e, 0xb7, 0x6f, 0xac, 0x45, 0xaf, 0x8e, 0x51]

/-- The ciphertext of vector A5. -/
def cipherA5 : List Byte :=
  [0x76, 0x49, 0xab, 0xac, 0x81, 0x19, 0xb2, 0x46, 0xce, 0xe9, 0x8e, 0x9b, 0x12, 0xe9, 0x19, 0x7d,
   0x50, 0x86, 0xcb, 0x9b, 0x50, 0x72, 0x19, 0xee, 0x95, 0xdb, 0x11, 0x3a, 0x91, 0x76, 0x78, 0xb2]

/-- A3: the key expansion's first and last word (41_crypto.md R169). -/
theorem test_roundKeys_A3 :
    (roundKeys keyF2)[1]?.map (·.c0) = some ⟨0xa0, 0xfa, 0xfe, 0x17⟩ ∧
    (roundKeys keyF2)[10]?.map (·.c3) = some ⟨0xb6, 0x63, 0x0c, 0xa6⟩ := by
  decide +kernel

/-- A1, A4: FIPS-197 C.1. -/
theorem test_aesEncrypt_A1 :
    aesEncrypt keyC1
      (blockOf [0x00, 0x11, 0x22, 0x33, 0x44, 0x55, 0x66, 0x77, 0x88, 0x99, 0xaa, 0xbb, 0xcc, 0xdd, 0xee, 0xff]) =
    blockOf [0x69, 0xc4, 0xe0, 0xd8, 0x6a, 0x7b, 0x04, 0x30, 0xd8, 0xcd, 0xb7, 0x80, 0x70, 0xb4, 0xc5, 0x5a] := by
  decide +kernel

/-- A5. -/
theorem test_aesCbcEnc_A5 :
    after (exec .aesCbcEnc { start plainA5 with key := keyF2, iv := keyC1 }) (fun t =>
      dstBytes t 32 == cipherA5 && t.dstLen == 32 && t.result == 0 && t.statusWord == 2 && t.iv == keyC1) = true := by
  decide +kernel

/-- A7: ALIGN. -/
theorem test_aesCbcEnc_A7 :
    after (exec .aesCbcEnc (startLen 17)) (fun t => t.statusWord == 0x302 && t.dst == [] && t.dstLen == 0) = true := by
  decide +kernel

/-- A6. -/
theorem test_aesCbcDec_A6 :
    after (exec .aesCbcDec { start cipherA5 with key := keyF2, iv := keyC1 }) (fun t =>
      dstBytes t 32 == plainA5 && t.dstLen == 32 && t.statusWord == 2) = true := by
  decide +kernel

theorem test_aesCbcDec_A7 :
    after (exec .aesCbcDec (startLen 17)) (fun t => t.statusWord == 0x302 && t.result == 0) = true := by
  decide +kernel

/-- CR4. -/
theorem test_crc16_CR4 :
    after (exec .crc16 (start [0x31, 0x32, 0x33, 0x34, 0x35, 0x36, 0x37, 0x38, 0x39])) (fun t => t.result == 0x4B37) = true := by
  decide +kernel

/-- CR3, CR7. -/
theorem test_crc16_CR7 : crc16 [0xff] = 0x00FF ∧ crc16 [0x01, 0x03, 0x00, 0x0a, 0x00, 0x0a] = 0xCFE5 := by
  decide +kernel

/-- HW1. -/
theorem test_hframeWrap_HW1 :
    after (exec .hframeWrap (start [1, 3, 0, 0, 0, 1])) (fun t =>
      dstBytes t 10 == [8, 0, 1, 3, 0, 0, 0, 1, 0x84, 0x0a] && t.dstLen == 10 && t.result == 0x0A84) = true := by
  decide +kernel

/-- HW2. -/
theorem test_hframeWrap_HW2 :
    after (exec .hframeWrap (start [])) (fun t => dstBytes t 4 == [2, 0, 0xff, 0xff] && t.dstLen == 4) = true := by
  decide +kernel

/-- HC2: bytes after the frame are ignored. -/
theorem test_hframeCheck_HC2 :
    after (exec .hframeCheck (start ([8, 0, 1, 3, 0, 0, 0, 1, 0x84, 0x0a] ++ List.replicate 6 0))) (fun t =>
      dstBytes t 6 == [1, 3, 0, 0, 0, 1] && t.dstLen == 6 && t.result == 0x0A84 && t.statusWord == 2) = true := by
  decide +kernel

/-- HC3: the computed CRC is recorded. -/
theorem test_hframeCheck_HC3 :
    after (exec .hframeCheck (start [8, 0, 1, 3, 0, 0, 0, 1, 0x84, 0x0b])) (fun t =>
      t.statusWord == 0x702 && t.result == 0x0A84 && t.dst == []) = true := by
  decide +kernel

/-! ### The bus and the host -/

/-- X4, X6: dropped writes. -/
theorem test_bus_X4_X6 :
    memWrite { start [] with busy := true } 0x00C 5 = { start [] with busy := true, ovr := true } ∧
    memWrite { start [] with busy := true } 0x000 1 = { start [] with busy := true, ovr := true } := by
  decide +kernel

/-- X14, X15, X16, X12. -/
theorem test_bus_X14_X15_X16 :
    memRead (memWrite (start []) 0x00C 0x12345678) 0x00C = 0x5678 ∧
    memRead (memWrite (start []) 0x028 0xffffffff) 0x028 = 0xffff ∧
    memRead { start [] with result := 7 } 0x016 = 7 ∧ memRead (start []) 0x3000 = 0 := by
  decide +kernel

/-- What a host reads while a command is in flight (20_memory.md R73): RESULT and ECHO of the command before, as in D7 and CS2. -/
theorem test_bus_reads_while_busy :
    memRead { start [] with busy := true, result := 0xBEB5 } 0x014 = 0xBEB5 ∧
    memRead { start [] with busy := true, echo := 0x04030201 } 0x018 = 0x04030201 ∧
    memRead { start [] with busy := true, dstLen := 12 } 0x010 = 12 := by
  decide +kernel

/-- P1: the log of the three reads. -/
theorem test_host_P1 :
    after (core.run 7 (driven (State.resetOf paramsT) (loadSrc [1, 2, 3] ++ [cmdOp .csum, .wait, .rd 0x014])
      [.host, .host, .host, .host, .engine, .host, .host])) (fun t =>
        t.host.log == [0xBEB5, 2, 1] && t.src == [(0, 1), (1, 2), (2, 3), (3, 0)] && t.srcLen == 3) = true := by
  decide +kernel

/-- SETKEY, SETIV, SETMAC, SETID, as in P2. -/
theorem test_host_session :
    after (core.run 11 (driven (State.resetOf paramsT)
      (setKey keyT ++ setIv keyC1 ++ setMac 0xaa 0xbb 0xcc 0xdd 0xee 0xff ++ setId 1 2 3 4) [])) (fun t =>
        t.key == keyT && t.iv == keyC1 && t.macLo == 0xddccbbaa && t.macHi == 0xffee && t.devid == 0x04030201) = true := by
  decide +kernel

/-- COPYDST as in P2: ten bytes. -/
theorem test_host_copyDst :
    after (core.run 8 (driven
        { start [] with dstLen := 10, dst := (List.range 12).zip [8, 0, 1, 3, 0, 0, 0, 1, 0x84, 0x0a, 7, 7] }
        [.copyDst] [])) (fun t =>
      t.host.log == [0x07070a84, 0x01000000, 0x03010008, 10] && t.srcLen == 10 && t.host.prog == [] &&
      t.src == (List.range 12).zip [8, 0, 1, 3, 0, 0, 0, 1, 0x84, 0x0a, 0, 0]) = true := by
  decide +kernel

/-! ### Witnesses: concrete states and operands that meet the hypotheses of the statements -/

/-- A reply whose error code is zero and whose ciphertext is not a multiple of 16 bytes, or empty. -/
def replyT (c : Nat) : List Byte := templateM ++ List.replicate c 0

/-- A state whose output is two written bytes. -/
def withOutput : State := { start [] with dstLen := 2, dst := [(0, 5), (1, 6), (2, 7), (3, 8)] }

theorem witness_DecodeEncodeAgree : Instr.wf (.frameEncode 0xff 0xff) = true ∧ decode 0x00ffff11 = .ok (.frameEncode 0xff 0xff) := by
  decide
theorem witness_IllegalWordsRaiseIllegal :
    State.reset.busy = false ∧ decode { State.reset with cmdLatch := 0x00000100 }.cmdLatch = .error .unusedArgs := by decide
theorem witness_StepRunsDecodedCommand :
    nextTurn (State.reset.withFetchWord 32 0x20) = .engine ∧ (State.reset.withFetchWord 32 0x20).busy = true ∧
    decode (State.reset.withFetchWord 32 0x20).cmdLatch = .ok .aesCbcEnc ∧ Instr.aesCbcEnc.wf = true ∧
    (State.reset.withFetchWord 32 0x20).host.sched = [] := by decide
theorem witness_StepRunsDecodedCommand_schedule :
    (driven State.reset [] [.engine, .host]).host.sched = .engine :: [.host] ∧
    decodeTableWord 32 0x32 = some .hframeCheck := by decide
theorem witness_EngineStepsExactlyWhileBusy :
    nextTurn (driven State.reset [] [.engine]) = .engine ∧ (driven State.reset [] [.engine]).busy = false ∧
    nextTurn { State.reset with busy := true } = .engine ∧ { State.reset with busy := true }.busy = true := by decide
theorem witness_IssueLatchesTheCommand : State.reset.busy = false ∧ { State.reset with busy := true }.busy = true := by decide
theorem witness_SuccessCommitAppliesStagedWrites :
    (⟨some 1, some [2], some 3, some 4, some keyT, some ivZ⟩ : Staged).result = some 1 ∧
    (⟨none, none, none, none, none, none⟩ : Staged).out = none := by decide
theorem witness_ErrorCommitChangesResultAndStatusOnly :
    ∃ t, exec .csum (startLen 0x1001) = .next t ∧ t.err ≠ 0 ∧ t.err ≠ 6 ∧ t.err ≠ 7 :=
  ⟨nextOf (exec .csum (startLen 0x1001)), rfl, by decide, by decide, by decide⟩
theorem witness_SharedChecksComeFirst :
    decode { startLen 0x1001 with cmdLatch := 0x01000010 }.cmdLatch = .error .reservedBits ∧
    decode { startLen 0x1001 with cmdLatch := 0x10 }.cmdLatch = .ok .csum ∧ readsSrc .csum = true ∧
    (startLen 0x1001).params.bufBytes < (startLen 0x1001).srcLen.toNat ∧
    decode (startLen 0xffff).cmdLatch = .ok .nop ∧ readsSrc .nop = false := by decide
theorem witness_CompletionCodesOfEachCommand : ∃ t, exec .nop State.reset = .next t := ⟨_, rfl⟩
theorem witness_StepKeepsInvariant_host :
    (driven withOutput [.wr 0x1000 5] []).Inv ∧ ∃ t, step (driven withOutput [.wr 0x1000 5] []) = .next t :=
  ⟨by decide +kernel, _, rfl⟩
theorem witness_StepKeepsInvariant_engine :
    (State.withFetchWord withOutput 32 0x10).Inv ∧ ∃ t, step (State.withFetchWord withOutput 32 0x10) = .next t :=
  ⟨by decide +kernel, _, rfl⟩
theorem witness_ResetMeetsInvariant : ({ paramsT with bufBytes := 0x50, errOffset := 0x36 } : Params).wf = true := by decide
theorem witness_CommandInFlightEnds : (driven { State.reset with busy := true } [] [.host, .host]).busy = true := by decide
theorem witness_ParametersNeverChange : ∃ t, step State.reset = .next t := ⟨_, rfl⟩
theorem witness_HostCannotTouchCommandInFlight :
    (driven { State.reset with busy := true } [.wr 0x030 1] [.host]).busy = true ∧
    nextTurn (driven { State.reset with busy := true } [.wr 0x030 1] [.host]) = .host ∧
    ∃ t, step (driven { State.reset with busy := true } [.wr 0x030 1] [.host]) = .next t := ⟨rfl, rfl, _, rfl⟩
theorem witness_NopDoesNothingButComplete :
    opOf 0x00000100 = 0x00 ∧ (0x00000100 : Word) ≠ 0 ∧ State.reset.ovr = false ∧ ∃ t, exec .nop State.reset = .next t :=
  ⟨by decide, by decide, rfl, _, rfl⟩
theorem witness_CsumSumsTheInput :
    (startLen 0x1001).params.bufBytes < (startLen 0x1001).inputLen ∧
    (startLen 0x1000).inputLen ≤ (startLen 0x1000).params.bufBytes := by decide
theorem witness_FrameEncodeBuildsThePacket_input :
    (startLen 0x1001).params.wf = true ∧ (startLen 0x1001).params.bufBytes < (startLen 0x1001).inputLen := by decide
theorem witness_FrameEncodeBuildsThePacket_output :
    (startLen 0xFC1).params.wf = true ∧ (startLen 0xFC1).inputLen ≤ (startLen 0xFC1).params.bufBytes ∧
    (startLen 0xFC1).params.bufBytes < 0x38 + pad16 (startLen 0xFC1).inputLen := by decide
theorem witness_FrameEncodeBuildsThePacket_fits :
    (startLen 0xFC0).params.wf = true ∧
    0x38 + pad16 (startLen 0xFC0).inputLen ≤ (startLen 0xFC0).params.bufBytes := by decide
theorem witness_FrameDecodeSplitsTheReply_len :
    (startLen 0x1001).params.wf = true ∧ (startLen 0x1001).params.bufBytes < (startLen 0x1001).inputLen := by decide
theorem witness_FrameDecodeSplitsTheReply_trunc :
    (startLen 0x37).params.wf = true ∧ (startLen 0x37).inputLen ≤ (startLen 0x37).params.bufBytes ∧
    (startLen 0x37).inputLen < 0x38 := by decide
theorem witness_FrameDecodeSplitsTheReply_device :
    (start (replyD5 0)).params.wf = true ∧ (start (replyD5 0)).inputLen ≤ (start (replyD5 0)).params.bufBytes ∧
    0x38 ≤ (start (replyD5 0)).inputLen ∧
    ((start (replyD5 0)).input.getD (start (replyD5 0)).params.errOffset 0).toNat +
      256 * ((start (replyD5 0)).input.getD ((start (replyD5 0)).params.errOffset + 1) 0).toNat ≠ 0 := by
  decide +kernel
theorem witness_FrameDecodeSplitsTheReply_malformed :
    (start (replyT 0)).params.wf = true ∧ (start (replyT 0)).inputLen ≤ (start (replyT 0)).params.bufBytes ∧
    0x38 ≤ (start (replyT 0)).inputLen ∧
    ((start (replyT 0)).input.getD (start (replyT 0)).params.errOffset 0).toNat +
      256 * ((start (replyT 0)).input.getD ((start (replyT 0)).params.errOffset + 1) 0).toNat = 0 ∧
    ((start (replyT 0)).inputLen = 0x38 ∨ ((start (replyT 0)).inputLen - 0x38) % 16 ≠ 0) := by
  decide +kernel
theorem witness_FrameDecodeSplitsTheReply_success :
    (start replyD7).params.wf = true ∧ (start replyD7).inputLen ≤ (start replyD7).params.bufBytes ∧
    0x38 < (start replyD7).inputLen ∧
    ((start replyD7).input.getD (start replyD7).params.errOffset 0).toNat +
      256 * ((start replyD7).input.getD ((start replyD7).params.errOffset + 1) 0).toNat = 0 ∧
    ((start replyD7).inputLen - 0x38) % 16 = 0 := by
  decide +kernel
theorem witness_AesCbcEncEncryptsTheInput :
    (startLen 0x1001).params.bufBytes < (startLen 0x1001).inputLen ∧
    ((startLen 0xfff).inputLen ≤ (startLen 0xfff).params.bufBytes ∧ (startLen 0xfff).inputLen % 16 ≠ 0) ∧
    (startLen 0x1000).inputLen ≤ (startLen 0x1000).params.bufBytes ∧ (startLen 0x1000).inputLen % 16 = 0 := by decide
theorem witness_AesCbcDecDecryptsTheInput :
    (startLen 0xffff).params.bufBytes < (startLen 0xffff).inputLen ∧
    ((startLen 1).inputLen ≤ (startLen 1).params.bufBytes ∧ (startLen 1).inputLen % 16 ≠ 0) ∧
    (startLen 0).inputLen ≤ (startLen 0).params.bufBytes ∧ (startLen 0).inputLen % 16 = 0 := by decide
theorem witness_Crc16OfTheInput :
    (startLen 0x1001).params.bufBytes < (startLen 0x1001).inputLen ∧
    (startLen 0x1000).inputLen ≤ (startLen 0x1000).params.bufBytes := by decide
theorem witness_HframeWrapBuildsTheFrame :
    (startLen 0x1001).params.bufBytes < (startLen 0x1001).inputLen ∧
    ((startLen 0xffd).inputLen ≤ (startLen 0xffd).params.bufBytes ∧
      (startLen 0xffd).params.bufBytes < (startLen 0xffd).inputLen + 4) ∧
    (startLen 0xffc).inputLen + 4 ≤ (startLen 0xffc).params.bufBytes := by decide
theorem witness_HframeCheckExtractsThePayload_malformed :
    (startLen 0x1001).params.bufBytes < (startLen 0x1001).inputLen ∧
    (startLen 3).inputLen ≤ (startLen 3).params.bufBytes ∧ (startLen 3).inputLen < 4 := by decide
theorem witness_HframeCheckExtractsThePayload_length :
    let s := start [3, 0, 0xff, 0xff]
    s.inputLen ≤ s.params.bufBytes ∧ s.inputLen < (s.input.getD 0 0).toNat + 256 * (s.input.getD 1 0).toNat + 2 := by
  decide +kernel
theorem witness_HframeCheckExtractsThePayload_crc :
    let s := start [2, 0, 0xff, 0xfe]
    let l := (s.input.getD 0 0).toNat + 256 * (s.input.getD 1 0).toNat
    s.inputLen ≤ s.params.bufBytes ∧ 4 ≤ s.inputLen ∧ 2 ≤ l ∧ l + 2 ≤ s.inputLen ∧
    (crcReference (slice s.input 2 l)).toNat ≠ (s.input.getD l 0).toNat + 256 * (s.input.getD (l + 1) 0).toNat := by
  decide +kernel
theorem witness_HframeCheckExtractsThePayload_success :
    let s := start [2, 0, 0xff, 0xff]
    let l := (s.input.getD 0 0).toNat + 256 * (s.input.getD 1 0).toNat
    s.inputLen ≤ s.params.bufBytes ∧ 4 ≤ s.inputLen ∧ 2 ≤ l ∧ l + 2 ≤ s.inputLen ∧
    (crcReference (slice s.input 2 l)).toNat = (s.input.getD l 0).toNat + 256 * (s.input.getD (l + 1) 0).toNat := by
  decide +kernel
theorem witness_CsumLaws : ([1, 2] : List Byte).Perm [2, 1] := List.Perm.swap 2 1 []
theorem witness_SboxIsAffineOfInverse : gmul 0x53 0xca = 1 ∧ (0xff : Byte) ≠ 0 := by decide +kernel
theorem witness_CbcChainsTheBlocks : plainA5.length % 16 = 0 ∧ 1 < plainA5.length / 16 := by decide
theorem witness_CipherRoundTrip :
    let s := start plainA5
    let t := nextOf (exec .aesCbcEnc s)
    let u := { t with src := t.dst, srcLen := t.dstLen }
    s.params.wf = true ∧ s.inputLen ≤ s.params.bufBytes ∧ s.inputLen % 16 = 0 ∧ exec .aesCbcEnc s = .next t ∧
    MovedToSrc t u ∧ u.key = s.key ∧ u.iv = s.iv :=
  ⟨by decide, by decide, by decide, rfl, ⟨rfl, rfl, fun _ _ => rfl⟩, rfl, rfl⟩
theorem witness_PacketRoundTrip :
    let s := start [1]
    let t := nextOf (exec (.frameEncode 0x6a 0) s)
    let u := { t with src := t.dst, srcLen := t.dstLen, key := s.key, iv := s.iv }
    s.params.wf = true ∧ s.params.errOffset = 0x22 ∧ 0x38 + pad16 s.inputLen ≤ s.params.bufBytes ∧
    exec (.frameEncode 0x6a 0) s = .next t ∧ MovedToSrc t u ∧ u.key = s.key ∧ u.iv = s.iv ∧
    (s.params.hdrTemplate.getD 0x22 0).toNat + 256 * (s.params.hdrTemplate.getD 0x23 0).toNat = 0 ∧ 0 < s.inputLen :=
  ⟨by decide, rfl, by decide, rfl, ⟨rfl, rfl, fun _ _ => rfl⟩, rfl, rfl, by decide, by decide⟩
theorem witness_PacketRoundTrip_empty :
    (start []).params.wf = true ∧ (start []).params.errOffset = 0x22 ∧
    0x38 + pad16 (start []).inputLen ≤ (start []).params.bufBytes ∧ (start []).inputLen = 0 ∧
    (paramsT.hdrTemplate.getD 0x22 0).toNat + 256 * (paramsT.hdrTemplate.getD 0x23 0).toNat = 0 := by decide
theorem witness_PacketRoundTrip_device :
    let p := { paramsT with hdrTemplate := putAt templateM 0x22 [0xfb, 0xff] }
    p.wf = true ∧ p.errOffset = 0x22 ∧ (p.hdrTemplate.getD 0x22 0).toNat + 256 * (p.hdrTemplate.getD 0x23 0).toNat = 0xfffb := by
  decide
theorem witness_HysenFrameRoundTrip :
    let s := start [1, 3]
    let t := nextOf (exec .hframeWrap s)
    let u := { t with src := t.dst, srcLen := t.dstLen }
    s.params.wf = true ∧ s.inputLen + 4 ≤ s.params.bufBytes ∧ exec .hframeWrap s = .next t ∧ MovedToSrc t u :=
  ⟨by decide, by decide, rfl, ⟨rfl, rfl, fun _ _ => rfl⟩⟩
theorem witness_CommandsLeaveTheseAlone : ∃ t, exec .hframeCheck (start []) = .next t := ⟨_, rfl⟩
theorem witness_OnlyTheseCommandsWrite :
    ∃ t, exec .csum (startLen 0x1001) = .next t ∧ Instr.csum ≠ .loadDefaults ∧ Instr.csum ≠ .frameDecode ∧
      (∀ c v, Instr.csum ≠ .frameEncode c v) ∧ writesDst .csum = false ∧ t.err ≠ 0 :=
  ⟨nextOf (exec .csum (startLen 0x1001)), rfl, by decide, by decide, (fun c v h => by cases h), rfl, by decide⟩
theorem witness_OnlyTheseCommandsWrite_step :
    let k := driven (start []) [.wr 0x03F 1] []
    let v := driven (start []) [.wr 0x040 1] []
    let c := driven (start []) [.wr 0x01F 1] []
    ((step k = .next (nextOf (step k)) ∧ (nextOf (step k)).key ≠ k.key) ∧
      (step v = .next (nextOf (step v)) ∧ (nextOf (step v)).iv ≠ v.iv)) ∧
    step c = .next (nextOf (step c)) ∧ (nextOf (step c)).counter ≠ c.counter :=
  ⟨⟨⟨rfl, by decide +kernel⟩, rfl, by decide +kernel⟩, rfl, by decide +kernel⟩
theorem witness_OnlyTheseCommandsWrite_engine :
    let d := (start replyD7).withFetchWord 32 0x12
    step d = .next (nextOf (step d)) ∧ (nextOf (step d)).echo ≠ d.echo ∧ (nextOf (step d)).dstLen ≠ d.dstLen :=
  ⟨rfl, by decide +kernel, by decide +kernel⟩
theorem witness_OnlyTheseCommandsWrite_result :
    let d := (start []).withFetchWord 32 0x10
    step d = .next (nextOf (step d)) ∧ (nextOf (step d)).result ≠ d.result := ⟨rfl, by decide⟩
theorem witness_CounterCountsPackets :
    ∃ t, (start []).params.wf = true ∧ exec (.frameEncode 0x65 0) (start []) = .next t ∧ t.err = 0 :=
  ⟨nextOf (exec (.frameEncode 0x65 0) (start [])), by decide, rfl, by decide⟩
theorem witness_CounterCountsPackets_error :
    ∃ t, (startLen 0xFC1).params.wf = true ∧ exec (.frameEncode 0x65 0) (startLen 0xFC1) = .next t ∧ t.err ≠ 0 :=
  ⟨nextOf (exec (.frameEncode 0x65 0) (startLen 0xFC1)), by decide, rfl, by decide +kernel⟩
theorem witness_CounterCountsPackets_other : ∃ t, (∀ c v, Instr.nop ≠ .frameEncode c v) ∧ exec .nop (start []) = .next t :=
  ⟨_, (fun c v h => by cases h), rfl⟩
theorem frameEncode_empty (c : Half) : ∃ u,
    exec (.frameEncode 0x65 0) { start [] with counter := c } = .next u ∧ u.err = 0 ∧ u.counter = c + 1 := by
  refine ⟨_, rfl, ?_⟩
  have hl : ({ start [] with counter := c } : State).inputLen ≤ ({ start [] with counter := c } : State).params.bufBytes :=
    show 0 ≤ 0x1000 by decide
  rw [runOnInput_of_le hl]
  rcases ruleFrameEncode_cases 0x65 0 { start [] with counter := c } [] with h | ⟨-, h⟩
  · have hn : ¬ ({ start [] with counter := c } : State).params.bufBytes < Config.hdrLen + pad16 ([] : List Byte).length :=
      show ¬ 0x1000 < 0x38 + 0 by decide
    rw [ruleFrameEncode, if_neg hn] at h
    cases h
  · change (settle (ruleFrameEncode 0x65 0 { start [] with counter := c } []) _).err = 0 ∧
      (settle (ruleFrameEncode 0x65 0 { start [] with counter := c } []) _).counter = _
    rw [h]
    exact ⟨rfl, rfl⟩
/-- A run of packets that meets the hypothesis of the last clause. -/
theorem witness_CounterCountsPackets_run (k : Nat) : ∃ code ver u,
    exec (.frameEncode code ver) { start [] with counter := BitVec.ofNat 16 k } = .next u ∧ u.err = 0 ∧
    BitVec.ofNat 16 (k + 1) = u.counter := by
  obtain ⟨u, h, h0, hc⟩ := frameEncode_empty (BitVec.ofNat 16 k)
  exact ⟨0x65, 0, u, h, h0, hc ▸ BitVec.ofNat_add k 1⟩
theorem witness_DstChangesOnlyBelowDstLen :
    ∃ t, (start []).params.wf = true ∧ exec .hframeWrap (start []) = .next t ∧ t.err = 0 ∧ writesDst .hframeWrap = true ∧
      3 < t.dstLen.toNat ∧ ¬ 4 < t.dstLen.toNat :=
  ⟨nextOf (exec .hframeWrap (start [])), by decide, rfl, rfl, rfl, by decide, by decide⟩
theorem witness_CommandsDoNotReadDst :
    ∃ t, exec .hframeWrap (start []) = .next t ∧ t.err = 0 ∧ writesDst .hframeWrap = true ∧ 3 < t.dstLen.toNat :=
  ⟨nextOf (exec .hframeWrap (start [])), rfl, rfl, rfl, by decide⟩
theorem witness_CommandsDoNotReadDst_src :
    (∀ a, a < (startLen 1).srcLen.toNat → Memory.get? [(1, 9)] a = (startLen 1).src.get? a) ∧
    (0 < (start [1]).srcLen.toNat ∧ (start [1]).src.get? 0 = some 1) ∧
    ∃ t, exec .csum (startLen 1) = .next t := by
  refine ⟨fun a h => ?_, by decide, _, rfl⟩
  have h0 : a = 0 := by
    have h1 : (startLen 1).srcLen.toNat = 1 := rfl
    omega
  subst h0
  rfl
/-- The other contents differ in header byte 0. -/
theorem witness_FrameDecodeIgnoresTheRestOfTheHeader :
    ∃ t, (start replyD7).params.wf = true ∧
      (∀ a, (a = (start replyD7).params.errOffset ∨ a = (start replyD7).params.errOffset + 1 ∨ 0x38 ≤ a) →
        Memory.get? ((0, 0x00) :: (start replyD7).src.tail) a = (start replyD7).src.get? a) ∧
      exec .frameDecode (start replyD7) = .next t := by
  refine ⟨nextOf (exec .frameDecode (start replyD7)), by decide, fun a h => ?_, rfl⟩
  have h0 : a ≠ 0 := by
    have h1 : (start replyD7).params.errOffset = 0x22 := rfl
    omega
  change (if a = 0 then _ else _) = (if a = 0 then _ else _)
  rw [if_neg h0, if_neg h0]
  rfl
theorem witness_StatusRegisterLayout : (11 : Nat) < 32 ∧ ∃ t, exec .nop State.reset = .next t := ⟨by decide, _, rfl⟩
theorem witness_GuardedWritesAreDroppedWhileBusy :
    (startLen 0).params.wf = true ∧ { startLen 0 with busy := true }.busy = true ∧
    guardedOffset paramsT 0x04F = true ∧ guardedOffset paramsT 0x1000 = true ∧ guardedOffset paramsT 0x1FFF = true ∧
    (0x007 : Offset).toNat / 4 * 4 = 0x004 ∧ (0x008 : Offset).toNat / 4 * 4 = 0x008 ∧
    guardedOffset paramsT 0x010 = false ∧ guardedOffset paramsT 0x2000 = false := by decide
theorem witness_ReservedReadsZeroAndIgnoresWrites :
    reservedOffset paramsT 0x02F = true ∧ reservedOffset paramsT 0x050 = true ∧ reservedOffset paramsT 0xFFF = true ∧
    reservedOffset paramsT 0x3000 = true ∧ reservedOffset paramsT 0x3FFF = true ∧
    reservedOffset { paramsT with bufBytes := 0x50 } 0x1050 = true ∧
    reservedOffset { paramsT with bufBytes := 0x50 } 0x2050 = true := by decide
theorem witness_SrcWindowReadsAndWritesSrc :
    (start replyD7).params.wf = true ∧ 4 * 17 < 0x1000 ∧ 4 * 17 < (start replyD7).params.bufBytes ∧
    (start replyD7).src.get? 68 = some 0xfb ∧ (start replyD7).src.get? 69 = some 0xc0 ∧
    (start replyD7).src.get? 70 = some 0xbc ∧ (start replyD7).src.get? 71 = some 0x96 ∧ (start replyD7).busy = false := by
  decide +kernel
theorem witness_SrcWindowReadsAndWritesSrc_unbacked :
    ({ paramsT with bufBytes := 0x50 } : Params).wf = true ∧ 4 * 20 < 0x1000 ∧ (0x50 : Nat) ≤ 4 * 20 := by decide
theorem witness_DstWindowReadsDst :
    withOutput.params.wf = true ∧ 4 * 0 < withOutput.params.bufBytes ∧ withOutput.dst.get? 0 = some 5 ∧
    withOutput.dst.get? 1 = some 6 ∧ withOutput.dst.get? 2 = some 7 ∧ withOutput.dst.get? 3 = some 8 := by decide
/-- The last word of an output of ten bytes: byte 9 is written, byte 10 is not. -/
theorem witness_DstWindowReadsDst_lane :
    let s := { start [] with dst := (List.range 10).zip [8, 0, 1, 3, 0, 0, 0, 1, 0x84, 0x0a] }
    s.params.wf = true ∧ 4 * 2 < s.params.bufBytes ∧ (1 < 4 ∧ s.dst.get? (4 * 2 + 1) = some 0x0a) ∧
    s.dst.get? (4 * 2 + 2) = none := by decide
theorem witness_RegistersReadBackWrites : State.reset.busy = false ∧ (3 : Nat) < 4 ∧ 4 * 3 ≤ 15 ∧ 15 < 4 * 3 + 4 := by decide
theorem witness_InterruptIsDoneAndEnable :
    (0x00000002 : Word).getLsbD 1 = true ∧ State.reset.busy = false ∧
    nextTurn (driven State.reset [] [.reset]) = .reset ∧ ∃ t, step (driven State.reset [] [.reset]) = .next t :=
  ⟨by decide, rfl, rfl, _, rfl⟩
theorem witness_ReadsHaveNoSideEffects :
    nextTurn (driven withOutput [.rd 0x2000] []) = .host ∧ (driven withOutput [.rd 0x2000] []).host.prog = .rd 0x2000 :: [] ∧
    (∃ t, step (driven withOutput [.rd 0x2000] []) = .next t) ∧ withOutput.Inv ∧
    (0x1ffc : Offset).toNat / 4 * 4 ≠ 0x000 ∧ withOutput.busy = false ∧ withOutput.ovr = false :=
  ⟨rfl, rfl, ⟨_, rfl⟩, by decide +kernel, by decide, rfl, rfl⟩
theorem witness_HostTurnMakesOneAccess :
    nextTurn State.reset = .host ∧ State.reset.host.prog = [] ∧
    nextTurn (driven State.reset [.wr 0x00C 1] []) = .host ∧ nextTurn (driven State.reset [.rd 0x014] []) = .host ∧
    nextTurn (driven { State.reset with busy := true } [.wait] [.host]) = .host := by decide
theorem witness_ResetSetsEveryRegister : nextTurn (driven { withOutput with busy := true } [] [.reset]) = .reset := by decide
theorem witness_CmdThenWaitRunsTheCommand :
    let s := driven (start [1]) [cmdOp (.frameEncode 0x6a 0), .wait, .rd 0x014] []
    (Instr.frameEncode 0x6a 0).wf = true ∧ s.busy = false ∧ s.host.sched = [] ∧
    s.host.prog = cmdOp (.frameEncode 0x6a 0) :: .wait :: [.rd 0x014] := ⟨rfl, rfl, rfl, rfl⟩
theorem witness_LoadSrcFillsSrc :
    let s := driven State.reset (loadSrc [1, 2, 3, 4, 5] ++ [.wait]) []
    s.params.wf = true ∧ s.busy = false ∧ s.host.sched = [] ∧ s.host.prog = loadSrc [1, 2, 3, 4, 5] ++ [.wait] ∧
    ([1, 2, 3, 4, 5] : List Byte).length ≤ s.params.bufBytes := ⟨by decide, rfl, rfl, rfl, by decide⟩
theorem witness_ReadDstCollectsTheOutput :
    let s := driven withOutput [.readDst] []
    s.Inv ∧ s.busy = false ∧ s.host.sched = [] ∧ s.host.prog = .readDst :: [] ∧ 1 < s.dstLen.toNat :=
  ⟨by decide +kernel, rfl, rfl, rfl, by decide⟩
theorem witness_CopyDstMovesTheOutputToSrc :
    let s := driven withOutput [.copyDst, .wait] []
    s.Inv ∧ s.busy = false ∧ s.host.sched = [] ∧ s.host.prog = .copyDst :: [.wait] := ⟨by decide +kernel, rfl, rfl, rfl⟩
theorem witness_SetSessionWritesTheRegisters :
    let s := driven State.reset (setKey keyT ++ setIv ivZ ++ setMac 1 2 3 4 5 6 ++ setId 7 8 9 10 ++ []) []
    s.busy = false ∧ s.host.sched = [] ∧
    s.host.prog = setKey keyT ++ setIv ivZ ++ setMac 1 2 3 4 5 6 ++ setId 7 8 9 10 ++ [] := ⟨rfl, rfl, rfl⟩

theorem witness_CipherFollowsItsSteps :
    (3 < 4 ∧ 10 ≤ 10) ∧ (4 ≤ 43 ∧ 43 < 44 ∧ 43 % 4 ≠ 0) ∧ 4 ≤ 40 ∧ 40 < 44 ∧ 40 % 4 = 0 := by decide

end Sys2Proof.Tests
end

section
/-! SUPPORT. Where an access of the window goes, what its registers' reads and writes do, and the statements about guarded
and reserved locations (10_state.md R23, R36, R41; 20_memory.md R64 to R66). -/

namespace Sys2Proof.Machine

/-! ### The address map -/

/-- The word offset of a register (R23). -/
def Reg.offset : Reg → Nat
  | .command => 0x000
  | .status => 0x004
  | .irqEn => 0x008
  | .srcLen => 0x00C
  | .dstLen => 0x010
  | .result => 0x014
  | .echo => 0x018
  | .counter => 0x01C
  | .devid => 0x020
  | .macLo => 0x024
  | .macHi => 0x028
  | .key j => 0x030 + 4 * j
  | .iv j => 0x040 + 4 * j

theorem regAt_eq_some_iff {off : Nat} {r : Reg} : regAt off = some r ↔ off = r.offset := by
  constructor
  · intro h
    unfold regAt at h
    split at h <;> cases h <;> rfl
  · rintro rfl
    cases r with
    | key j | iv j => revert j; decide
    | _ => rfl

theorem Reg.offset_injective {r q : Reg} (h : r.offset = q.offset) : r = q :=
  Option.some.inj ((regAt_eq_some_iff.2 rfl).symm.trans (regAt_eq_some_iff.2 h))

/-- No register stands at the gap 0x02C or from 0x050 on. -/
theorem Reg.offset_bounds (r : Reg) : r.offset < 0x050 ∧ r.offset ≠ 0x02C := by
  cases r with
  | key j | iv j => simp only [Reg.offset]; omega
  | _ => decide

/-- Every word offset below 0x050 other than the gap 0x02C has a register. -/
theorem gap_of_regAt_eq_none {off : Nat} (h : regAt off = none) (hw : off % 4 = 0) : off = 0x02C ∨ 0x050 ≤ off := by
  have filled : ∀ k < 20, k ≠ 11 → regAt (4 * k) ≠ none := by decide
  by_contra hgap
  exact filled (off / 4) (by omega) (by omega) (by rwa [Nat.mul_div_cancel' (Nat.dvd_of_mod_eq_zero hw)])

/-- Where an access at word offset `off` goes (20_memory.md R64 to R66). -/
inductive LocatedAt (p : Params) (off : Nat) : Loc → Prop where
  | reg {r : Reg} (h : off = r.offset) : LocatedAt p off (.reg r)
  | src {i : Nat} (h : off = 0x1000 + i) (hi : i < 0x1000) (hb : i < p.bufBytes) : LocatedAt p off (.src i)
  | dst {i : Nat} (h : off = 0x2000 + i) (hi : i < 0x1000) (hb : i < p.bufBytes) : LocatedAt p off (.dst i)
  | reserved (hreg : off = 0x02C ∨ 0x050 ≤ off) (hsrc : 0x1000 ≤ off → off < 0x2000 → 0x1000 + p.bufBytes ≤ off)
      (hdst : 0x2000 ≤ off → off < 0x3000 → 0x2000 + p.bufBytes ≤ off) : LocatedAt p off .reserved

theorem wordOffset_mod (a : Offset) : wordOffset a % 4 = 0 := Nat.mul_mod_left ..

/-- The inversion lemma of `locate`. -/
theorem locate_locatedAt (p : Params) (a : Offset) : LocatedAt p (wordOffset a) (locate p a) := by
  simp only [locate]
  split
  · cases hr : regAt (wordOffset a) with
    | some r => exact .reg (regAt_eq_some_iff.1 hr)
    | none => exact .reserved (gap_of_regAt_eq_none hr (wordOffset_mod a)) (by omega) (by omega)
  · split
    · split
      · exact .src (by omega) (by omega) (by assumption)
      · exact .reserved (by omega) (by omega) (by omega)
    · split
      · split
        · exact .dst (by omega) (by omega) (by assumption)
        · exact .reserved (by omega) (by omega) (by omega)
      · exact .reserved (by omega) (by omega) (by omega)

/-- An access goes to a register exactly at the register's word offset. -/
theorem locate_eq_reg_iff {p : Params} {a : Offset} {r : Reg} : locate p a = .reg r ↔ wordOffset a = r.offset := by
  have hr := r.offset_bounds
  have hl := locate_locatedAt p a
  generalize locate p a = l at hl ⊢
  cases hl with
  | reg h => rw [h, Loc.reg.injEq]; exact ⟨congrArg _, Reg.offset_injective⟩
  | src | dst | reserved => exact iff_of_false nofun (by omega)

/-- With legal parameters the map's reserved locations are those of `reservedOffset`. -/
theorem locate_eq_reserved_iff {p : Params} (hp : p.wf = true) {a : Offset} :
    locate p a = .reserved ↔ reservedOffset p a = true := by
  have hmod := bufBytes_mod hp
  have hle := bufBytes_le hp
  have hl := locate_locatedAt p a
  simp only [reservedOffset, Bool.or_eq_true, Bool.and_eq_true, decide_eq_true_eq, beq_iff_eq]
  generalize locate p a = l at hl ⊢
  unfold wordOffset at hl
  cases hl with
  | @reg r h =>
    have hr := r.offset_bounds
    exact iff_of_false nofun (by omega)
  | src h hi hb | dst h hi hb => exact iff_of_false nofun (by omega)
  | reserved hreg hsrc hdst => exact iff_of_true rfl (by omega)

/-- The locations whose writes are dropped while BUSY = 1 (R41). -/
def Loc.guarded : Loc → Bool
  | .reg r => r.guarded
  | .src _ => true
  | .dst _ => false
  | .reserved => false

/-- The register offsets of `guardedOffset` are those of the guarded registers. -/
theorem Reg.guarded_eq_contains (r : Reg) : r.guarded =
    [0x000, 0x00C, 0x01C, 0x020, 0x024, 0x028, 0x030, 0x034, 0x038, 0x03C, 0x040, 0x044, 0x048, 0x04C].contains
      r.offset := by
  cases r with
  | key j | iv j => revert j; decide
  | _ => rfl

/-- With legal parameters the map's guarded locations are those of `guardedOffset`. -/
theorem guardedOffset_eq_guarded {p : Params} (hp : p.wf = true) (a : Offset) :
    guardedOffset p a = (locate p a).guarded := by
  have hmod := bufBytes_mod hp
  have hle := bufBytes_le hp
  have hl := locate_locatedAt p a
  generalize locate p a = l at hl ⊢
  unfold wordOffset at hl
  cases hl with
  | @reg r h =>
    have hr := r.offset_bounds
    have hpage : decide (0x1000 ≤ a.toNat) = false := decide_eq_false (by omega)
    rw [guardedOffset, h, ← r.guarded_eq_contains, hpage, Bool.false_and, Bool.or_false]
    rfl
  | src h hi hb =>
    simp only [guardedOffset, Loc.guarded, Bool.or_eq_true, Bool.and_eq_true, decide_eq_true_eq]
    omega
  | dst | reserved =>
    simp only [guardedOffset, Loc.guarded, Bool.or_eq_false_iff, Bool.and_eq_false_iff, decide_eq_false_iff_not,
      List.contains_cons, List.contains_nil, beq_eq_false_iff_ne, and_true]
    omega

/-! ### The registers' reads and writes -/

theorem memRead_reg {s : State} {a : Offset} {r : Reg} (h : locate s.params a = .reg r) :
    memRead s a = readReg s r := by rw [memRead, h]

theorem memRead_reserved {s : State} {a : Offset} (h : locate s.params a = .reserved) : memRead s a = 0 := by
  rw [memRead, h]

theorem memWrite_reserved {s : State} {a : Offset} (h : locate s.params a = .reserved) (v : Word) :
    memWrite s a v = s := by rw [memWrite, h]

theorem memWrite_reg {s : State} {a : Offset} {r : Reg} (h : locate s.params a = .reg r) (v : Word) :
    memWrite s a v = if s.busy && r.guarded then s.dropWrite else writeReg s r v := by rw [memWrite, h]

theorem memWrite_reg_of_unguarded {s : State} {a : Offset} {r : Reg} (h : locate s.params a = .reg r)
    (hr : r.guarded = false) (v : Word) : memWrite s a v = writeReg s r v := by
  rw [memWrite_reg h, hr, Bool.and_false, if_neg Bool.false_ne_true]

/-- While BUSY = 1 a write of a guarded location is dropped (R41). -/
theorem memWrite_of_guarded {s : State} {a : Offset} (hb : s.busy = true) (h : (locate s.params a).guarded = true)
    (v : Word) : memWrite s a v = s.dropWrite := by
  unfold memWrite
  cases hl : locate s.params a with rw [hl] at h
  | reg r => rw [Loc.guarded] at h; simp only [hb, h, Bool.and_self, if_true]
  | src i => exact if_pos hb
  | dst i | reserved => cases h

/-- STATUS and IRQ_EN are the only locations that are not guarded and that a write can change (R41). -/
theorem memWrite_of_not_guarded {s : State} {a : Offset} (h : (locate s.params a).guarded = false)
    (hstatus : locate s.params a ≠ .reg .status) (hirq : locate s.params a ≠ .reg .irqEn) (v : Word) :
    memWrite s a v = s := by
  cases hl : locate s.params a with rw [hl] at h hstatus hirq
  | reg r =>
    rw [memWrite_reg_of_unguarded hl h]
    cases r with
    | status => exact absurd rfl hstatus
    | irqEn => exact absurd rfl hirq
    | dstLen | result | echo => rfl
    | _ => cases h
  | src i => cases h
  | dst i => rw [memWrite, hl]
  | reserved => exact memWrite_reserved hl v

/-- The bits of a register that read 0 in every state: the reserved ones, and all of COMMAND's (R24, R25, R36). -/
def Reg.reservedBits : Reg → Word
  | .command => 0xFFFFFFFF
  | .status => 0xFFFFF0F8
  | .irqEn => 0xFFFFFFFE
  | .srcLen | .dstLen | .result | .counter | .macHi => 0xFFFF0000
  | .echo | .devid | .macLo | .key _ | .iv _ => 0

/-- A field of `w` bits at bit `k` of a word is 0 outside its bits. -/
theorem field_and_eq_zero {w n : Nat} (x : BitVec w) (k : Nat) (m : BitVec n) (h : (m >>> k).setWidth w = 0) :
    (x.setWidth n <<< k) &&& m = 0 := by
  ext i hi
  have hm := congrArg (·.getLsbD (i - k)) h
  simp only [BitVec.getLsbD_setWidth, BitVec.getLsbD_ushiftRight] at hm
  simp only [BitVec.getElem_and, BitVec.getElem_shiftLeft, BitVec.getElem_setWidth]
  by_cases hk : i < k
  · simp [hk]
  · by_cases hx : x.getLsbD (i - k) = true
    · have hw := BitVec.lt_of_getLsbD hx
      have hbit : m[i] = false := by simpa [hw, show k + (i - k) = i by omega, BitVec.getLsbD_eq_getElem hi] using hm
      simp [hbit]
    · simp [hx]

theorem setWidth_and_eq_zero {w n : Nat} (x : BitVec w) (m : BitVec n) (h : m.setWidth w = 0) :
    x.setWidth n &&& m = 0 := by
  simpa using field_and_eq_zero x 0 m (by simpa using h)

theorem readReg_and_reservedBits (s : State) (r : Reg) : readReg s r &&& r.reservedBits = 0 := by
  have field16 (x : Half) : x.setWidth 32 &&& 0xFFFF0000 = 0 := setWidth_and_eq_zero x _ (by decide)
  cases r with
  | command => exact BitVec.zero_and
  | status =>
    simp only [readReg, State.statusWord, Reg.reservedBits, BitVec.and_or_distrib_right]
    rw [setWidth_and_eq_zero (BitVec.ofBool s.busy) 0xFFFFF0F8 (by decide),
      field_and_eq_zero (BitVec.ofBool s.done) 1 0xFFFFF0F8 (by decide),
      field_and_eq_zero (BitVec.ofBool s.ovr) 2 0xFFFFF0F8 (by decide),
      field_and_eq_zero s.err 8 0xFFFFF0F8 (by decide)]
    rfl
  | irqEn => exact setWidth_and_eq_zero (BitVec.ofBool s.doneIe) 0xFFFFFFFE (by decide)
  | srcLen | dstLen | result | counter | macHi => exact field16 _
  | echo | devid | macLo | key j | iv j => exact BitVec.and_zero

/-- A 16-bit register takes the low half of a word. -/
theorem setWidth_and_low (v : Word) : (v &&& 0x0000FFFF).setWidth 16 = v.setWidth 16 := by
  rw [BitVec.setWidth_and]
  exact BitVec.and_allOnes

/-- The bits of a word that a performed write of a register uses. -/
def Reg.usedBits : Reg → Word
  | .status => 0x00000006
  | .irqEn => 0x00000001
  | .srcLen | .counter | .macHi => 0x0000FFFF
  | .dstLen | .result | .echo => 0
  | .command | .devid | .macLo | .key _ | .iv _ => 0xFFFFFFFF

theorem writeReg_and_usedBits (s : State) (r : Reg) (v : Word) : writeReg s r (v &&& r.usedBits) = writeReg s r v := by
  cases r with
  | status => simp [writeReg, State.clearStatus, Reg.usedBits]
  | irqEn => simp [writeReg, Reg.usedBits]
  | srcLen | counter | macHi => simp only [writeReg, Reg.usedBits, setWidth_and_low]
  | dstLen | result | echo => rfl
  | command | devid | macLo | key j | iv j => exact congrArg _ BitVec.and_allOnes

/-- The reserved bits of a register read 0 (R36). -/
theorem memRead_and_reservedBits (s : State) {a : Offset} (r : Reg) (h : wordOffset a = r.offset) :
    memRead s a &&& r.reservedBits = 0 := by
  rw [memRead_reg (locate_eq_reg_iff.2 h), readReg_and_reservedBits]

/-- A write of a register, dropped or performed, uses no other bits of the word (R36). -/
theorem memWrite_and_usedBits (s : State) {a : Offset} (r : Reg) (h : wordOffset a = r.offset) (v : Word) :
    memWrite s a v = memWrite s a (v &&& r.usedBits) := by
  have hl : locate s.params a = .reg r := locate_eq_reg_iff.2 h
  rw [memWrite_reg hl, memWrite_reg hl, writeReg_and_usedBits]

/-! ### The statements about guarded and reserved locations -/

/-- Settles O45: the address map says which of the guarded, the two accepted and the other locations an offset is. -/
theorem guardedWritesAreDroppedWhileBusy : Obligations.GuardedWritesAreDroppedWhileBusy := by
  unfold Obligations.GuardedWritesAreDroppedWhileBusy
  intro s a v hp
  have hstatus : locate s.params a = .reg .status ↔ a.toNat / 4 * 4 = 0x004 := locate_eq_reg_iff
  have hirqEn : locate s.params a = .reg .irqEn ↔ a.toNat / 4 * 4 = 0x008 := locate_eq_reg_iff
  rw [guardedOffset_eq_guarded hp, ne_eq, ne_eq, ← hstatus, ← hirqEn]
  exact ⟨fun hb hg => memWrite_of_guarded hb hg v,
    fun hl => memWrite_reg_of_unguarded hl rfl v,
    fun hl => memWrite_reg_of_unguarded hl rfl v,
    fun hg hs hi => memWrite_of_not_guarded hg hs hi v⟩

/-- Settles O46: a reserved offset is the map's reserved location, and a register's access uses no reserved bit. -/
theorem reservedReadsZeroAndIgnoresWrites : Obligations.ReservedReadsZeroAndIgnoresWrites := by
  unfold Obligations.ReservedReadsZeroAndIgnoresWrites
  refine ⟨fun s a v hp hr => ?_, fun s => ?_, fun s v => ?_⟩
  · have hl := (locate_eq_reserved_iff hp).2 hr
    exact ⟨memRead_reserved hl, memWrite_reserved hl v⟩
  · exact ⟨memRead_reg (r := .command) (locate_eq_reg_iff.2 rfl), memRead_and_reservedBits s .status rfl,
      memRead_and_reservedBits s .irqEn rfl, memRead_and_reservedBits s .srcLen rfl,
      memRead_and_reservedBits s .dstLen rfl, memRead_and_reservedBits s .result rfl,
      memRead_and_reservedBits s .counter rfl, memRead_and_reservedBits s .macHi rfl⟩
  · exact ⟨memWrite_and_usedBits s .status rfl v, memWrite_and_usedBits s .irqEn rfl v,
      memWrite_and_usedBits s .srcLen rfl v, memWrite_and_usedBits s .counter rfl v,
      memWrite_and_usedBits s .macHi rfl v⟩

end Sys2Proof.Machine
end

section
/-! SUPPORT. The two buffer windows: where their words go, what a read and a write of a word do to each byte, and the
statements about the windows and the decoded offset bits (20_memory.md R61, R62, R65, R66). -/

namespace Sys2Proof.Machine

/-! ### The decoded offset bits -/

/-- Offset bits 1:0 do not reach the address map (R61). -/
theorem wordOffset_and_mask (a : Offset) : wordOffset (a &&& 0x3FFC) = wordOffset a := by
  have hlt : a.toNat / 4 < 2 ^ 12 := by omega
  have hword : (a.toNat &&& 0x3FFC) / 4 = a.toNat / 4 := by
    calc (a.toNat &&& 0x3FFC) / 4
      _ = a.toNat / 4 &&& (2 ^ 12 - 1) := Nat.and_div_two_pow (n := 2)
      _ = a.toNat / 4 := by rw [Nat.and_two_pow_sub_one_eq_mod, Nat.mod_eq_of_lt hlt]
  exact congrArg (· * 4) hword

theorem locate_congr (p : Params) {a b : Offset} (h : wordOffset a = wordOffset b) : locate p a = locate p b := by
  simp only [locate, h]

theorem memRead_congr (s : State) {a b : Offset} (h : wordOffset a = wordOffset b) : memRead s a = memRead s b := by
  simp only [memRead, locate_congr s.params h]

theorem memWrite_congr (s : State) {a b : Offset} (h : wordOffset a = wordOffset b) (v : Word) :
    memWrite s a v = memWrite s b v := by
  simp only [memWrite, locate_congr s.params h]

/-- Settles O49: an access depends on its word offset only, and the mask keeps the word offset. -/
theorem offsetLowBitsAreIgnored : Obligations.OffsetLowBitsAreIgnored := by
  unfold Obligations.OffsetLowBitsAreIgnored
  intro s a v
  have h := (wordOffset_and_mask a).symm
  exact ⟨memRead_congr s h, memWrite_congr s h v⟩

/-! ### The words of the two windows -/

/-- A word-aligned offset inside the window is its own word offset. -/
theorem wordOffset_ofNat {n : Nat} (hw : n % 4 = 0) (hn : n < 0x4000) : wordOffset (BitVec.ofNat 14 n) = n := by
  rw [wordOffset, BitVec.toNat_ofNat, Nat.mod_eq_of_lt hn]
  omega

theorem locate_srcWord (p : Params) {j : Nat} (hj : 4 * j < 0x1000) :
    locate p (BitVec.ofNat 14 (0x1000 + 4 * j)) = if 4 * j < p.bufBytes then .src (4 * j) else .reserved := by
  simp only [locate, wordOffset_ofNat (n := 0x1000 + 4 * j) (by omega) (by omega)]
  rw [if_neg (by omega), if_pos (by omega), Nat.add_sub_cancel_left]

theorem locate_dstWord (p : Params) {j : Nat} (hj : 4 * j < 0x1000) :
    locate p (BitVec.ofNat 14 (0x2000 + 4 * j)) = if 4 * j < p.bufBytes then .dst (4 * j) else .reserved := by
  simp only [locate, wordOffset_ofNat (n := 0x2000 + 4 * j) (by omega) (by omega)]
  rw [if_neg (by omega), if_neg (by omega), if_pos (by omega), Nat.add_sub_cancel_left]

theorem memRead_src {s : State} {a : Offset} {i : Nat} (h : locate s.params a = .src i) :
    memRead s a = bytesWord (s.src.read i 4 s.tick) := by rw [memRead, h]

theorem memRead_dst {s : State} {a : Offset} {i : Nat} (h : locate s.params a = .dst i) :
    memRead s a = bytesWord (s.dst.read i 4 s.tick) := by rw [memRead, h]

/-- A write of a SRC word is performed while BUSY = 0; the one while BUSY = 1 is `memWrite_of_guarded` (R41). -/
theorem memWrite_src {s : State} {a : Offset} {i : Nat} (h : locate s.params a = .src i) (hb : s.busy = false)
    (v : Word) : memWrite s a v = s.storeSrc i (wordBytes v) := by
  rw [memWrite, h]
  exact if_neg (ne_true_of_eq_false hb)

theorem memWrite_dst {s : State} {a : Offset} {i : Nat} (h : locate s.params a = .dst i) (v : Word) :
    memWrite s a v = s := by rw [memWrite, h]

/-! ### The bytes of a word -/

/-- Byte k of a bus word stands in bits 8k+7 to 8k (R62). -/
theorem extractLsb'_bytesWord (bs : List Byte) {k : Nat} (hk : k < 4) :
    (bytesWord bs).extractLsb' (8 * k) 8 = bs.getD k 0 := by
  ext i hi
  simp only [bytesWord, BitVec.getElem_extractLsb', BitVec.getLsbD_append]
  interval_cases k <;> grind

theorem wordBytes_getElem? (v : Word) {k : Nat} (hk : k < 4) :
    (wordBytes v)[k]? = some (v.extractLsb' (8 * k) 8) := by
  interval_cases k <;> rfl

/-- A written byte shows in its lane of the word read, whatever the other bytes are (R65, R66). -/
theorem extractLsb'_bytesWord_read {m : Memory} {a k : Nat} {b : Byte} (hk : k < 4) (h : m.get? (a + k) = some b)
    (t : Nat) : (bytesWord (m.read a 4 t)).extractLsb' (8 * k) 8 = b := by
  rw [extractLsb'_bytesWord _ hk, List.getD_eq_getElem?_getD, Memory.read_getElem?, if_pos hk, Memory.readByte, h]
  rfl

/-- A byte sequence reads back from where it was written. -/
theorem Memory.read_setBytes_same (m : Memory) (a : Nat) (bs : List Byte) (t : Nat) :
    (m.setBytes a bs).read a bs.length t = bs :=
  Memory.read_eq_of_written fun i hi => by
    rw [Memory.get?_setBytes, if_pos (by omega), Nat.add_sub_cancel_left]

/-! ### The statements about the windows -/

/-- What a performed write of a SRC word stores: these four bytes, in index order, and no others (R65). -/
theorem get?_setBytes_wordBytes (m : Memory) (i : Nat) (v : Word) :
    (∀ k, k < 4 → (m.setBytes i (wordBytes v)).get? (i + k) = some (v.extractLsb' (8 * k) 8)) ∧
    ∀ x, x < i ∨ i + 4 ≤ x → (m.setBytes i (wordBytes v)).get? x = m.get? x := by
  have hlen := wordBytes_length v
  refine ⟨fun k hk => ?_, fun x hx => ?_⟩
  · rw [Memory.get?_setBytes, if_pos (by omega), Nat.add_sub_cancel_left, wordBytes_getElem? v hk]
  · rw [Memory.get?_setBytes, if_neg (by omega)]

/-- A performed write of a SRC word reads back whole: no byte of it is left unwritten (R65). -/
theorem memRead_memWrite_src {s : State} {a : Offset} {i : Nat} (hl : locate s.params a = .src i)
    (hb : s.busy = false) (v : Word) : memRead (memWrite s a v) a = v := by
  have hread : (s.src.setBytes i (wordBytes v)).read i 4 s.tick = wordBytes v :=
    Memory.read_setBytes_same s.src i (wordBytes v) s.tick
  rw [memWrite_src hl hb, memRead_src (s := s.storeSrc i (wordBytes v)) hl, State.storeSrc_src, State.storeSrc_tick,
    hread, bytesWord_wordBytes]

/-- Settles O47: a backed word is four bytes of SRC, and an unbacked one is the map's reserved location. -/
theorem srcWindowReadsAndWritesSrc : Obligations.SrcWindowReadsAndWritesSrc := by
  unfold Obligations.SrcWindowReadsAndWritesSrc
  intro s j v _ hj a
  have hloc : locate s.params a = if 4 * j < s.params.bufBytes then .src (4 * j) else .reserved :=
    locate_srcWord s.params hj
  refine ⟨fun hbacked => ?_, fun hunbacked => ?_⟩
  · have hl := hloc.trans (if_pos hbacked)
    refine ⟨fun k b hk hget => ?_, fun hb => memWrite_of_guarded hb (congrArg Loc.guarded hl) v, fun hb => ?_⟩
    · rw [memRead_src hl]
      exact extractLsb'_bytesWord_read hk hget s.tick
    · obtain ⟨hin, hout⟩ := get?_setBytes_wordBytes s.src (4 * j) v
      exact ⟨_, memWrite_src hl hb v, hin, hout, memRead_memWrite_src hl hb v⟩
  · have hl := hloc.trans (if_neg (Nat.not_lt.2 hunbacked))
    exact ⟨memRead_reserved hl, memWrite_reserved hl v⟩

/-- Settles O48: a backed word is four bytes of DST, and neither it nor an unbacked one takes a write. -/
theorem dstWindowReadsDst : Obligations.DstWindowReadsDst := by
  unfold Obligations.DstWindowReadsDst
  intro s j v _ hj a
  have hloc : locate s.params a = if 4 * j < s.params.bufBytes then .dst (4 * j) else .reserved :=
    locate_dstWord s.params hj
  by_cases hbacked : 4 * j < s.params.bufBytes
  · have hl := hloc.trans (if_pos hbacked)
    refine ⟨fun _ k b hk hget => ?_, fun hunbacked => absurd hbacked (Nat.not_lt.2 hunbacked), memWrite_dst hl v⟩
    rw [memRead_dst hl]
    exact extractLsb'_bytesWord_read hk hget s.tick
  · have hl := hloc.trans (if_neg hbacked)
    exact ⟨fun h => absurd h hbacked, fun _ => memRead_reserved hl, memWrite_reserved hl v⟩

end Sys2Proof.Machine
end

section
/-! SUPPORT. The opcode map's rows: what each one fixes of a word and that no word selects two of them, and the statements
about exact matching and the illegal words' fields (30_encoding.md R91, R93, R94). -/

namespace Sys2Proof

/-! ### One row at most -/

/-- The matches of two different rows differ in a bit that both masks look at. -/
theorem opcodeRows_pairwise_distinguished :
    opcodeRows.Pairwise fun r q => r.pat &&& q.mask ≠ q.pat &&& r.mask := by decide

theorem OpRow.selects_iff {r : OpRow} {w : Word} : r.selects w = true ↔ w &&& r.mask = r.pat := beq_iff_eq

/-- Two rows that select one word have matches that agree on the bits both masks look at. -/
theorem OpRow.pat_and_mask_eq_of_selects {r q : OpRow} {w : Word} (hr : r.selects w = true) (hq : q.selects w = true) :
    r.pat &&& q.mask = q.pat &&& r.mask := by
  rw [← OpRow.selects_iff.1 hr, ← OpRow.selects_iff.1 hq, BitVec.and_assoc, BitVec.and_assoc, BitVec.and_comm r.mask]

/-- No word selects two rows (R93). -/
theorem length_filter_selects_le_one (w : Word) : (opcodeRows.filter fun r => r.selects w).length ≤ 1 := by
  have hpair := opcodeRows_pairwise_distinguished.filter fun r => r.selects w
  have hsel : ∀ r ∈ opcodeRows.filter fun r => r.selects w, r.selects w = true := fun r hr => (List.mem_filter.1 hr).2
  generalize (opcodeRows.filter fun r => r.selects w) = rows at hpair hsel ⊢
  match rows with
  | [] | [_] => simp
  | r :: q :: rest =>
    have hdiff := List.rel_of_pairwise_cons hpair List.mem_cons_self
    exact absurd (OpRow.pat_and_mask_eq_of_selects (hsel r (by simp)) (hsel q (by simp))) hdiff

theorem find?_selects_eq_some {r : OpRow} {w : Word} (hr : r ∈ opcodeRows) (hs : r.selects w = true) :
    opcodeRows.find? (fun r => r.selects w) = some r := by
  have hmem : r ∈ opcodeRows.filter fun r => r.selects w := List.mem_filter.2 ⟨hr, hs⟩
  obtain ⟨q, hq⟩ := List.length_eq_one_iff.1
    (Nat.le_antisymm (length_filter_selects_le_one w) (List.length_pos_of_mem hmem))
  rw [hq, List.mem_singleton] at hmem
  rw [← List.head?_filter, hq, hmem, List.head?_singleton]

/-- A word decodes to the command of the row it selects, and to no other (R93). -/
theorem decode_eq_ok_iff {w : Word} {i : Instr} :
    decode w = .ok i ↔ ∃ r ∈ opcodeRows, r.selects w = true ∧ i = r.build (arg0Of w) (arg1Of w) := by
  constructor
  · intro h
    unfold decode at h
    split at h
    next r hr =>
      cases h
      exact ⟨r, List.mem_of_find?_eq_some hr, List.find?_some (p := (OpRow.selects · w)) hr, rfl⟩
    next => cases h
  · rintro ⟨r, hr, hs, rfl⟩
    rw [decode, find?_selects_eq_some hr hs]

/-- A word is illegal when it selects no row (R94). -/
theorem exists_decode_eq_error_iff {w : Word} :
    (∃ e, decode w = .error e) ↔ ¬ ∃ r ∈ opcodeRows, r.selects w = true := by
  have hok : (∃ i, decode w = .ok i) ↔ ∃ r ∈ opcodeRows, r.selects w = true := by
    simp only [decode_eq_ok_iff]
    exact ⟨fun ⟨_, r, hr, hs, _⟩ => ⟨r, hr, hs⟩, fun ⟨r, hr, hs⟩ => ⟨_, r, hr, hs, rfl⟩⟩
  rw [← hok]
  cases decode w <;> simp

/-! ### The fields a row fixes -/

/-- A row's match is its opcode alone, and its mask leaves out the ARG fields for FRAME_ENCODE only (R91, R93). -/
theorem pat_and_mask_of_mem_opcodeRows : ∀ r ∈ opcodeRows, r.pat = 0#8 ++ 0#8 ++ 0#8 ++ opOf r.pat ∧
    r.mask = if opOf r.pat = 0x11 then 0xFF0000FF else 0xFFFFFFFF := by decide

theorem selects_iff_fields {r : OpRow} (hr : r ∈ opcodeRows) {w : Word} : r.selects w = true ↔
    opOf w = opOf r.pat ∧ rsvdOf w = 0 ∧ (opOf w = 0x11 ∨ (arg0Of w = 0 ∧ arg1Of w = 0)) := by
  obtain ⟨hpat, hmask⟩ := pat_and_mask_of_mem_opcodeRows r hr
  rw [OpRow.selects_iff, hmask]
  by_cases hop : opOf r.pat = 0x11
  · have hfe : r.pat = 0x11 := by rw [hpat, hop]; rfl
    rw [if_pos hop, hop, hfe, selects_frameEncode_iff]
    tauto
  · have hne : opOf w = opOf r.pat → opOf w ≠ 0x11 := fun h => h ▸ hop
    rw [if_neg hop, and_ones, hpat, eq_fields_iff, ← hpat]
    tauto

theorem opcodes_eq_map : opcodes = opcodeRows.map fun r => opOf r.pat := by decide

/-- The legal words, field by field (R94). -/
theorem exists_selects_iff_fields {w : Word} : (∃ r ∈ opcodeRows, r.selects w = true) ↔
    opOf w ∈ opcodes ∧ rsvdOf w = 0 ∧ (opOf w = 0x11 ∨ (arg0Of w = 0 ∧ arg1Of w = 0)) := by
  rw [opcodes_eq_map, List.mem_map]
  constructor
  · rintro ⟨r, hr, hs⟩
    obtain ⟨hop, hrest⟩ := (selects_iff_fields hr).1 hs
    exact ⟨⟨r, hr, hop.symm⟩, hrest⟩
  · rintro ⟨⟨r, hr, hop⟩, hrest⟩
    exact ⟨r, hr, (selects_iff_fields hr).2 ⟨hop.symm, hrest⟩⟩

/-- The illegal words, field by field (R94). -/
theorem exists_decode_eq_error_iff_fields {w : Word} : (∃ e, decode w = .error e) ↔
    opOf w ∉ opcodes ∨ rsvdOf w ≠ 0 ∨ (opOf w ≠ 0x11 ∧ (arg0Of w ≠ 0 ∨ arg1Of w ≠ 0)) := by
  rw [exists_decode_eq_error_iff, exists_selects_iff_fields]
  tauto

end Sys2Proof

namespace Sys2Proof.Machine

/-- Settles O3: the ten disjuncts are the map's rows, and different rows differ in a bit that both masks look at. -/
theorem decodingIsByExactMatch : Obligations.DecodingIsByExactMatch := by
  unfold Obligations.DecodingIsByExactMatch
  refine ⟨fun w i => ?_, length_filter_selects_le_one⟩
  simp only [decode_eq_ok_iff, opcodeRows, List.exists_mem_cons_iff, List.not_mem_nil, false_and, exists_false,
    or_false, OpRow.selects_iff, rowF0, arg0Of, arg1Of]

end Sys2Proof.Machine
end

section
/-! SUPPORT. The life of a command: its issue, the success commit, and the statements about them and about an illegal word
(30_encoding.md R94, R96, R97). -/

namespace Sys2Proof.Machine

theorem locate_command (p : Params) : locate p 0x000 = .reg .command := locate_eq_reg_iff.2 rfl

/-- A write of COMMAND while BUSY = 0 is an issue (R96). -/
theorem memWrite_command_of_idle {s : State} (hb : s.busy = false) (v : Word) : memWrite s 0x000 v = s.issue v := by
  rw [memWrite_reg (locate_command s.params), hb, Bool.false_and, if_neg Bool.false_ne_true]
  rfl

/-- Settles O7: a write of COMMAND is an issue while the engine is idle, and dropped while it is busy. -/
theorem issueLatchesTheCommand : Obligations.IssueLatchesTheCommand := by
  unfold Obligations.IssueLatchesTheCommand
  exact fun s v => ⟨fun hb => memWrite_command_of_idle hb v,
    fun hb => memWrite_of_guarded hb (congrArg Loc.guarded (locate_command s.params)) v⟩

/-- Settles O4: the illegal words are those that select no row, one is issued like any other, and its command is the
error commit of ILLEGAL. -/
theorem illegalWordsRaiseIllegal : Obligations.IllegalWordsRaiseIllegal := by
  unfold Obligations.IllegalWordsRaiseIllegal
  exact ⟨fun _ => exists_decode_eq_error_iff_fields, fun _ w hb => memWrite_command_of_idle hb w,
    fun _ _ he => engineStep_of_illegal he⟩

/-- A register takes its staged value where there is one, and keeps its own otherwise (R97). -/
theorem getD_staged {α : Type} (staged : Option α) (old : α) :
    (∀ v, staged = some v → staged.getD old = v) ∧ (staged = none → staged.getD old = old) := by
  cases staged <;> simp

/-- The success commit writes the staged output over DST from index 0 on, with its length (10_state.md R38). -/
theorem State.commit_out {w : Staged} {bs : List Byte} (h : w.out = some bs) (s : State) :
    s.dst.Overwrites (s.commit w).dst bs ∧ (s.commit w).dstLen = BitVec.ofNat 16 bs.length := by
  rw [State.commit_dst, State.commit_dstLen, h]
  exact ⟨s.dst.overwrites_setBytes bs, rfl⟩

theorem State.commit_no_out {w : Staged} (h : w.out = none) (s : State) :
    (s.commit w).dst = s.dst ∧ (s.commit w).dstLen = s.dstLen := by
  rw [State.commit_dst, State.commit_dstLen, h]
  exact ⟨rfl, rfl⟩

/-- Settles O8: each staged register is the staged value or the old one, and DST is overwritten from index 0 on. -/
theorem successCommitAppliesStagedWrites : Obligations.SuccessCommitAppliesStagedWrites := by
  unfold Obligations.SuccessCommitAppliesStagedWrites
  intro w s
  obtain ⟨hresult, hresult'⟩ := getD_staged w.result s.result
  obtain ⟨hecho, hecho'⟩ := getD_staged w.echo s.echo
  obtain ⟨hcounter, hcounter'⟩ := getD_staged w.counter s.counter
  obtain ⟨hkey, hkey'⟩ := getD_staged w.key s.key
  obtain ⟨hiv, hiv'⟩ := getD_staged w.iv s.iv
  exact ⟨s.commit w, rfl, rfl, rfl, rfl, hresult, hresult', hecho, hecho', hcounter, hcounter', hkey, hkey', hiv, hiv',
    fun _ h => State.commit_out h s, fun h => State.commit_no_out h s, rfl⟩

end Sys2Proof.Machine
end

section
/-! SUPPORT. The three ends of a command that reads SRC: LEN on its input, an error its rule raises, its staged writes
(30_encoding.md R97, R99; 60_exceptions.md R243). -/

namespace Sys2Proof.Machine

/-- The error commit after `n` buffer bytes have been read (R243). -/
theorem State.fail_advance (e : Err) (n : Nat) (s : State) :
    (s.advance n).fail e = errorCommit s e.code e.value n := rfl

/-- Every command that reads SRC raises LEN when SRC_LEN is above BUF_BYTES (R99). -/
theorem exec_of_input_too_long {i : Instr} {s : State} (hi : readsSrc i = true) (h : s.params.bufBytes < s.inputLen) :
    exec i s = .next (errorCommit s 2 0 0) := by
  cases i with
  | nop | loadDefaults => exact absurd hi Bool.false_ne_true
  | csum | frameEncode code ver | frameDecode | aesCbcEnc | aesCbcDec | crc16 | hframeWrap | hframeCheck =>
    exact congrArg _ (runOnInput_of_gt h)

theorem runOnInput_of_raise {rule : State → List Byte → Verdict} {s : State} {e : Err}
    (hle : s.inputLen ≤ s.params.bufBytes) (h : rule s s.input = .raise e) :
    runOnInput rule s = errorCommit s e.code e.value s.inputLen := by
  rw [runOnInput_of_le hle, h, settle_raise, State.fail_advance]

theorem runOnInput_of_finish {rule : State → List Byte → Verdict} {s : State} {w : Staged}
    (hle : s.inputLen ≤ s.params.bufBytes) (h : rule s s.input = .finish w) :
    runOnInput rule s = (s.advance s.inputLen).commit w := by
  rw [runOnInput_of_le hle, h, settle_finish]

end Sys2Proof.Machine
end

section
/-! SUPPORT. The checksum as a byte sum, and the statements about Csum and CSUM (40_framer.md R120, R122). -/

namespace Sys2Proof.Machine

@[simp] theorem byteSum_nil : byteSum [] = 0 := rfl

@[simp] theorem byteSum_cons (b : Byte) (s : List Byte) : byteSum (b :: s) = b.toNat + byteSum s := by
  simp [byteSum]

/-- The accumulator of Csum after `s`, from any value: each byte is zero-extended and added (R120). -/
theorem foldl_add_setWidth_eq (s : List Byte) (acc : Half) :
    s.foldl (fun acc b => acc + b.setWidth 16) acc = acc + BitVec.ofNat 16 (byteSum s) := by
  induction s generalizing acc with
  | nil => simp
  | cons b s ih =>
    rw [List.foldl_cons, ih, byteSum_cons, BitVec.ofNat_add, BitVec.ofNat_toNat, BitVec.add_assoc]

theorem csum_eq (s : List Byte) : csum s = BitVec.ofNat 16 (0xBEAF + byteSum s) := by
  rw [csum, foldl_add_setWidth_eq, BitVec.ofNat_add]
  rfl

/-- Settles O29: the accumulator is the seed plus the byte sum, by induction on the sequence. -/
theorem csumIsTheByteSum : Obligations.CsumIsTheByteSum := by
  unfold Obligations.CsumIsTheByteSum
  exact csum_eq

/-- Settles O21: the rule stages RESULT alone, and Csum is the byte sum. -/
theorem csumSumsTheInput : Obligations.CsumSumsTheInput := by
  unfold Obligations.CsumSumsTheInput
  refine ⟨by decide, fun s => ⟨exec_of_input_too_long rfl, fun hle => ?_⟩⟩
  have hrun : exec .csum s = .next ((s.advance s.inputLen).commit { result := some (csum s.input) }) :=
    congrArg _ (runOnInput_of_finish hle rfl)
  rw [hrun, csum_eq]
  rfl

end Sys2Proof.Machine
end

section
/-! SUPPORT. The packet of FRAME_ENCODE field by field, and the statement about it (40_framer.md R123, R124, R126). -/

namespace Sys2Proof.Machine

/-! ### Slices and fields of a byte sequence -/

theorem slice_length {t : List Byte} {a b : Nat} (h : b ≤ t.length) : (slice t a b).length = b - a := by
  rw [slice, List.length_take, List.length_drop]
  omega

@[simp] theorem slice_self (t : List Byte) (a : Nat) : slice t a a = [] := by simp [slice]

theorem slice_eq_drop {t : List Byte} {b : Nat} (a : Nat) (h : t.length ≤ b) : slice t a b = t.drop a := by
  rw [slice, List.take_of_length_le (by rw [List.length_drop]; omega)]

/-- A field written into the part of a template that is still untouched: `head` stands for the first `p` bytes. -/
theorem putAt_append_drop {head t bs : List Byte} {p o q : Nat} (hp : head.length = p) (hpo : p ≤ o)
    (hq : o + bs.length = q) : putAt (head ++ t.drop p) o bs = head ++ slice t p o ++ bs ++ t.drop q := by
  subst hp hq
  have htake : (head ++ t.drop head.length).take o = head ++ slice t head.length o := by
    rw [List.take_append, List.take_of_length_le hpo, slice]
  have hdrop : (head ++ t.drop head.length).drop (o + bs.length) = t.drop (o + bs.length) := by
    rw [List.drop_append, List.drop_of_length_le (by omega), List.drop_drop, List.nil_append]
    congr 1
    omega
  rw [putAt, htake, hdrop]

/-- A field replaced by another of its length. -/
theorem putAt_append_append {head old bs rest : List Byte} {o : Nat} (ho : head.length = o)
    (hl : old.length = bs.length) : putAt (head ++ (old ++ rest)) o bs = head ++ (bs ++ rest) := by
  subst ho
  rw [putAt, List.take_left, ← List.append_assoc head old, ← hl, ← List.length_append, List.drop_left,
    List.append_assoc]

/-! ### The packet -/

/-- The machine fills the template in from left to right; what it leaves between two fields is the template's (R123). -/
theorem framePacket0_eq_packetFields {s : State} (h : s.params.hdrTemplate.length = 0x38) (code ver : Byte)
    (pt : List Byte) : framePacket0 s code ver pt = packetFields s code ver pt 0 := by
  have hs {a b : Nat} (hb : b ≤ 0x38) := slice_length (t := s.params.hdrTemplate) (a := a) (h ▸ hb)
  have hrest : s.params.hdrTemplate.drop 0x36 = slice s.params.hdrTemplate 0x36 0x38 := (slice_eq_drop _ h.le).symm
  rw [framePacket0, frameHeader, ← List.drop_zero (l := s.params.hdrTemplate), ← List.nil_append (List.drop 0 _),
    putAt_append_drop (p := 0x00) (q := 0x22), putAt_append_drop (p := 0x22) (q := 0x25),
    putAt_append_drop (p := 0x25) (q := 0x27), putAt_append_drop (p := 0x27) (q := 0x2a),
    putAt_append_drop (p := 0x2a) (q := 0x30), putAt_append_drop (p := 0x30) (q := 0x34),
    putAt_append_drop (p := 0x34) (q := 0x36), hrest, csum_eq]
  · simp only [packetFields, slice_self, List.append_nil, List.nil_append]
    rfl
  -- each field's side conditions: the length of the part filled in so far, and where the field begins and ends
  all_goals simp [hs]

/-- The checksum goes into its own field and changes no other (R124). -/
theorem putAt_packetFields {s : State} (h : s.params.hdrTemplate.length = 0x38) (code ver : Byte) (pt : List Byte)
    (old cs : Half) : putAt (packetFields s code ver pt old) 0x20 (le16 cs) = packetFields s code ver pt cs := by
  simp only [packetFields, List.append_assoc]
  exact putAt_append_append (slice_length (by omega)) rfl

/-- The packet is the header and the padded payload's ciphertext (R124). -/
theorem packetFields_length {s : State} (h : s.params.hdrTemplate.length = 0x38) (code ver : Byte) (src : List Byte)
    (cs : Half) : (packetFields s code ver (paddedPayload src) cs).length = 0x38 + pad16 src.length := by
  have hlen := framePacket0_length h code ver src
  rw [framePacket0_eq_packetFields h] at hlen
  rw [← putAt_packetFields h code ver _ 0, putAt_length (by rw [hlen, le16_length]; omega), hlen]

/-! ### The command -/

/-- FRAME_ENCODE's row leaves both ARG bytes free (30_encoding.md R91, R92). -/
theorem decode_encode_frameEncode (code ver : Byte) :
    decode (encode (.frameEncode code ver)) = .ok (.frameEncode code ver) := by
  obtain ⟨hop, hcode, hver, hrsvd⟩ := (eq_fields_iff _ _ _ _ _).1 (Laws.encode_frameEncode code ver)
  rw [decode_eq_ok_iff]
  refine ⟨⟨0xFF0000FF, 0x11, fun code ver => .frameEncode code ver⟩, by simp [opcodeRows], ?_, ?_⟩
  · exact OpRow.selects_iff.2 ((selects_frameEncode_iff _).2 ⟨hrsvd, hop⟩)
  · rw [hcode, hver]

theorem ruleFrameEncode_of_gt {s : State} {src : List Byte} (h : s.params.bufBytes < 0x38 + pad16 src.length)
    (code ver : Byte) : ruleFrameEncode code ver s src = .raise .len := if_pos h

/-- What FRAME_ENCODE stages when its packet fits (R124, R126). -/
theorem ruleFrameEncode_of_le {s : State} {src : List Byte} (ht : s.params.hdrTemplate.length = 0x38)
    (h : 0x38 + pad16 src.length ≤ s.params.bufBytes) (code ver : Byte) :
    let cs := csum (packetFields s code ver (paddedPayload src) 0)
    ruleFrameEncode code ver s src = .finish
      { result := some cs
        out := some (packetFields s code ver (paddedPayload src) cs)
        counter := some (s.counter + 1) } := by
  simp only [ruleFrameEncode, Config.hdrLen, if_neg (Nat.not_lt.2 h), framePacket0_eq_packetFields ht,
    putAt_packetFields ht]

theorem paddedPayload_input (s : State) :
    paddedPayload s.input = s.input ++ List.replicate (pad16 s.inputLen - s.inputLen) 0 := by
  rw [paddedPayload, State.input_length]

/-- Settles O22: the rule's packet is the packet of the fields, and its commit overwrites DST with it. -/
theorem frameEncodeBuildsThePacket : Obligations.FrameEncodeBuildsThePacket := by
  unfold Obligations.FrameEncodeBuildsThePacket
  refine ⟨decode_encode_frameEncode, fun s code ver hwf =>
    ⟨exec_of_input_too_long rfl, fun hle hbig => ?_, fun hfit => ?_⟩⟩
  · rw [← State.input_length] at hbig
    exact congrArg _ (runOnInput_of_raise hle (ruleFrameEncode_of_gt hbig code ver))
  · have hle : s.inputLen ≤ s.params.bufBytes := by have := le_pad16 s.inputLen; omega
    have ht := hdrTemplate_length hwf
    have hlen (cs : Half) := packetFields_length ht code ver s.input cs
    have hrule := ruleFrameEncode_of_le (src := s.input) ht (by rwa [State.input_length]) code ver
    intro pt w pkt
    rw [csum_eq] at hrule
    rw [State.input_length] at hlen
    rw [paddedPayload_input] at hrule hlen
    refine ⟨_, s.dst.overwrites_setBytes pkt, hlen w, ?_⟩
    rw [← hlen w]
    exact congrArg _ (runOnInput_of_finish hle hrule)

end Sys2Proof.Machine
end

section
/-! SUPPORT. The reply's error code as a number, the branches of FRAME_DECODE in their order, and the statement about it
(40_framer.md R128, R132). -/

namespace Sys2Proof.Machine

/-- The 16-bit value of two bytes, low byte first, as a number (00_scope.md R11). -/
theorem rdLE16_toNat (s : List Byte) (o : Nat) :
    (rdLE16 s o).toNat = (s.getD o 0).toNat + 256 * (s.getD (o + 1) 0).toNat := by
  have hlo : ((s.getD o 0).setWidth 16).toNat = (s.getD o 0).toNat := BitVec.toNat_setWidth_of_le (by decide)
  have hhi : ((s.getD (o + 1) 0).setWidth 16 <<< 8).toNat = (s.getD (o + 1) 0).toNat <<< 8 := by
    have hlt : (s.getD (o + 1) 0).toNat <<< 8 < 2 ^ 16 := by rw [Nat.shiftLeft_eq]; omega
    rw [BitVec.toNat_shiftLeft, BitVec.toNat_setWidth_of_le (by decide), Nat.mod_eq_of_lt hlt]
  rw [rdLE16, BitVec.toNat_or, hlo, hhi, Nat.or_comm, ← Nat.shiftLeft_add_eq_or_of_lt (s.getD o 0).isLt,
    Nat.shiftLeft_eq]
  omega

theorem rdLE16_eq_ofNat (s : List Byte) (o : Nat) :
    rdLE16 s o = BitVec.ofNat 16 ((s.getD o 0).toNat + 256 * (s.getD (o + 1) 0).toNat) := by
  rw [← rdLE16_toNat, BitVec.ofNat_toNat, BitVec.setWidth_eq]

theorem rdLE16_eq_zero_iff (s : List Byte) (o : Nat) :
    rdLE16 s o = 0 ↔ (s.getD o 0).toNat + 256 * (s.getD (o + 1) 0).toNat = 0 := by
  rw [← rdLE16_toNat]
  exact BitVec.toNat_inj.symm

section
variable {s : State} {src : List Byte}

theorem ruleFrameDecode_of_short (h : src.length < 0x38) : ruleFrameDecode s src = .raise .trunc := if_pos h

theorem ruleFrameDecode_of_error (h : 0x38 ≤ src.length) (he : rdLE16 src s.params.errOffset ≠ 0) :
    ruleFrameDecode s src = .raise (.device (rdLE16 src s.params.errOffset)) := by
  rw [ruleFrameDecode_eq, if_neg (Nat.not_lt.2 h), if_pos he]

theorem ruleFrameDecode_of_ragged (h : 0x38 ≤ src.length) (he : rdLE16 src s.params.errOffset = 0)
    (hc : src.length - 0x38 = 0 ∨ (src.length - 0x38) % 16 ≠ 0) : ruleFrameDecode s src = .raise .malformed := by
  rw [ruleFrameDecode_eq, if_neg (Nat.not_lt.2 h), if_neg (not_not.2 he), if_pos hc]

theorem ruleFrameDecode_of_blocks (h : 0x38 < src.length) (he : rdLE16 src s.params.errOffset = 0)
    (hc : (src.length - 0x38) % 16 = 0) :
    ruleFrameDecode s src = .finish
      { result := some 0
        out := some ((cbcDec s.key s.iv (src.drop 0x38)).drop 4)
        echo := some (bytesWord ((cbcDec s.key s.iv (src.drop 0x38)).take 4)) } := by
  rw [ruleFrameDecode_eq, if_neg (by omega), if_neg (not_not.2 he), if_neg (by omega)]

end

/-- Settles O23: one clause for each branch of the rule, and the plaintext is as long as the ciphertext. -/
theorem frameDecodeSplitsTheReply : Obligations.FrameDecodeSplitsTheReply := by
  unfold Obligations.FrameDecodeSplitsTheReply
  refine ⟨by decide, fun s _ => ?_⟩
  have hn := State.input_length s
  have he := rdLE16_eq_ofNat s.input s.params.errOffset
  have he0 := rdLE16_eq_zero_iff s.input s.params.errOffset
  intro n e pt
  refine ⟨exec_of_input_too_long rfl, fun hle hshort => ?_, fun hle hlong hdev => ?_, fun hle hlong hok hragged => ?_,
    fun hle hlong hok hblocks => ?_⟩
  · exact congrArg _ (runOnInput_of_raise hle (ruleFrameDecode_of_short (hn ▸ hshort)))
  · rw [← he]
    exact congrArg _ (runOnInput_of_raise hle (ruleFrameDecode_of_error (hn ▸ hlong) (mt he0.1 hdev)))
  · exact congrArg _ (runOnInput_of_raise hle (ruleFrameDecode_of_ragged (hn ▸ hlong) (he0.2 hok) (by omega)))
  · have hrule := ruleFrameDecode_of_blocks (s := s) (hn ▸ hlong) (he0.2 hok) (hn ▸ hblocks)
    have hct : s.input.drop 0x38 = slice s.input 0x38 n := (slice_eq_drop _ hn.le).symm
    have hctlen : (slice s.input 0x38 n).length = n - 0x38 := slice_length hn.ge
    have hptlen : pt.length = n - 0x38 := by rw [cbcDec_length _ _ (hctlen ▸ hblocks), hctlen]
    have hout : slice pt 4 (n - 0x38) = pt.drop 4 := slice_eq_drop 4 hptlen.le
    have hlen : (slice pt 4 (n - 0x38)).length = n - 0x38 - 4 := slice_length hptlen.ge
    rw [hct] at hrule
    refine ⟨_, s.dst.overwrites_setBytes _, hlen, ?_⟩
    rw [← hlen, hout]
    exact congrArg _ (runOnInput_of_finish hle hrule)

end Sys2Proof.Machine
end

section
/-! SUPPORT. The one rule that both cipher commands are, and the statements about AES_CBC_ENC, AES_CBC_DEC and LOAD_DEFAULTS
(41_crypto.md R175, R176, R177). -/

namespace Sys2Proof.Machine

/-! ### The cipher commands -/

/-- What AES_CBC_ENC and AES_CBC_DEC have in common: the input must be whole blocks, and the mode's output goes to DST. -/
def ruleCbc (mode : Block → Block → List Byte → List Byte) (s : State) (src : List Byte) : Verdict :=
  if src.length % 16 ≠ 0 then .raise .align
  else .finish { result := some 0, out := some (mode s.key s.iv src) }

theorem exec_aesCbcEnc (s : State) : exec .aesCbcEnc s = .next (runOnInput (ruleCbc cbcEnc) s) := rfl

theorem exec_aesCbcDec (s : State) : exec .aesCbcDec s = .next (runOnInput (ruleCbc cbcDec) s) := rfl

/-- DST_LEN and SRC_LEN have the same width, so an output as long as the input gives DST_LEN the value of SRC_LEN. -/
theorem ofNat_inputLen (s : State) : BitVec.ofNat 16 s.inputLen = s.srcLen := by
  rw [State.inputLen, BitVec.ofNat_toNat, BitVec.setWidth_eq]

section
variable {mode : Block → Block → List Byte → List Byte} {s : State}

theorem ruleCbc_of_ragged {src : List Byte} (h : src.length % 16 ≠ 0) : ruleCbc mode s src = .raise .align := if_pos h

theorem ruleCbc_of_blocks {src : List Byte} (h : src.length % 16 = 0) :
    ruleCbc mode s src = .finish { result := some 0, out := some (mode s.key s.iv src) } := if_neg (not_not.2 h)

variable {i : Instr} (hi : exec i s = .next (runOnInput (ruleCbc mode) s)) (hle : s.inputLen ≤ s.params.bufBytes)
include hi hle

theorem exec_ruleCbc_of_ragged (hragged : s.inputLen % 16 ≠ 0) : exec i s = .next (errorCommit s 3 0 s.inputLen) := by
  rw [← State.input_length] at hragged
  rw [hi, runOnInput_of_raise hle (ruleCbc_of_ragged hragged)]
  rfl

/-- On whole blocks a mode that keeps the length leaves its output in DST, and DST_LEN is SRC_LEN (R174). -/
theorem exec_ruleCbc_of_blocks (hblocks : s.inputLen % 16 = 0)
    (hmode : s.input.length % 16 = 0 → (mode s.key s.iv s.input).length = s.input.length) :
    ∃ d, s.dst.Overwrites d (mode s.key s.iv s.input) ∧ (mode s.key s.iv s.input).length = s.inputLen ∧
      exec i s = .next { s with dst := d, dstLen := s.srcLen, result := 0, err := 0, done := true, busy := false,
                                tick := s.tick + s.inputLen } := by
  rw [← State.input_length] at hblocks
  have hlen : (mode s.key s.iv s.input).length = s.inputLen := by rw [hmode hblocks, State.input_length]
  refine ⟨_, s.dst.overwrites_setBytes _, hlen, ?_⟩
  rw [hi, runOnInput_of_finish hle (ruleCbc_of_blocks hblocks)]
  simp [State.commit, State.advance, hlen, ofNat_inputLen]

end

/-- Settles O24: the shared rule with CBC encryption, which keeps the length of whole blocks. -/
theorem aesCbcEncEncryptsTheInput : Obligations.AesCbcEncEncryptsTheInput := by
  unfold Obligations.AesCbcEncEncryptsTheInput
  refine ⟨by decide, fun s => ⟨exec_of_input_too_long rfl, fun hle hragged => ?_, fun hle hblocks => ?_⟩⟩
  · exact exec_ruleCbc_of_ragged (exec_aesCbcEnc s) hle hragged
  · exact exec_ruleCbc_of_blocks (exec_aesCbcEnc s) hle hblocks (cbcEnc_length s.key s.iv)

/-- Settles O25: the shared rule with CBC decryption, which keeps the length of whole blocks whatever the key is. -/
theorem aesCbcDecDecryptsTheInput : Obligations.AesCbcDecDecryptsTheInput := by
  unfold Obligations.AesCbcDecDecryptsTheInput
  refine ⟨by decide, fun s => ⟨exec_of_input_too_long rfl, fun hle hragged => ?_, fun hle hblocks => ?_⟩⟩
  · exact exec_ruleCbc_of_ragged (exec_aesCbcDec s) hle hragged
  · exact exec_ruleCbc_of_blocks (exec_aesCbcDec s) hle hblocks (cbcDec_length s.key s.iv)

/-! ### LOAD_DEFAULTS -/

/-- LOAD_DEFAULTS is the success commit of the two parameters (R177). -/
theorem exec_loadDefaults (s : State) :
    exec .loadDefaults s = .next (s.commit { key := some s.params.defaultKey, iv := some s.params.ivConst }) := rfl

/-- Settles O20: the commit's record in every state; at reset KEY and IV hold the parameters already. -/
theorem loadDefaultsRestoresKeyAndIv : Obligations.LoadDefaultsRestoresKeyAndIv := by
  unfold Obligations.LoadDefaultsRestoresKeyAndIv
  refine ⟨by decide, fun s => ?_, fun p => ?_⟩
  · rw [exec_loadDefaults]
    rfl
  · rw [exec_loadDefaults]
    rfl

end Sys2Proof.Machine
end

section
/-! SUPPORT. The register that takes one bit a shift, between the machine's register and the unreflected one, and the
statements about Crc16 and CRC16 (42_crc.md R200, R202). -/

namespace Sys2Proof.Machine

/-! ### One bit through the reflected register -/

/-- One bit into the reflected register: the mirror image of `crcBit`. -/
def crcShiftIn (reg : Half) (bit : Bool) : Half :=
  if Bool.xor (reg.getLsbD 0) bit then (reg >>> 1) ^^^ 0xA001 else reg >>> 1

/-- 0x8005 reflected is 0xA001, and a shift to the left reflected is one to the right. -/
theorem reverse_crcBit (reg : Half) (bit : Bool) : (crcBit reg bit).reverse = crcShiftIn reg.reverse bit := by
  have hshift : (reg <<< 1).reverse = reg.reverse >>> 1 := by
    ext i hi
    simp [BitVec.getElem_reverse, BitVec.getMsbD_shiftLeft, BitVec.getLsbD_reverse, Nat.add_comm]
  have hxor (x y : Half) : (x ^^^ y).reverse = x.reverse ^^^ y.reverse := by
    ext i hi
    simp [BitVec.getElem_reverse, BitVec.getMsbD_xor]
  have hpoly : (0x8005 : Half).reverse = 0xA001 := by decide
  have hbit : reg.reverse.getLsbD 0 = reg.msb := by
    rw [BitVec.getLsbD_reverse, BitVec.msb]
  rw [crcBit, crcShiftIn, hbit, apply_ite BitVec.reverse, hxor, hshift, hpoly]

/-- A shift of the register with `x` XORed into it takes in bit 0 of `x`; the rest of `x` moves down and stays XORed in. -/
theorem crcShift_xor (reg x : Half) : crcShift (reg ^^^ x) = crcShiftIn reg (x.getLsbD 0) ^^^ (x >>> 1) := by
  rw [crcShift, crcShiftIn, BitVec.getLsbD_xor, BitVec.ushiftRight_xor_distrib, apply_ite (· ^^^ x >>> 1),
    BitVec.xor_assoc, BitVec.xor_comm (x >>> 1), ← BitVec.xor_assoc]

/-- The same for `n` shifts, which take in the `n` low bits of `x`. -/
theorem crcShifts_xor (n : Nat) (reg x : Half) :
    crcShifts n (reg ^^^ x) = ((List.range n).map x.getLsbD).foldl crcShiftIn reg ^^^ (x >>> n) := by
  induction n generalizing reg x with
  | zero => simp [crcShifts]
  | succ n ih =>
    have hbits : (List.range n).map (x >>> 1).getLsbD = (List.range n).map (x.getLsbD ∘ Nat.succ) :=
      List.map_congr_left fun i _ => by rw [BitVec.getLsbD_ushiftRight, Nat.add_comm]; rfl
    rw [crcShifts, crcShift_xor, ih, hbits, List.range_succ_eq_map, List.map_cons, List.map_map, List.foldl_cons,
      Nat.add_comm n, BitVec.shiftRight_add]

/-- A byte goes into the register least significant bit first; after 8 shifts nothing of it is left XORed in. -/
theorem crcByte_eq_foldl (reg : Half) (b : Byte) :
    crcByte reg b = ((List.range 8).map b.getLsbD).foldl crcShiftIn reg := by
  have hbits : (List.range 8).map (b.setWidth 16).getLsbD = (List.range 8).map b.getLsbD := by
    simp [List.range_succ]
  have hgone : b.setWidth 16 >>> 8 = 0#16 := by
    ext i hi
    simp
  rw [crcByte, crcShifts_xor, hbits, hgone, BitVec.xor_zero]

/-- The bytes one after another are their bits one after another, and 0xFFFF reflected is itself. -/
theorem crc16_eq (s : List Byte) : crc16 s = crcReference s := by
  have hinit : (0xFFFF : Half) = (0xFFFF : Half).reverse := by decide
  calc crc16 s
    _ = (reflectedBits s).foldl crcShiftIn 0xFFFF := by
      simp only [crc16, reflectedBits, List.foldl_flatMap, funext₂ crcByte_eq_foldl]
    _ = crcReference s := by
      rw [hinit, crcReference, List.foldl_hom BitVec.reverse fun reg bit => (reverse_crcBit reg bit).symm]

/-- Settles O31: the machine's register is at every bit the unreflected one with its bits reversed. -/
theorem crcRealisesItsParameters : Obligations.CrcRealisesItsParameters := by
  unfold Obligations.CrcRealisesItsParameters
  exact crc16_eq

/-- Settles O26: the rule stages RESULT alone, and Crc16 is the CRC of the parameters. -/
theorem crc16OfTheInput : Obligations.Crc16OfTheInput := by
  unfold Obligations.Crc16OfTheInput
  refine ⟨by decide, fun s => ⟨exec_of_input_too_long rfl, fun hle => ?_⟩⟩
  have hrun : exec .crc16 s = .next ((s.advance s.inputLen).commit { result := some (crc16 s.input) }) :=
    congrArg _ (runOnInput_of_finish hle rfl)
  rw [hrun, crc16_eq]
  rfl

end Sys2Proof.Machine
end

section
/-! SUPPORT. The HysenFrame: the length field's two bytes, the branches of HFRAME_CHECK in their order, and the statements
about HFRAME_WRAP and HFRAME_CHECK (42_crc.md R203, R204, R205). -/

namespace Sys2Proof.Machine

/-- The success commit of a rule that stages RESULT and an output of `m` bytes: DST begins with the output (R97). -/
theorem runOnInput_of_finish_out {rule : State → List Byte → Verdict} {s : State} {v : Half} {bs : List Byte} {m : Nat}
    (hle : s.inputLen ≤ s.params.bufBytes) (hm : bs.length = m)
    (h : rule s s.input = .finish { result := some v, out := some bs }) :
    ∃ d, s.dst.Overwrites d bs ∧ runOnInput rule s =
      { s with dst := d, dstLen := BitVec.ofNat 16 m, result := v, err := 0, done := true, busy := false,
               tick := s.tick + s.inputLen } := by
  subst hm
  exact ⟨_, s.dst.overwrites_setBytes bs, runOnInput_of_finish hle h⟩

/-! ### HFRAME_WRAP -/

/-- The two bytes of a 16-bit number, low byte first (00_scope.md R11). -/
theorem le16_ofNat (k : Nat) : le16 (BitVec.ofNat 16 k) = [BitVec.ofNat 8 k, BitVec.ofNat 8 (k % 65536 / 256)] := by
  have hlo : (BitVec.ofNat 16 k).extractLsb' 0 8 = BitVec.ofNat 8 k := by
    apply BitVec.eq_of_toNat_eq
    rw [BitVec.extractLsb'_toNat, BitVec.toNat_ofNat, BitVec.toNat_ofNat, Nat.shiftRight_zero]
    omega
  have hhi : (BitVec.ofNat 16 k).extractLsb' 8 8 = BitVec.ofNat 8 (k % 65536 / 256) := by
    apply BitVec.eq_of_toNat_eq
    rw [BitVec.extractLsb'_toNat, BitVec.toNat_ofNat, BitVec.toNat_ofNat, Nat.shiftRight_eq_div_pow]
  rw [le16, hlo, hhi]

theorem hysenFrame_length (q : List Byte) : (hysenFrame q).length = q.length + 4 := by
  simp only [hysenFrame, List.length_append, le16_length]
  omega

theorem hysenFrame_eq (q : List Byte) : hysenFrame q =
    [BitVec.ofNat 8 (q.length + 2), BitVec.ofNat 8 ((q.length + 2) % 65536 / 256)] ++ q ++ le16 (crcReference q) := by
  rw [hysenFrame, le16_ofNat, crc16_eq]

theorem ruleHframeWrap_of_gt {s : State} {src : List Byte} (h : s.params.bufBytes < src.length + 4) :
    ruleHframeWrap s src = .raise .len := if_pos h

theorem ruleHframeWrap_of_le {s : State} {src : List Byte} (h : src.length + 4 ≤ s.params.bufBytes) :
    ruleHframeWrap s src = .finish { result := some (crcReference src), out := some (hysenFrame src) } := by
  rw [← crc16_eq]
  exact if_neg (Nat.not_lt.2 h)

/-- Settles O27: the rule stages the HysenFrame, which is four bytes longer than the input. -/
theorem hframeWrapBuildsTheFrame : Obligations.HframeWrapBuildsTheFrame := by
  unfold Obligations.HframeWrapBuildsTheFrame
  refine ⟨by decide, fun s => ?_⟩
  have hn := s.input_length
  have hframe := hysenFrame_eq s.input
  rw [hn] at hframe
  refine ⟨exec_of_input_too_long rfl, fun hle hbig => ?_, fun hfit => ?_⟩
  · exact congrArg _ (runOnInput_of_raise hle (ruleHframeWrap_of_gt (hn ▸ hbig)))
  · have hlen : (hysenFrame s.input).length = s.inputLen + 4 := by rw [hysenFrame_length, hn]
    obtain ⟨d, hd, hrun⟩ := runOnInput_of_finish_out (by omega) hlen (ruleHframeWrap_of_le (hn ▸ hfit))
    exact ⟨d, hframe ▸ hd, congrArg _ hrun⟩

/-! ### HFRAME_CHECK -/

section
variable {s : State} {src : List Byte} {l : Nat} (hl : (rdLE16 src 0).toNat = l)
include hl

/-- A frame of fewer than 4 bytes, or whose length field does not fit it, is MALFORMED (R205). -/
theorem ruleHframeCheck_of_bad_length (h : src.length < 4 ∨ l < 2 ∨ src.length < l + 2) :
    ruleHframeCheck s src = .raise .malformed := by
  rw [ruleHframeCheck_eq, hl]
  by_cases h4 : src.length < 4
  · exact if_pos h4
  · rw [if_neg h4, if_pos (h.resolve_left h4)]

variable (h2 : 2 ≤ l) (hfit : l + 2 ≤ src.length)
include h2 hfit

theorem ruleHframeCheck_of_bad_crc (hc : crc16 (slice src 2 l) ≠ rdLE16 src l) :
    ruleHframeCheck s src = .raise (.crc (crc16 (slice src 2 l))) := by
  rw [ruleHframeCheck_eq, hl, if_neg (by omega), if_neg (by omega)]
  exact if_pos hc

theorem ruleHframeCheck_of_good_crc (hc : crc16 (slice src 2 l) = rdLE16 src l) :
    ruleHframeCheck s src =
      .finish { result := some (crc16 (slice src 2 l)), out := some (slice src 2 l) } := by
  rw [ruleHframeCheck_eq, hl, if_neg (by omega), if_neg (by omega)]
  exact if_neg (not_not.2 hc)

end

/-- Settles O28: one clause for each branch of the rule, with both 16-bit fields read as numbers. -/
theorem hframeCheckExtractsThePayload : Obligations.HframeCheckExtractsThePayload := by
  unfold Obligations.HframeCheckExtractsThePayload
  refine ⟨by decide, fun s => ?_⟩
  have hn := s.input_length
  intro n l q rx
  have hl : (rdLE16 s.input 0).toNat = l := rdLE16_toNat s.input 0
  have hc : crc16 q = rdLE16 s.input l ↔ (crcReference q).toNat = rx := by
    rw [crc16_eq, ← BitVec.toNat_inj, rdLE16_toNat]
  refine ⟨exec_of_input_too_long rfl, fun hle hbad => ?_, fun hle _ h2 hfit hbad => ?_, fun hle _ h2 hfit hgood => ?_⟩
  · exact congrArg _ (runOnInput_of_raise hle (ruleHframeCheck_of_bad_length hl (hn ▸ hbad)))
  · rw [← crc16_eq]
    exact congrArg _ (runOnInput_of_raise hle (ruleHframeCheck_of_bad_crc hl h2 (hn ▸ hfit) (mt hc.1 hbad)))
  · have hlen : q.length = l - 2 := slice_length (by omega)
    have hrule := ruleHframeCheck_of_good_crc (s := s) hl h2 (hn ▸ hfit) (hc.2 hgood)
    obtain ⟨d, hd, hrun⟩ := runOnInput_of_finish_out hle hlen hrule
    rw [← crc16_eq]
    exact ⟨d, hd, hlen, congrArg _ hrun⟩

end Sys2Proof.Machine
end

section
/-! SUPPORT. The one word of NOP, what STATUS reads after a successful command, and the statement about NOP (43_control.md
R230). -/

namespace Sys2Proof

/-- A word with OP = 0x00 and any other bit set is illegal: the other bit is in RSVD, ARG0 or ARG1 (R94). -/
theorem exists_decode_eq_error_of_opOf_zero {w : Word} (hop : opOf w = 0x00) (hw : w ≠ 0) :
    ∃ e, decode w = .error e := by
  have hzero : w = 0 ↔ opOf w = 0 ∧ arg0Of w = 0 ∧ arg1Of w = 0 ∧ rsvdOf w = 0 := eq_fields_iff w 0 0 0 0
  have hne : opOf w ≠ 0x11 := by
    rw [hop]
    decide
  rw [exists_decode_eq_error_iff_fields]
  tauto

end Sys2Proof

namespace Sys2Proof.Machine

/-- NOP is the success commit that stages nothing (R230). -/
theorem exec_nop (s : State) : exec .nop s = .next (s.commit {}) := rfl

theorem memRead_status (s : State) : memRead s 0x004 = s.statusWord :=
  memRead_reg (r := .status) (locate_eq_reg_iff.2 rfl)

/-- After a success commit STATUS reads DONE = 1 and 0 in every other bit, unless OVR was set before (R25, R97). -/
theorem statusWord_commit {s : State} (h : s.ovr = false) (w : Staged) : (s.commit w).statusWord = 0x00000002 := by
  rw [State.statusWord, State.commit_busy, State.commit_done, State.commit_ovr, State.commit_err, h]
  decide

/-- A success commit raises the interrupt exactly when it is enabled (R247). -/
theorem irq_commit (w : Staged) (s : State) : (s.commit w).irq = s.doneIe := by
  rw [State.irq, State.commit_done, State.commit_doneIe, Bool.true_and]

/-- Settles O19: the empty success commit, in every state. -/
theorem nopDoesNothingButComplete : Obligations.NopDoesNothingButComplete := by
  unfold Obligations.NopDoesNothingButComplete
  refine ⟨by decide, fun w => exists_decode_eq_error_of_opOf_zero, fun s => ⟨exec_nop s, fun t ht => ?_⟩⟩
  rw [exec_nop] at ht
  cases ht
  exact ⟨irq_commit {} s, fun hovr => (memRead_status _).trans (statusWord_commit hovr {})⟩

end Sys2Proof.Machine
end

section
/-! SUPPORT. The error commit as the verdict's errors reach it, the interrupt output after each change of DONE and DONE_IE,
and the statements about both (60_exceptions.md R243, R247). -/

namespace Sys2Proof.Machine

/-! ### The error commit -/

/-- A verdict that raises an error asks for the error commit with its code and its value (R243). -/
theorem settle_raise_eq_errorCommit (e : Err) (s : State) : settle (.raise e) s = errorCommit s e.code e.value 0 :=
  State.fail_advance e 0 s

/-- Only DEVICE and CRC record a value in RESULT (R243). -/
theorem Err.value_eq_zero {e : Err} (hdevice : e.code ≠ 6) (hcrc : e.code ≠ 7) : e.value = 0 := by
  cases e with
  | illegal | len | align | trunc | malformed => rfl
  | device c => exact absurd rfl hdevice
  | crc c => exact absurd rfl hcrc

/-- A command that ends with a nonzero ERR ended in an error commit: a success commit writes ERR 0 (R97, R243). -/
theorem exists_fail_of_err_ne_zero {i : Instr} {s t : State} (h : exec i s = .next t) (herr : t.err ≠ 0) :
    ∃ n e, t = (s.advance n).fail e := by
  cases endsIn_of_exec h with
  | success n w hw => exact absurd (State.commit_err w _) herr
  | error n e he => exact ⟨n, e, rfl⟩

/-- Settles O9: a nonzero ERR comes from an error commit, whose record and whose value give both claims. -/
theorem errorCommitChangesResultAndStatusOnly : Obligations.ErrorCommitChangesResultAndStatusOnly := by
  unfold Obligations.ErrorCommitChangesResultAndStatusOnly
  refine ⟨fun s => ?_, fun i s t h herr => ?_⟩
  · have hraise := fun e => settle_raise_eq_errorCommit e s
    exact ⟨hraise .illegal, hraise .len, hraise .align, hraise .trunc, hraise .malformed,
      fun c => hraise (.device c), fun c => hraise (.crc c)⟩
  · obtain ⟨n, e, rfl⟩ := exists_fail_of_err_ne_zero h herr
    exact ⟨rfl, Err.value_eq_zero⟩

/-! ### The interrupt output -/

/-- While DONE = 0 the interrupt is not asserted (R247). -/
theorem irq_of_not_done {s : State} (h : s.done = false) : s.irq = false := by
  rw [State.irq, h, Bool.false_and]

/-- An error commit raises the interrupt exactly when it is enabled, as a success commit does (R247). -/
theorem irq_fail (e : Err) (s : State) : (s.fail e).irq = s.doneIe := by
  rw [State.irq, State.fail_done, State.fail_doneIe, Bool.true_and]

/-- However a command ends, the interrupt then follows DONE_IE (R247). -/
theorem irq_of_exec {i : Instr} {s t : State} (h : exec i s = .next t) : t.irq = s.doneIe := by
  cases endsIn_of_exec h with
  | success n w hw => exact irq_commit w (s.advance n)
  | error n e he => exact irq_fail e (s.advance n)

/-- IRQ_EN is not guarded: a write of it sets DONE_IE, also while BUSY = 1 (R35, R41). -/
theorem memWrite_irqEn (s : State) (v : Word) : memWrite s 0x008 v = { s with doneIe := v.getLsbD 0 } :=
  memWrite_reg_of_unguarded (r := .irqEn) (locate_eq_reg_iff.2 rfl) rfl v

/-- STATUS is not guarded: a write of it clears DONE and OVR where it has a one, also while BUSY = 1 (R25, R41). -/
theorem memWrite_status (s : State) (v : Word) : memWrite s 0x004 v = s.clearStatus v :=
  memWrite_reg_of_unguarded (r := .status) (locate_eq_reg_iff.2 rfl) rfl v

/-- The step of the reset input (R270). -/
theorem step_of_reset {s : State} (h : nextTurn s = .reset) : step s = .next (resetTurn (popSched s)) := by
  rw [step, h, takeTurn]

/-- Settles O51: commits set DONE, a write of IRQ_EN replaces DONE_IE, and each of the other three clears DONE. -/
theorem interruptIsDoneAndEnable : Obligations.InterruptIsDoneAndEnable := by
  unfold Obligations.InterruptIsDoneAndEnable
  refine ⟨fun _ => rfl, fun _ _ _ => irq_of_exec, fun s v => ?irqEn, fun s v hv => ?status, fun s v hb => ?issue,
    fun s t hturn hstep => ?reset⟩
  case irqEn =>
    rw [memWrite_irqEn, State.irq]
  case status =>
    rw [memWrite_status]
    refine irq_of_not_done ?_
    rw [State.clearStatus_done, hv, Bool.not_true, Bool.and_false]
  case issue =>
    rw [memWrite_command_of_idle hb]
    exact irq_of_not_done (State.issue_done v s)
  case reset =>
    rw [step_of_reset hturn] at hstep
    cases hstep
    exact irq_of_not_done rfl

end Sys2Proof.Machine
end

section
/-! SUPPORT. The reset input's step in terms of the state after reset, and the statement about reset
(70_reset_and_hazards.md R270). -/

namespace Sys2Proof.Machine

/-- The reset input keeps three things only, the parameters, the count of buffer reads and the host agent, whose schedule
moves on; every other field, a command in flight among them, is that of the state after reset (R270). -/
theorem step_eq_resetOf {s : State} (h : nextTurn s = .reset) :
    step s = .next { State.resetOf s.params with
      tick := s.tick, host := { s.host with sched := s.host.sched.tail } } := by
  rw [step_of_reset h, popSched_eq, State.withHost, resetTurn]

/-- STATUS reads zero while each of its four fields is clear (R25). -/
theorem statusWord_of_clear {s : State} (hbusy : s.busy = false) (hdone : s.done = false) (hovr : s.ovr = false)
    (herr : s.err = 0) : s.statusWord = 0 := by
  rw [State.statusWord, hbusy, hdone, hovr, herr]
  decide

/-- Settles O54: the step of the reset input is the state after reset but for the tick and the host agent, so each
register is the one `State.resetOf` gives; IRQ follows from DONE = 0, and both buffers are empty. -/
theorem resetSetsEveryRegister : Obligations.ResetSetsEveryRegister := by
  unfold Obligations.ResetSetsEveryRegister
  refine ⟨fun s hturn => ⟨_, step_eq_resetOf hturn, ?input⟩, statusWord_of_clear rfl rfl rfl rfl, ?state⟩
  case input =>
    exact ⟨rfl, rfl, rfl, rfl, rfl, rfl, rfl, rfl, rfl, rfl, rfl, rfl, rfl, rfl, rfl, rfl,
      irq_of_not_done rfl, Memory.get?_nil, Memory.get?_nil⟩
  case state =>
    exact ⟨rfl, rfl, rfl, rfl, rfl, rfl, rfl, rfl, rfl, rfl, rfl,
      irq_of_not_done rfl, Memory.get?_nil, Memory.get?_nil⟩

end Sys2Proof.Machine
end

section
/-! SUPPORT. The two directions of decoding and encoding, and the statements about them and about the words of the opcode
map (30_encoding.md R91 to R93, R102). -/

namespace Sys2Proof.Machine

theorem decode_encode (i : Instr) : decode (encode i) = .ok i := by
  cases i with
  | frameEncode code ver => exact decode_encode_frameEncode code ver
  | nop | loadDefaults | csum | frameDecode | aesCbcEnc | aesCbcDec | crc16 | hframeWrap | hframeCheck => decide

/-- The word of the command a row builds is the word that selected it: an F0 row fixes all its bits, and the FE row
builds from the two bytes it leaves free (R91, R93). -/
theorem encode_build_of_selects {r : OpRow} (hr : r ∈ opcodeRows) {w : Word} (hs : r.selects w = true) :
    encode (r.build (arg0Of w) (arg1Of w)) = w := by
  have encode_rowF0 {i : Instr} (h : (rowF0 (encode i) i).selects w = true) : encode i = w :=
    (OpRow.selects_iff.1 h).symm.trans (and_ones w)
  simp only [opcodeRows, List.mem_cons, List.not_mem_nil, or_false] at hr
  rcases hr with rfl | rfl | rfl | rfl | rfl | rfl | rfl | rfl | rfl | rfl
  case inr.inr.inr.inl =>
    obtain ⟨hrsvd, hop⟩ := (selects_frameEncode_iff w).1 (OpRow.selects_iff.1 hs)
    have hw := word_eq_fields w
    rw [hrsvd, hop] at hw
    exact (Laws.encode_frameEncode _ _).trans hw.symm
  all_goals exact encode_rowF0 hs

theorem encode_of_decode {w : Word} {i : Instr} (h : decode w = .ok i) : encode i = w := by
  obtain ⟨r, hr, hs, rfl⟩ := decode_eq_ok_iff.1 h
  exact encode_build_of_selects hr hs

theorem wf_of_instr (i : Instr) : i.wf = true := by cases i <;> rfl

/-- Settles O2: each row's word decodes to its command, and a word that decodes selects the row of its command. -/
theorem decodeEncodeAgree : Obligations.DecodeEncodeAgree := by
  unfold Obligations.DecodeEncodeAgree
  exact ⟨fun i _ => decode_encode i, fun _ i h => ⟨wf_of_instr i, encode_of_decode h⟩⟩

/-- Settles O1: each of the ten words is the word of its command. -/
theorem specWordsDecode : Obligations.SpecWordsDecode := by
  unfold Obligations.SpecWordsDecode
  exact ⟨decode_encode .nop, decode_encode .loadDefaults, decode_encode .csum, decode_encode (.frameEncode 0x6a 0x2a),
    decode_encode .frameDecode, decode_encode .aesCbcEnc, decode_encode .aesCbcDec, decode_encode .crc16,
    decode_encode .hframeWrap, decode_encode .hframeCheck⟩

end Sys2Proof.Machine
end

section
/-! SUPPORT. What keeps the invariant: each commit, each host access and the reset input, and the statements about it
(10_state.md R33, R37, R38, R40; 70_reset_and_hazards.md R270). -/

namespace Sys2Proof.Machine

/-- The staged output of a command fits DST (10_state.md R33). -/
theorem StagedBy.length_out_le {i : Instr} {s : State} {w : Staged} (hw : StagedBy i s w) (hwf : s.params.wf = true)
    {bs : List Byte} (hbs : w.out = some bs) : bs.length ≤ s.params.bufBytes := by
  cases hi : writesDst i with
  | false => cases (hw.out hi).symm.trans hbs
  | true =>
    obtain ⟨bs', hbs', hle⟩ := hw.outSome hi
    cases hbs.symm.trans hbs'
    exact hle hwf

/-- DST_LEN holds the length of an output that fits DST. -/
theorem toNat_ofNat_length {p : Params} (hp : p.wf = true) {n : Nat} (h : n ≤ p.bufBytes) :
    (BitVec.ofNat 16 n).toNat = n := by
  have := bufBytes_le hp
  rw [BitVec.toNat_ofNat, Nat.mod_eq_of_lt (by omega)]

theorem isSome_get?_setBytes {m : Memory} {bs : List Byte} {i : Nat} (h : i < bs.length) :
    ((m.setBytes 0 bs).get? i).isSome = true := by
  rw [(m.overwrites_setBytes bs).1 i h, List.getElem?_eq_getElem h, Option.isSome_some]

theorem inv_fail {s : State} (e : Err) (h : s.Inv) : (s.fail e).Inv := by
  obtain ⟨hwf, hbuffers, houtput, -⟩ := h
  exact ⟨hwf, hbuffers, houtput, e.code_range.2, nofun⟩

/-- A success commit writes all bytes below its new DST_LEN, and none outside the buffer. -/
theorem inv_commit {s : State} {w : Staged} (h : s.Inv)
    (hfits : ∀ bs, w.out = some bs → bs.length ≤ s.params.bufBytes) : (s.commit w).Inv := by
  obtain ⟨hwf, ⟨hsrcWf, hdstWf, hsrcBelow, hdstBelow⟩, houtput, -⟩ := h
  cases hout : w.out with
  | none =>
    obtain ⟨hdst, hdstLen⟩ := State.commit_no_out hout s
    refine ⟨hwf, ?_, ?_, Nat.zero_le _, nofun⟩
    · rw [State.BuffersOk, hdst]
      exact ⟨hsrcWf, hdstWf, hsrcBelow, hdstBelow⟩
    · rw [State.OutputOk, hdst, hdstLen]
      exact houtput
  | some bs =>
    have hle := hfits bs hout
    have hdst : (s.commit w).dst = s.dst.setBytes 0 bs := by rw [State.commit_dst, hout]; rfl
    have hdstLen : (s.commit w).dstLen.toNat = bs.length := by
      rw [(State.commit_out hout s).2, toNat_ofNat_length hwf hle]
    refine ⟨hwf, ?_, ?_, Nat.zero_le _, nofun⟩
    · rw [State.BuffersOk, hdst]
      exact ⟨hsrcWf, Memory.wf_setBytes 0 bs hdstWf, hsrcBelow, Memory.below_setBytes 0 bs hdstBelow (by simpa using hle)⟩
    · rw [State.OutputOk, hdst, hdstLen]
      exact ⟨hle, fun i => isSome_get?_setBytes⟩

theorem inv_of_endsIn {i : Instr} {s t : State} (h : s.Inv) (he : EndsIn i s t) : t.Inv := by
  cases he with
  | success n w hw => exact inv_commit (s := s.advance n) h fun bs => hw.length_out_le h.1
  | error n e he => exact inv_fail (s := s.advance n) e h

theorem inv_of_engineStep {s t : State} (h : s.Inv) (ht : engineStep s = .next t) : t.Inv := by
  rcases engineStep_cases s with ⟨i, u, -, hu, -, he⟩ | ⟨e, -, hu⟩ <;> cases hu.symm.trans ht
  · exact inv_of_endsIn h he
  · exact inv_fail .illegal h

/-- An issue clears DONE as it sets BUSY, and a write of STATUS only clears DONE (10_state.md R25; 30_encoding.md R96). -/
theorem inv_writeReg {s : State} (r : Reg) (v : Word) (h : s.Inv) : (writeReg s r v).Inv := by
  obtain ⟨hwf, hbuffers, houtput, herr, hdone⟩ := h
  cases r with
  | command => exact ⟨hwf, hbuffers, houtput, herr, fun _ => rfl⟩
  | status =>
    refine ⟨hwf, hbuffers, houtput, herr, fun hb => ?_⟩
    exact (State.clearStatus_done v s).trans (by rw [hdone hb, Bool.false_and])
  | irqEn | srcLen | dstLen | result | echo | counter | devid | macLo | macHi | key j | iv j =>
    exact ⟨hwf, hbuffers, houtput, herr, hdone⟩

/-- A word of the SRC window is inside the buffer, whose size is a multiple of 4. -/
theorem inv_storeSrc {s : State} {a : Offset} {i : Nat} (v : Word) (hl : locate s.params a = .src i) (h : s.Inv) :
    (s.storeSrc i (wordBytes v)).Inv := by
  obtain ⟨hwf, ⟨hsrcWf, hdstWf, hsrcBelow, hdstBelow⟩, hrest⟩ := h
  obtain ⟨hlt, hmod, -⟩ := locate_src hl
  have hbuf := bufBytes_mod hwf
  have hle : i + (wordBytes v).length ≤ s.params.bufBytes := by rw [wordBytes_length]; omega
  exact ⟨hwf, ⟨Memory.wf_setBytes i _ hsrcWf, hdstWf, Memory.below_setBytes i _ hsrcBelow hle, hdstBelow⟩, hrest⟩

theorem inv_memWrite {s : State} (a : Offset) (v : Word) (h : s.Inv) : (memWrite s a v).Inv := by
  cases hl : locate s.params a with
  | reg r =>
    rw [memWrite_reg hl]
    split
    · exact h
    · exact inv_writeReg r v h
  | src i =>
    cases hb : s.busy with
    | true =>
      rw [memWrite_of_guarded hb (congrArg Loc.guarded hl)]
      exact h
    | false =>
      rw [memWrite_src hl hb]
      exact inv_storeSrc v hl h
  | dst i => rwa [memWrite_dst hl]
  | reserved => rwa [memWrite_reserved hl]

theorem inv_hostTurn {s : State} (h : s.Inv) : (hostTurn s).Inv := by
  rcases hostTurn_cases s with ⟨a, v, r, -, ht⟩ | ⟨k, n, ht⟩ <;> rw [ht]
  · exact inv_memWrite a v h
  · exact h

theorem inv_resetOf {p : Params} (hp : p.wf = true) : (State.resetOf p).Inv :=
  ⟨hp, ⟨rfl, rfl, rfl, rfl⟩, ⟨Nat.zero_le _, nofun⟩, Nat.zero_le _, nofun⟩

theorem inv_popSched {s : State} (h : s.Inv) : (popSched s).Inv := by
  rw [popSched_eq]
  exact h

/-- Settles O13: the engine's commits, the host's accesses and the reset input each keep the invariant. -/
theorem stepKeepsInvariant : Obligations.StepKeepsInvariant := by
  unfold Obligations.StepKeepsInvariant
  intro s t hs ht
  have hpop := inv_popSched hs
  rcases step_cases s with ⟨-, -, hstep⟩ | ⟨-, -, hstep⟩ | ⟨-, hstep⟩ | ⟨-, hstep⟩ <;> rw [hstep] at ht
  · exact inv_of_engineStep hpop ht
  · cases ht
    exact hpop
  · cases ht
    exact inv_hostTurn hpop
  · cases ht
    exact inv_resetOf hpop.1

/-- Settles O14: the state after reset has empty buffers, DST_LEN 0 and a clear STATUS. -/
theorem resetMeetsInvariant : Obligations.ResetMeetsInvariant := by
  unfold Obligations.ResetMeetsInvariant
  exact ⟨inv_resetOf (by decide), fun _ => inv_resetOf⟩

end Sys2Proof.Machine
end

section
/-! SUPPORT. Turns, steps and runs: the engine's turn, runs that never stop, and the statements about them (20_memory.md
R72, R76; 30_encoding.md R98, R99; 60_exceptions.md R244, R253; 70_reset_and_hazards.md R280). -/

namespace Sys2Proof.Machine

/-! ### Commands and their ends -/

/-- Settles O11: every command ends in a commit, and a commit sets DONE, clears BUSY and keeps DONE_IE. -/
theorem everyCommandCommits : Obligations.EveryCommandCommits := by
  unfold Obligations.EveryCommandCommits
  intro i s
  obtain ⟨t, ht, he⟩ := exec_endsIn i s
  refine ⟨t, ht, ?_, ?_, irq_of_exec ht⟩ <;> cases he <;> rfl

theorem zero_mem_codesOf (i : Instr) : 0 ∈ codesOf i := by
  cases i <;> exact List.mem_cons_self

/-- Settles O12: a success commit has code 0, and an error commit one of the command's own codes. -/
theorem completionCodesOfEachCommand : Obligations.CompletionCodesOfEachCommand := by
  unfold Obligations.CompletionCodesOfEachCommand
  intro i s t h
  cases endsIn_of_exec h with
  | success n w hw => exact zero_mem_codesOf i
  | error n e he => exact he

/-- Settles O38: neither commit writes any of these fields. -/
theorem commandsLeaveTheseAlone : Obligations.CommandsLeaveTheseAlone := by
  unfold Obligations.CommandsLeaveTheseAlone
  intro i s t h
  cases endsIn_of_exec h with
  | success | error => exact ⟨rfl, rfl, rfl, rfl, rfl, rfl, rfl, rfl, rfl, rfl⟩

/-- NOP and LOAD_DEFAULTS end with success, whatever SRC_LEN is (30_encoding.md R99). -/
theorem err_of_not_readsSrc {i : Instr} {s t : State} (hi : readsSrc i = false) (h : exec i s = .next t) :
    t.err = 0 := by
  have hcodes := completionCodesOfEachCommand i s t h
  cases i with
  | nop | loadDefaults => exact List.mem_singleton.1 hcodes
  | _ => cases hi

/-- Settles O10: an illegal word is no command, and LEN is the first check of every command that reads SRC. -/
theorem sharedChecksComeFirst : Obligations.SharedChecksComeFirst := by
  unfold Obligations.SharedChecksComeFirst
  refine fun s => ⟨fun e he => engineStep_of_illegal he, fun i hd hi hlong => ?_, fun i hd hi => ?_⟩
  · rw [engineStep_of_decode hd]
    exact exec_of_input_too_long hi hlong
  · obtain ⟨t, ht, -⟩ := exec_endsIn i s
    exact ⟨t, (engineStep_of_decode hd).trans ht, err_of_not_readsSrc hi ht⟩

/-! ### The step of each agent -/

theorem popSched_busy (s : State) : (popSched s).busy = s.busy := by rw [popSched_eq]; rfl

theorem step_of_engine_busy {s : State} (hturn : nextTurn s = .engine) (hb : s.busy = true) :
    step s = engineStep (popSched s) := by
  rw [step, hturn, takeTurn, engineTurn, popSched_busy, if_pos hb]

theorem step_of_engine_idle {s : State} (hturn : nextTurn s = .engine) (hb : s.busy = false) :
    step s = .next (popSched s) := by
  rw [step, hturn, takeTurn, engineTurn, popSched_busy, if_neg (ne_true_of_eq_false hb)]

theorem step_of_host {s : State} (hturn : nextTurn s = .host) : step s = .next (hostTurn (popSched s)) := by
  rw [step, hturn, takeTurn]

/-- The engine's step ends the command in flight (30_encoding.md R98). -/
theorem exists_engineStep (s : State) : ∃ t, engineStep s = .next t ∧ t.busy = false ∧ t.done = true := by
  rcases engineStep_cases s with ⟨i, t, -, ht, hexec, -⟩ | ⟨e, -, ht⟩
  · obtain ⟨u, hu, hdone, hbusy, -⟩ := everyCommandCommits i s
    cases hexec.symm.trans hu
    exact ⟨t, ht, hbusy, hdone⟩
  · exact ⟨_, ht, rfl, rfl⟩

theorem popSched_of_nil {s : State} (h : s.host.sched = []) : popSched s = s := by
  rw [popSched, h]

/-- Settles O6: its turn is idle or the engine's step, which ends the command. -/
theorem engineStepsExactlyWhileBusy : Obligations.EngineStepsExactlyWhileBusy := by
  unfold Obligations.EngineStepsExactlyWhileBusy
  refine fun s hturn => ⟨step_of_engine_idle hturn, fun hb => ?_⟩
  rw [step_of_engine_busy hturn hb]
  exact exists_engineStep (popSched s)

theorem decode_of_decodeTableWord {w : Nat} {i : Instr} (h : decodeTableWord 32 w = some i) :
    decode (tableWord 32 w) = .ok i := by
  rw [decodeTableWord, if_neg (Nat.lt_irrefl 32)] at h
  cases hd : decode (tableWord 32 w) with
  | ok j =>
    rw [hd] at h
    exact congrArg _ (Option.some.inj h)
  | error e =>
    rw [hd] at h
    cases h

/-- Settles O5: the engine's turn on a word that decodes is exec, and withFetchWord leaves the engine to move. -/
theorem stepRunsDecodedCommand : Obligations.StepRunsDecodedCommand := by
  unfold Obligations.StepRunsDecodedCommand
  have runs {s : State} {i : Instr} (hturn : nextTurn s = .engine) (hb : s.busy = true)
      (hd : decode s.cmdLatch = .ok i) : step s = exec i (popSched s) := by
    rw [step_of_engine_busy hturn hb, engineStep_of_decode]
    rwa [popSched_eq]
  refine ⟨fun s i hturn hb hd _ => runs hturn hb hd, fun s => popSched_of_nil, fun s t r h => ?_, fun s w i h => ?_⟩
  · rw [popSched, h]
    rfl
  · exact runs rfl rfl (decode_of_decodeTableWord h)

/-! ### What steps and runs keep -/

theorem params_of_engineStep {s t : State} (h : engineStep s = .next t) : t.params = s.params := by
  rcases engineStep_cases s with ⟨i, u, -, hu, hexec, -⟩ | ⟨e, -, hu⟩ <;> cases hu.symm.trans h
  · exact (commandsLeaveTheseAlone i s t hexec).1
  · rfl

theorem popSched_params (s : State) : (popSched s).params = s.params := by rw [popSched_eq]; rfl

/-- Settles O17: no commit, no host access and no reset writes the parameters. -/
theorem parametersNeverChange : Obligations.ParametersNeverChange := by
  unfold Obligations.ParametersNeverChange
  intro s t ht
  rw [← popSched_params s]
  rcases step_cases s with ⟨-, -, hstep⟩ | ⟨-, -, hstep⟩ | ⟨-, hstep⟩ | ⟨-, hstep⟩ <;> rw [hstep] at ht
  · exact params_of_engineStep ht
  · cases ht
    rfl
  · cases ht
    exact (hostTurn_frame _).params
  · cases ht
    rfl

/-- Settles O18: every host access leaves a command in flight alone, and a schedule that moves on is the host agent's. -/
theorem hostCannotTouchCommandInFlight : Obligations.HostCannotTouchCommandInFlight := by
  unfold Obligations.HostCannotTouchCommandInFlight
  intro s t hb hturn ht
  rw [step_of_host hturn, popSched_eq] at ht
  cases ht
  obtain ⟨⟨hparams, herr, hdstLen, hresult, hecho, hdst⟩, hbusy, hsrcLen, hcounter, hdevid, hmacLo, hmacHi, hkey, hiv,
    hcmdLatch, hsrc⟩ := hostTurn_busyFrame (s := s.withHost { s.host with sched := s.host.sched.tail }) hb
  exact ⟨hbusy.trans hb, hcmdLatch, hsrc, hsrcLen, hkey, hiv, hmacLo, hmacHi, hdevid, hcounter, hparams, hdst, hdstLen,
    hresult, hecho, herr⟩

theorem exists_step (s : State) : ∃ t, step s = .next t := by
  rcases step_cases s with ⟨-, -, hstep⟩ | ⟨-, -, hstep⟩ | ⟨-, hstep⟩ | ⟨-, hstep⟩
  · obtain ⟨t, ht, -⟩ := exists_engineStep (popSched s)
    exact ⟨t, hstep.trans ht⟩
  all_goals exact ⟨_, hstep⟩

theorem run_zero (s : State) : core.run 0 s = .next s := rfl

theorem run_succ {s t : State} (h : step s = .next t) (k : Nat) : core.run (k + 1) s = core.run k t := by
  have hcore : core.step s = .next t := h
  simp only [Host.Core.run, hcore]

/-- Settles O15: every step answers a next state, by induction on the number of steps. -/
theorem noRunStops : Obligations.NoRunStops := by
  unfold Obligations.NoRunStops
  intro k
  induction k with
  | zero => exact fun s => ⟨s, run_zero s⟩
  | succ k ih =>
    intro s
    obtain ⟨t, ht⟩ := exists_step s
    obtain ⟨u, hu⟩ := ih t
    exact ⟨u, (run_succ ht k).trans hu⟩

/-! ### A command in flight ends -/

/-- The host's turn leaves the schedule alone. -/
theorem hostTurn_sched (s : State) : (hostTurn s).host.sched = s.host.sched := by
  unfold hostTurn
  split
  case h_5 | h_6 =>
    unfold startCollect
    simp only
    split <;> rfl
  case h_7 =>
    unfold collectWord
    simp only
    split <;> rfl
  all_goals rfl

/-- While a command is in flight a step ends it, or takes an entry off the schedule. -/
theorem step_of_busy {s : State} (hb : s.busy = true) :
    ∃ t, step s = .next t ∧ (t.busy = false ∨ (s.host.sched ≠ [] ∧ t.host.sched = s.host.sched.tail)) := by
  rcases step_cases s with ⟨-, -, hstep⟩ | ⟨-, hidle, -⟩ | ⟨hturn, hstep⟩ | ⟨-, hstep⟩
  · obtain ⟨t, ht, hbusy, -⟩ := exists_engineStep (popSched s)
    exact ⟨t, hstep.trans ht, .inl hbusy⟩
  · exact absurd hb (ne_true_of_eq_false hidle)
  · refine ⟨_, hstep, .inr ⟨fun hnil => ?_, ?_⟩⟩
    · rw [nextTurn, hnil] at hturn
      simp [hb] at hturn
    · rw [hostTurn_sched, popSched_eq]
      rfl
  · exact ⟨_, hstep, .inl rfl⟩

/-- Settles O16: by induction on the schedule, whose entries run out before the engine is passed over again. -/
theorem commandInFlightEnds : Obligations.CommandInFlightEnds := by
  unfold Obligations.CommandInFlightEnds
  intro s
  generalize hsched : s.host.sched = sched
  induction sched generalizing s with
  | nil =>
    intro hb
    obtain ⟨t, ht, hend⟩ := step_of_busy hb
    exact ⟨1, t, le_rfl, run_succ ht 0, hend.resolve_right fun h => h.1 hsched⟩
  | cons turn rest ih =>
    intro hb
    obtain ⟨t, ht, hend⟩ := step_of_busy hb
    cases hbusy : t.busy with
    | false => exact ⟨1, t, Nat.le_add_left _ _, run_succ ht 0, hbusy⟩
    | true =>
      have hrest : t.host.sched = rest := by
        rw [(hend.resolve_left (by simp [hbusy])).2, hsched, List.tail_cons]
      obtain ⟨k, u, hk, hrun, hu⟩ := ih t hrest hbusy
      exact ⟨k + 1, u, Nat.succ_le_succ hk, (run_succ ht k).trans hrun, hu⟩

end Sys2Proof.Machine
end

section
/-! SUPPORT. Which registers each command and each step may change, and the statements about them (10_state.md R26 to R34,
R38). -/

namespace Sys2Proof.Machine

/-! ### What each command may change -/

section
variable {i : Instr} {s t : State} (h : exec i s = .next t)
include h

theorem key_iv_of_exec (hi : i ≠ .loadDefaults) : t.key = s.key ∧ t.iv = s.iv := by
  cases endsIn_of_exec h with
  | success n w hw => exact ⟨by rw [State.commit_key, hw.key hi]; rfl, by rw [State.commit_iv, hw.iv hi]; rfl⟩
  | error => exact ⟨rfl, rfl⟩

theorem echo_of_exec (hi : i ≠ .frameDecode) : t.echo = s.echo := by
  cases endsIn_of_exec h with
  | success n w hw => rw [State.commit_echo, hw.echo hi]; rfl
  | error => rfl

theorem counter_of_exec (hi : ∀ c v, i ≠ .frameEncode c v) : t.counter = s.counter := by
  cases endsIn_of_exec h with
  | success n w hw => rw [State.commit_counter, hw.counter hi]; rfl
  | error => rfl

/-- No command but NOP and LOAD_DEFAULTS keeps RESULT on success, and these two have no error. -/
theorem result_of_exec (hi : readsSrc i = false) : t.result = s.result := by
  have herr := err_of_not_readsSrc hi h
  cases endsIn_of_exec h with
  | success n w hw => rw [State.commit_result, hw.resultKept hi]; rfl
  | error n e he => exact absurd herr e.code_ne_zero

theorem dst_of_exec (hi : writesDst i = false ∨ t.err ≠ 0) : t.dst = s.dst ∧ t.dstLen = s.dstLen := by
  cases endsIn_of_exec h with
  | success n w hw => exact State.commit_no_out (hw.out (hi.resolve_right (not_not.2 rfl))) (s.advance n)
  | error => exact ⟨rfl, rfl⟩

/-- With legal parameters a success of a command that writes DST overwrites exactly `DST[0..DST_LEN)` (10_state.md R38). -/
theorem overwrites_of_exec (hwf : s.params.wf = true) (hi : writesDst i = true) (herr : t.err = 0) :
    ∃ bs, s.dst.Overwrites t.dst bs ∧ t.dstLen.toNat = bs.length := by
  cases endsIn_of_exec h with
  | success n w hw =>
    obtain ⟨bs, hbs, hle⟩ := hw.outSome hi
    obtain ⟨hdst, hdstLen⟩ := State.commit_out hbs (s.advance n)
    exact ⟨bs, hdst, by rw [hdstLen, toNat_ofNat_length hwf (hle hwf)]⟩
  | error n e he => exact absurd herr e.code_ne_zero

theorem kept_of_err_ne_zero (herr : t.err ≠ 0) :
    t.key = s.key ∧ t.iv = s.iv ∧ t.echo = s.echo ∧ t.counter = s.counter := by
  obtain ⟨n, e, rfl⟩ := exists_fail_of_err_ne_zero h herr
  exact ⟨rfl, rfl, rfl, rfl⟩

end

/-- Settles O41: a success overwrites `[0..DST_LEN)`, any other end keeps DST, and no access reaches it. -/
theorem dstChangesOnlyBelowDstLen : Obligations.DstChangesOnlyBelowDstLen := by
  unfold Obligations.DstChangesOnlyBelowDstLen
  refine ⟨fun i s t hwf h a => ?_, fun s a v => (memWrite_frame s a v).dst, fun i s t h => ?_⟩
  · by_cases hwrites : t.err = 0 ∧ writesDst i = true
    · obtain ⟨herr, hi⟩ := hwrites
      obtain ⟨bs, ⟨hin, hout⟩, hlen⟩ := overwrites_of_exec h hwf hi herr
      refine ⟨fun _ _ ha => ?_, fun ha => hout a (by simpa [herr, hi, hlen] using ha)⟩
      rw [hlen] at ha
      rw [hin a ha, List.getElem?_eq_getElem ha, Option.isSome_some]
    · have hdst := (dst_of_exec h ((not_and_or.1 hwrites).symm.imp_left eq_false_of_ne_true)).1
      exact ⟨fun herr hi => absurd ⟨herr, hi⟩ hwrites, fun _ => by rw [hdst]⟩
  · obtain ⟨-, -, -, -, -, -, -, -, hsrc, -⟩ := commandsLeaveTheseAlone i s t h
    exact hsrc

/-! ### What each step may change -/

/-- The steps, with the command that the engine's runs. -/
theorem step_inversion {s t : State} (h : step s = .next t) :
    (∃ i, EngineRuns s i ∧ exec i (popSched s) = .next t) ∨
    (nextTurn s = .engine ∧ s.busy = true ∧ t = (popSched s).fail .illegal) ∨
    (nextTurn s = .engine ∧ t = popSched s) ∨
    (nextTurn s = .host ∧ t = hostTurn (popSched s)) ∨ nextTurn s = .reset := by
  have hlatch : (popSched s).cmdLatch = s.cmdLatch := by rw [popSched_eq]; rfl
  rcases step_cases s with ⟨hturn, hb, hstep⟩ | ⟨hturn, -, hstep⟩ | ⟨hturn, hstep⟩ | ⟨hturn, -⟩
  · rcases engineStep_cases (popSched s) with ⟨i, u, hd, hu, hexec, -⟩ | ⟨e, -, hu⟩ <;>
      cases (hstep.trans hu).symm.trans h
    · exact .inl ⟨i, ⟨hturn, hb, hlatch ▸ hd⟩, hexec⟩
    · exact .inr (.inl ⟨hturn, hb, rfl⟩)
  · cases hstep.symm.trans h
    exact .inr (.inr (.inl ⟨hturn, rfl⟩))
  · cases hstep.symm.trans h
    exact .inr (.inr (.inr (.inl ⟨hturn, rfl⟩)))
  · exact .inr (.inr (.inr (.inr hturn)))

/-- A field that is none of SRC, OVR, the host agent and the count of reads changes at a host turn only by a register
write that is performed. -/
theorem exists_writeReg_of_changed {α : Type} {field : State → α} {s : State}
    (hread : ∀ (u : State) (k : HostSide) (n : Nat), field ((u.withHost k).advance n) = field u)
    (hdrop : ∀ u : State, field u.dropWrite = field u)
    (hstore : ∀ (u : State) (i : Nat) (bs : List Byte), field (u.storeSrc i bs) = field u)
    (hne : field (hostTurn s) ≠ field s) :
    ∃ a v rest r, s.host.prog = .wr a v :: rest ∧ wordOffset a = r.offset ∧ (s.busy && r.guarded) = false ∧
      field (writeReg s r v) ≠ field s := by
  rcases hostTurn_cases s with ⟨a, v, rest, hprog, h⟩ | ⟨k, n, h⟩
  · have hhost (u : State) (k : HostSide) : field (u.withHost k) = field u := hread u k 0
    rw [h, hhost] at hne
    cases hl : locate s.params a with
    | reg r =>
      rw [memWrite_reg hl] at hne
      split at hne
      · exact absurd (hdrop s) hne
      · next hperformed => exact ⟨a, v, rest, r, hprog, locate_eq_reg_iff.1 hl, by simpa using hperformed, hne⟩
    | src i =>
      cases hb : s.busy with
      | true => exact absurd ((congrArg field (memWrite_of_guarded hb (congrArg Loc.guarded hl) v)).trans (hdrop s)) hne
      | false => exact absurd ((congrArg field (memWrite_src hl hb v)).trans (hstore s i _)) hne
    | dst i => exact absurd (congrArg field (memWrite_dst hl v)) hne
    | reserved => exact absurd (congrArg field (memWrite_reserved hl v)) hne
  · rw [h, hread] at hne
    exact absurd rfl hne

/-- Such a field of guarded registers at offsets `[lo..hi)` changes only by a host write at these offsets with BUSY = 0;
the access is the same before and after the schedule moves on. -/
theorem hostWrites_of_changed {α : Type} {field : State → α} {s : State} {lo hi : Nat} (hturn : nextTurn s = .host)
    (hread : ∀ (u : State) (k : HostSide) (n : Nat), field ((u.withHost k).advance n) = field u)
    (hdrop : ∀ u : State, field u.dropWrite = field u)
    (hstore : ∀ (u : State) (i : Nat) (bs : List Byte), field (u.storeSrc i bs) = field u)
    (hreg : ∀ (u : State) (r : Reg) (v : Word),
      field (writeReg u r v) = field u ∨ (r.guarded = true ∧ lo ≤ r.offset ∧ r.offset + 4 ≤ hi))
    (hne : field (hostTurn (popSched s)) ≠ field (popSched s)) : HostWrites s lo hi := by
  obtain ⟨a, v, rest, r, hprog, ha, hperformed, hchanged⟩ := exists_writeReg_of_changed hread hdrop hstore hne
  obtain ⟨hguarded, hlo, hhi⟩ := (hreg (popSched s) r v).resolve_left hchanged
  rw [popSched_eq] at hprog
  rw [popSched_busy, hguarded, Bool.and_true] at hperformed
  rw [wordOffset] at ha
  exact ⟨hturn, hperformed, a, v, rest, hprog, by omega, by omega⟩

/-- KEY is written at 0x030 to 0x03C only (R26). -/
theorem writeReg_key (s : State) (r : Reg) (v : Word) :
    (writeReg s r v).key = s.key ∨ (r.guarded = true ∧ 0x030 ≤ r.offset ∧ r.offset + 4 ≤ 0x040) := by
  cases r with
  | key j => exact .inr ⟨rfl, Nat.le_add_right _ _, by simp only [Reg.offset]; omega⟩
  | _ => exact .inl rfl

/-- IV is written at 0x040 to 0x04C only (R27). -/
theorem writeReg_iv (s : State) (r : Reg) (v : Word) :
    (writeReg s r v).iv = s.iv ∨ (r.guarded = true ∧ 0x040 ≤ r.offset ∧ r.offset + 4 ≤ 0x050) := by
  cases r with
  | iv j => exact .inr ⟨rfl, Nat.le_add_right _ _, by simp only [Reg.offset]; omega⟩
  | _ => exact .inl rfl

/-- COUNTER is written at 0x01C only (R30). -/
theorem writeReg_counter (s : State) (r : Reg) (v : Word) :
    (writeReg s r v).counter = s.counter ∨ (r.guarded = true ∧ 0x01C ≤ r.offset ∧ r.offset + 4 ≤ 0x020) := by
  cases r with
  | counter => exact .inr ⟨rfl, le_rfl, le_rfl⟩
  | _ => exact .inl rfl

/-- Settles O39: a command's staged writes are its own, and of the steps only the engine's run a command, only the host's
write a register, and the reset input's write them all. -/
theorem onlyTheseCommandsWrite : Obligations.OnlyTheseCommandsWrite := by
  unfold Obligations.OnlyTheseCommandsWrite
  refine ⟨fun i s t h => ⟨key_iv_of_exec h, echo_of_exec h, counter_of_exec h, fun hi => result_of_exec h ?_,
    fun hi => (dst_of_exec h hi).2, kept_of_err_ne_zero h⟩, fun s t h => ?_⟩
  · rcases hi with rfl | rfl <;> rfl
  obtain ⟨hkey, hiv, hecho, hcounter, hresult, hdstLen⟩ : (popSched s).key = s.key ∧ (popSched s).iv = s.iv ∧
      (popSched s).echo = s.echo ∧ (popSched s).counter = s.counter ∧ (popSched s).result = s.result ∧
      (popSched s).dstLen = s.dstLen := by
    rw [popSched_eq]
    exact ⟨rfl, rfl, rfl, rfl, rfl, rfl⟩
  rw [← hkey, ← hiv, ← hecho, ← hcounter, ← hresult, ← hdstLen]
  rcases step_inversion h with ⟨i, hruns, hexec⟩ | ⟨hturn, hb, rfl⟩ | ⟨-, rfl⟩ | ⟨hturn, rfl⟩ | hturn
  · have runs {j : Instr} (hij : i = j) : EngineRuns s j := hij ▸ hruns
    refine ⟨fun hne => .inl (runs ?_), fun hne => .inl (runs ?_), fun hne => .inl (runs ?_), fun hne => .inl ?_,
      fun _ => .inl ⟨hruns.1, hruns.2.1⟩, fun hne => .inl ⟨i, hruns, ?_⟩⟩
    · by_contra hi
      exact hne (key_iv_of_exec hexec hi).1
    · by_contra hi
      exact hne (key_iv_of_exec hexec hi).2
    · by_contra hi
      exact hne (echo_of_exec hexec hi)
    · by_contra hi
      exact hne (counter_of_exec hexec fun c v hij => hi ⟨c, v, runs hij⟩)
    · by_contra hi
      exact hne (dst_of_exec hexec (.inl (eq_false_of_ne_true hi))).2
  · exact ⟨absurd rfl, absurd rfl, absurd rfl, absurd rfl, fun _ => .inl ⟨hturn, hb⟩, absurd rfl⟩
  · exact ⟨absurd rfl, absurd rfl, absurd rfl, absurd rfl, absurd rfl, absurd rfl⟩
  · have hframe := hostTurn_frame (popSched s)
    have hkeyWrites := hostWrites_of_changed hturn (field := State.key) (fun _ _ _ => rfl) (fun _ => rfl)
      (fun _ _ _ => rfl) writeReg_key
    have hivWrites := hostWrites_of_changed hturn (field := State.iv) (fun _ _ _ => rfl) (fun _ => rfl)
      (fun _ _ _ => rfl) writeReg_iv
    have hcounterWrites := hostWrites_of_changed hturn (field := State.counter) (fun _ _ _ => rfl) (fun _ => rfl)
      (fun _ _ _ => rfl) writeReg_counter
    exact ⟨fun hne => .inr (.inl (hkeyWrites hne)),
      fun hne => .inr (.inl (hivWrites hne)), absurd hframe.echo,
      fun hne => .inr (.inl (hcounterWrites hne)), absurd hframe.result, absurd hframe.dstLen⟩
  · exact ⟨fun _ => .inr (.inr hturn), fun _ => .inr (.inr hturn), fun _ => .inr hturn, fun _ => .inr (.inr hturn),
      fun _ => .inr hturn, fun _ => .inr hturn⟩

end Sys2Proof.Machine
end

section
/-! SUPPORT. Every command as a rule behind one LEN check, so that states on which the rule agrees end alike, and the
statements about what a command does not read (10_state.md section 4; 20_memory.md section 1; 40_framer.md section 5). -/

namespace Sys2Proof.Machine

/-! ### A command is its rule -/

/-- The rule of a command; NOP and LOAD_DEFAULTS look at no input. -/
def ruleOf : Instr → State → List Byte → Verdict
  | .nop, _, _ => ruleNop
  | .loadDefaults, s, _ => ruleLoadDefaults s
  | .csum, s, src => ruleCsum s src
  | .frameEncode code ver, s, src => ruleFrameEncode code ver s src
  | .frameDecode, s, src => ruleFrameDecode s src
  | .aesCbcEnc, s, src => ruleAesCbcEnc s src
  | .aesCbcDec, s, src => ruleAesCbcDec s src
  | .crc16, s, src => ruleCrc16 s src
  | .hframeWrap, s, src => ruleHframeWrap s src
  | .hframeCheck, s, src => ruleHframeCheck s src

/-- exec is the rule, behind the LEN check for the commands that read SRC (30_encoding.md R99). -/
theorem exec_eq_ruleOf (i : Instr) (s : State) :
    exec i s = .next (if readsSrc i then runOnInput (ruleOf i) s else settle (ruleOf i s s.input) s) := by
  cases i <;> rfl

/-- Two states with the same parameters and SRC_LEN, on which the rule gives the same verdict, end by the same verdict. -/
theorem exec_of_same_rule {i : Instr} {s u : State} (hparams : u.params = s.params) (hsrcLen : u.srcLen = s.srcLen)
    (hrule : ruleOf i u u.input = ruleOf i s s.input) :
    ∃ v n, (v = .raise .len ∨ v = ruleOf i s s.input) ∧ exec i s = .next (settle v (s.advance n)) ∧
      exec i u = .next (settle v (u.advance n)) := by
  have hlen : u.inputLen = s.inputLen := congrArg BitVec.toNat hsrcLen
  rw [exec_eq_ruleOf, exec_eq_ruleOf]
  cases readsSrc i with
  | false =>
    refine ⟨_, 0, .inr rfl, rfl, ?_⟩
    rw [← hrule]
    rfl
  | true =>
    rcases runOnInput_cases (ruleOf i) s with ⟨hgt, hrun⟩ | ⟨hle, hrun⟩
    · refine ⟨.raise .len, 0, .inl rfl, congrArg _ hrun, congrArg _ (runOnInput_of_gt ?_)⟩
      rwa [hparams, hlen]
    · refine ⟨_, s.inputLen, .inr rfl, congrArg _ hrun, congrArg _ ?_⟩
      rw [← hrule, ← hlen]
      exact runOnInput_of_le (by rwa [hparams, hlen])

/-! ### SRC -/

theorem settle_src (v : Verdict) (n : Nat) (s : State) (m : Memory) :
    settle v ({ s with src := m }.advance n) = { settle v (s.advance n) with src := m } := by
  cases v <;> rfl

/-- With another SRC of the same SRC_LEN a command ends in the same way, if its rule cannot tell. -/
theorem exec_of_other_src {i : Instr} {s t : State} {m : Memory} (h : exec i s = .next t)
    (hrule : ruleOf i s ({ s with src := m } : State).input = ruleOf i s s.input) :
    exec i { s with src := m } = .next { t with src := m } := by
  have hblind (src : List Byte) : ruleOf i { s with src := m } src = ruleOf i s src := by cases i <;> rfl
  obtain ⟨v, n, -, hs, hu⟩ :=
    exec_of_same_rule (i := i) (s := s) (u := { s with src := m }) rfl rfl ((hblind _).trans hrule)
  cases hs.symm.trans h
  rw [hu, settle_src]

/-! ### DST -/

theorem settle_dst (v : Verdict) (n : Nat) (s : State) (m : Memory) :
    settle v ({ s with dst := m }.advance n) =
      { settle v (s.advance n) with dst := (settle v ({ s with dst := m }.advance n)).dst } := by
  cases v <;> rfl

/-- A command that writes DST stages an output whenever it finishes. -/
theorem isSome_out_of_finish {i : Instr} {s : State} {src : List Byte} {w : Staged} (hi : writesDst i = true)
    (h : ruleOf i s src = .finish w) : w.out.isSome = true := by
  cases i with
  | nop | loadDefaults | csum | crc16 => cases hi
  | frameEncode code ver =>
    rcases ruleFrameEncode_cases code ver s src with h' | ⟨-, h'⟩ <;> cases h'.symm.trans h
    rfl
  | frameDecode =>
    rcases ruleFrameDecode_cases s src with h' | ⟨e, -, h'⟩ | h' | ⟨-, -, h'⟩ <;> cases h'.symm.trans h
    rfl
  | aesCbcEnc =>
    rw [ruleOf, ruleAesCbcEnc] at h
    split at h <;> cases h
    rfl
  | aesCbcDec =>
    rw [ruleOf, ruleAesCbcDec] at h
    split at h <;> cases h
    rfl
  | hframeWrap =>
    rw [ruleOf, ruleHframeWrap] at h
    split at h <;> cases h
    rfl
  | hframeCheck =>
    rcases ruleHframeCheck_cases s src with h' | ⟨c, h'⟩ | ⟨q, -, h'⟩ <;> cases h'.symm.trans h
    rfl

/-- A staged output stands below DST_LEN whatever DST held before. -/
theorem get?_dst_commit {w : Staged} {bs : List Byte} (hbs : w.out = some bs) (s : State) {a : Nat}
    (ha : a < (s.commit w).dstLen.toNat) : (s.commit w).dst.get? a = bs[a]? := by
  obtain ⟨⟨hin, -⟩, hlen⟩ := State.commit_out hbs s
  refine hin a (Nat.lt_of_lt_of_le ha ?_)
  rw [hlen, BitVec.toNat_ofNat]
  exact Nat.mod_le _ _

/-- Settles O42: with other contents of a buffer the rule sees the same input, so the command ends by the same verdict. -/
theorem commandsDoNotReadDst : Obligations.CommandsDoNotReadDst := by
  unfold Obligations.CommandsDoNotReadDst
  refine ⟨fun s => ⟨s.input_length, fun a b ha hb => ?_⟩, fun i s t m hm h => exec_of_other_src h ?_,
    fun i s t m h => ?_⟩
  · rw [State.input, Memory.read_getElem?, Nat.zero_add, Memory.readByte, hb, Option.getD_some]
    exact if_pos ha
  · have hinput : ({ s with src := m } : State).input = s.input :=
      Memory.read_congr fun a ha => by rw [Nat.zero_add]; exact hm a ha
    rw [hinput]
  · have hblind : ruleOf i { s with dst := m } s.input = ruleOf i s s.input := by cases i <;> rfl
    obtain ⟨v, n, hv, hs, hu⟩ := exec_of_same_rule (i := i) (s := s) (u := { s with dst := m }) rfl rfl hblind
    cases hs.symm.trans h
    refine ⟨_, hu.trans (congrArg _ (settle_dst v n s m)), fun herr hi a ha => ?_⟩
    cases v with
    | raise e => exact absurd herr e.code_ne_zero
    | finish w =>
      obtain ⟨bs, hbs⟩ := Option.isSome_iff_exists.1 (isSome_out_of_finish hi (hv.resolve_left nofun).symm)
      have hlen : (({ s with dst := m }.advance n).commit w).dstLen = ((s.advance n).commit w).dstLen := rfl
      exact (get?_dst_commit hbs _ (hlen ▸ ha)).trans (get?_dst_commit hbs _ ha).symm

/-! ### The header of a reply -/

/-- FRAME_DECODE looks at the length, the two error code bytes and what follows the header (40_framer.md R128). -/
theorem ruleFrameDecode_congr {s : State} {x y : List Byte} (hlen : x.length = y.length)
    (herr : rdLE16 x s.params.errOffset = rdLE16 y s.params.errOffset) (hrest : x.drop 0x38 = y.drop 0x38) :
    ruleFrameDecode s x = ruleFrameDecode s y := by
  rw [ruleFrameDecode_eq, ruleFrameDecode_eq, hlen, herr, hrest]

theorem input_getElem?_congr {s u : State} (hlen : u.srcLen = s.srcLen) (htick : u.tick = s.tick) {a : Nat}
    (h : u.src.get? a = s.src.get? a) : u.input[a]? = s.input[a]? := by
  rw [State.input, State.input, Memory.read_getElem?, Memory.read_getElem?, State.inputLen, State.inputLen, hlen, htick,
    Memory.readByte, Memory.readByte, Nat.zero_add, h]

/-- Settles O43: contents that agree on those bytes give the rule the same view of its input. -/
theorem frameDecodeIgnoresTheRestOfTheHeader : Obligations.FrameDecodeIgnoresTheRestOfTheHeader := by
  unfold Obligations.FrameDecodeIgnoresTheRestOfTheHeader
  intro s t m hwf hm h
  have hget {a : Nat} (ha : a = s.params.errOffset ∨ a = s.params.errOffset + 1 ∨ 0x38 ≤ a) :
      ({ s with src := m } : State).input[a]? = s.input[a]? :=
    input_getElem?_congr (s := s) (u := { s with src := m }) rfl rfl (hm a ha)
  refine exec_of_other_src h (ruleFrameDecode_congr ?_ ?_ ?_)
  · rw [State.input_length, State.input_length]
    rfl
  · simp only [rdLE16, List.getD_eq_getElem?_getD, hget (.inl rfl), hget (.inr (.inl rfl))]
  · refine List.ext_getElem? fun a => ?_
    rw [List.getElem?_drop, List.getElem?_drop, hget (.inr (.inr (Nat.le_add_right _ _)))]

end Sys2Proof.Machine
end

section
/-! SUPPORT. Where the packet holds COUNTER and the template's bytes, and the statement about COUNTER (40_framer.md R123,
R127). -/

namespace Sys2Proof.Machine

/-! ### The bytes of the packet -/

theorem slice_getElem? (t : List Byte) {a b k : Nat} (hk : a + k < b) : (slice t a b)[k]? = t[a + k]? := by
  rw [slice, List.getElem?_take_of_lt (by omega), List.getElem?_drop]

/-- A field of a byte sequence that stands behind its first `o` bytes. -/
theorem getElem?_append_field {head field : List Byte} {o k : Nat} (rest : List Byte) (ho : head.length = o)
    (hk : k < field.length) : (head ++ field ++ rest)[o + k]? = field[k]? := by
  subst ho
  rw [List.getElem?_append_left (by rw [List.length_append]; omega), List.getElem?_append_right (by omega),
    Nat.add_sub_cancel_left]

section
variable {s : State} (h : s.params.hdrTemplate.length = 0x38) (code ver : Byte) (pt : List Byte) (cs : Half)
include h

/-- Header bytes 0x28 and 0x29 are COUNTER, low byte first. -/
theorem packetFields_counter {k : Nat} (hk : k < 2) :
    (packetFields s code ver pt cs)[0x28 + k]? = (le16 s.counter)[k]? := by
  have hs {a b : Nat} (hb : b ≤ 0x38) := slice_length (t := s.params.hdrTemplate) (a := a) (h ▸ hb)
  simp only [packetFields, List.append_assoc]
  iterate 7 rw [← List.append_assoc]
  exact getElem?_append_field _ (by simp [hs]) hk

/-- Header bytes 0x22 and 0x23 are the template's. -/
theorem packetFields_template {k : Nat} (hk : k < 2) :
    (packetFields s code ver pt cs)[0x22 + k]? = s.params.hdrTemplate[0x22 + k]? := by
  have hs {a b : Nat} (hb : b ≤ 0x38) := slice_length (t := s.params.hdrTemplate) (a := a) (h ▸ hb)
  rw [← slice_getElem? s.params.hdrTemplate (a := 0x22) (b := 0x24) (by omega)]
  simp only [packetFields, List.append_assoc]
  iterate 2 rw [← List.append_assoc]
  exact getElem?_append_field _ (by simp [hs]) (by simpa [hs] using hk)

theorem packetFields_drop : (packetFields s code ver pt cs).drop 0x38 = cbcEnc s.key s.iv pt := by
  have hs {a b : Nat} (hb : b ≤ 0x38) := slice_length (t := s.params.hdrTemplate) (a := a) (h ▸ hb)
  exact List.drop_left' (by simp [hs])

end

/-! ### COUNTER -/

/-- A success of FRAME_ENCODE increments COUNTER, whatever the parameters are. -/
theorem counter_of_frameEncode {s t : State} {code ver : Byte} (h : exec (.frameEncode code ver) s = .next t)
    (herr : t.err = 0) : t.counter = s.counter + 1 := by
  cases endsIn_of_exec h with
  | success n w hw => rw [State.commit_counter, hw.counterUp code ver rfl, Option.getD_some]
  | error n e he => exact absurd herr e.code_ne_zero

/-- A success of FRAME_ENCODE leaves its packet at the start of DST (40_framer.md R124). -/
theorem overwrites_of_frameEncode {s t : State} {code ver : Byte} (hwf : s.params.wf = true)
    (h : exec (.frameEncode code ver) s = .next t) (herr : t.err = 0) :
    ∃ pt cs, s.dst.Overwrites t.dst (packetFields s code ver pt cs) ∧
      (packetFields s code ver pt cs).length = 0x38 + pad16 s.inputLen := by
  obtain ⟨hlong, hbig, hfit⟩ := frameEncodeBuildsThePacket.2 s code ver hwf
  rcases Nat.lt_or_ge s.params.bufBytes s.inputLen with hlt | hle
  · cases (hlong hlt).symm.trans h
    cases herr
  · rcases Nat.lt_or_ge s.params.bufBytes (0x38 + pad16 s.inputLen) with hlt | hge
    · cases (hbig hle hlt).symm.trans h
      cases herr
    · obtain ⟨d, hd, hlen, hexec⟩ := hfit hge
      cases hexec.symm.trans h
      exact ⟨_, _, hd, hlen⟩

theorem settle_counter (v : Verdict) (n : Nat) (s : State) (c : Half) :
    settle v ({ s with counter := c }.advance n) =
      { settle v (s.advance n) with counter := (settle v ({ s with counter := c }.advance n)).counter } := by
  cases v <;> rfl

/-- With another COUNTER every command but FRAME_ENCODE ends in the same way, COUNTER apart. -/
theorem exec_of_other_counter {i : Instr} {s t : State} (c : Half) (hi : ∀ code ver, i ≠ .frameEncode code ver)
    (h : exec i s = .next t) : exec i { s with counter := c } = .next { t with counter := c } := by
  have hblind : ruleOf i { s with counter := c } s.input = ruleOf i s s.input := by
    cases i with
    | frameEncode code ver => exact absurd rfl (hi code ver)
    | _ => rfl
  obtain ⟨v, n, -, hs, hu⟩ := exec_of_same_rule (i := i) (s := s) (u := { s with counter := c }) rfl rfl hblind
  cases hs.symm.trans h
  rw [hu, settle_counter, counter_of_exec hu hi]

/-- COUNTER after `k` successes with no other change of it. -/
theorem counter_after_successes {f : Nat → State}
    (hf : ∀ k, ∃ code ver u, exec (.frameEncode code ver) (f k) = .next u ∧ u.err = 0 ∧ (f (k + 1)).counter = u.counter)
    (k : Nat) : (f k).counter = (f 0).counter + BitVec.ofNat 16 k := by
  induction k with
  | zero => exact (BitVec.add_zero _).symm
  | succ k ih =>
    obtain ⟨code, ver, u, hu, herr, hnext⟩ := hf k
    rw [hnext, counter_of_frameEncode hu herr, ih, BitVec.ofNat_add, BitVec.add_assoc]
    rfl

/-- Settles O40: the packet's field, the staged increment, and a rule that does not look at COUNTER. -/
theorem counterCountsPackets : Obligations.CounterCountsPackets := by
  unfold Obligations.CounterCountsPackets
  refine ⟨fun s t code ver hwf h => ⟨fun herr => ?_, fun herr => ?_⟩,
    fun i s t c hi h => ⟨counter_of_exec h hi, exec_of_other_counter c hi h⟩, fun f hf => ?_⟩
  · obtain ⟨pt, cs, ⟨hin, -⟩, hlen⟩ := overwrites_of_frameEncode hwf h herr
    have hbytes : le16 s.counter = [BitVec.ofNat 8 s.counter.toNat, BitVec.ofNat 8 (s.counter.toNat / 256)] := by
      have := le16_ofNat s.counter.toNat
      rwa [BitVec.ofNat_toNat, BitVec.setWidth_eq, Nat.mod_eq_of_lt s.counter.isLt] at this
    have hget {k : Nat} (hk : k < 2) : t.dst.get? (0x28 + k) = (le16 s.counter)[k]? := by
      rw [hin _ (by omega), packetFields_counter (hdrTemplate_length hwf) code ver pt cs hk]
    refine ⟨(hget (k := 0) (by decide)).trans ?_, (hget (k := 1) (by decide)).trans ?_, ?_⟩
    · rw [hbytes]
      rfl
    · rw [hbytes]
      rfl
    · rw [counter_of_frameEncode h herr, BitVec.toNat_add]
      rfl
  · obtain ⟨-, -, -, hcounter⟩ := kept_of_err_ne_zero h herr
    exact hcounter
  · rw [counter_after_successes hf]
    exact BitVec.add_zero _

end Sys2Proof.Machine
end

section
/-! SUPPORT. The laws of the byte sum and the statement about Csum's laws (40_framer.md R121). -/

namespace Sys2Proof.Machine

theorem byteSum_append (s t : List Byte) : byteSum (s ++ t) = byteSum s + byteSum t := by
  rw [byteSum, List.map_append, List.sum_append, ← byteSum, ← byteSum]

theorem byteSum_perm {s t : List Byte} (h : s.Perm t) : byteSum s = byteSum t := (h.map _).sum_eq

theorem byteSum_zeros (k : Nat) : byteSum (List.replicate k 0) = 0 := by
  rw [byteSum, List.map_replicate, List.sum_replicate]
  exact Nat.mul_zero k

theorem csum_append (s t : List Byte) : csum (s ++ t) = csum s + BitVec.ofNat 16 (byteSum t) := by
  rw [csum_eq, csum_eq, byteSum_append, ← Nat.add_assoc, BitVec.ofNat_add (0xBEAF + byteSum s)]

/-- Settles O30: the laws of the byte sum, modulo 2^16. -/
theorem csumLaws : Obligations.CsumLaws := by
  unfold Obligations.CsumLaws
  refine ⟨rfl, csum_append, fun s t h => ?_, fun s k => ?_⟩
  · rw [csum_eq, csum_eq, byteSum_perm h]
  · rw [csum_append, byteSum_zeros]
    exact BitVec.add_zero _

end Sys2Proof.Machine
end

section
/-! SUPPORT. The field of the S-box: multiplication over the set bits, an inverse that the table itself gives, and the
statement about both (41_crypto.md R161 to R163). -/

namespace Sys2Proof.Machine

/-! ### Multiplication -/

/-- The sum of `xtime^i(a)` over the set bits `i < n` of `b`, added to `acc`. -/
theorem foldl_xtime_eq (n : Nat) (a b acc : Byte) :
    ((List.range n).filter fun i => b.getLsbD i).foldl (fun x i => x ^^^ xtime^[i] a) acc = acc ^^^ gmulBits n a b := by
  induction n generalizing a b acc with
  | zero => exact BitVec.xor_zero.symm
  | succ n ih =>
    have hshift : ((fun i => b.getLsbD i) ∘ Nat.succ) = fun i => (b >>> 1).getLsbD i := by
      funext i
      rw [BitVec.getLsbD_ushiftRight, Nat.add_comm, Function.comp_apply]
    rw [List.range_succ_eq_map, List.filter_cons, List.filter_map, hshift, gmulBits]
    have htail (acc : Byte) := ih (xtime a) (b >>> 1) acc
    split
    · rw [List.foldl_cons, List.foldl_map, ← BitVec.xor_assoc, ← htail]
      rfl
    · rw [List.foldl_map, BitVec.ofNat_eq_ofNat, BitVec.zero_xor, ← htail]
      rfl

theorem gmul_eq_foldl (a b : Byte) :
    gmul a b = ((List.range 8).filter fun i => b.getLsbD i).foldl (fun x i => x ^^^ xtime^[i] a) 0 := by
  rw [foldl_xtime_eq, BitVec.ofNat_eq_ofNat, BitVec.zero_xor, gmul]

/-- A product with 1 is the byte as the sum of its bits, so two additive maps that agree on the bits are equal. -/
theorem eq_of_additive {f g : Byte → Byte} (hf : ∀ x y, f (x ^^^ y) = f x ^^^ f y)
    (hg : ∀ x y, g (x ^^^ y) = g x ^^^ g y) (hbit : ∀ i < 8, f (xtime^[i] 1) = g (xtime^[i] 1)) (x : Byte) :
    f x = g x := by
  have hzero {k : Byte → Byte} (hk : ∀ x y, k (x ^^^ y) = k x ^^^ k y) : k 0 = 0 := by
    simpa using hk 0 0
  rw [← gmul_one x, gmul_eq_foldl]
  refine List.foldlRecOn (motive := fun y => f y = g y) _ _ ((hzero hf).trans (hzero hg).symm) fun y hy i hi => ?_
  have hi8 := List.mem_range.1 (List.mem_of_mem_filter hi)
  rw [hf, hg, hy, hbit i hi8]

/-! ### The inverse -/

/-- The inverse of a nonzero byte, read off the S-box by undoing its affine map. -/
def fieldInverse (x : Byte) : Byte :=
  (sbox x).rotateLeft 1 ^^^ (sbox x).rotateLeft 3 ^^^ (sbox x).rotateLeft 6 ^^^ 0x05

theorem sboxAffine_fieldInverse : ∀ x : Byte, sboxAffine (fieldInverse x) = sbox x := by decide +kernel

theorem gmul_fieldInverse : ∀ x : Byte, x ≠ 0 → gmul x (fieldInverse x) = 1 := by decide +kernel

theorem gmul_fieldInverse_gmul_bit : ∀ x : Byte, x ≠ 0 → ∀ i < 8,
    gmul (fieldInverse x) (gmul x (xtime^[i] 1)) = xtime^[i] 1 := by decide +kernel

theorem gmul_right_one : ∀ x : Byte, gmul x 1 = x := by decide +kernel

theorem gmul_left_zero : ∀ x : Byte, gmul 0 x = 0 := by decide +kernel

theorem sbox_invSbox : ∀ x : Byte, sbox (invSbox x) = x := by decide +kernel

/-- Both sides are additive in `y`. -/
theorem gmul_fieldInverse_gmul {x : Byte} (hx : x ≠ 0) (y : Byte) : gmul (fieldInverse x) (gmul x y) = y :=
  eq_of_additive (f := fun y => gmul (fieldInverse x) (gmul x y)) (g := id) (fun y z => by simp only [gmul_xor])
    (fun _ _ => rfl) (gmul_fieldInverse_gmul_bit x hx) y

/-- Inverses are unique. -/
theorem eq_fieldInverse_of_gmul_eq_one {x y : Byte} (h : gmul x y = 1) : y = fieldInverse x := by
  have hx : x ≠ 0 := by
    rintro rfl
    rw [gmul_left_zero] at h
    exact absurd h (by decide)
  rw [← gmul_fieldInverse_gmul hx y, h, gmul_right_one]

/-- Settles O32: the inverse of x in the field is the one that undoing the affine map of `sbox x` gives. -/
theorem sboxIsAffineOfInverse : Obligations.SboxIsAffineOfInverse := by
  unfold Obligations.SboxIsAffineOfInverse
  refine ⟨fun a => ?_, gmul_eq_foldl, by decide, fun x y h => ?_, fun x hx => ⟨_, gmul_fieldInverse x hx⟩,
    fun x => ⟨invSbox_sbox x, sbox_invSbox x⟩⟩
  · rw [xtime]
    split
    · rfl
    · exact BitVec.xor_zero
  · rw [eq_fieldInverse_of_gmul_eq_one h, sboxAffine_fieldInverse]

end Sys2Proof.Machine
end

section
/-! SUPPORT. The steps of the cipher byte by byte, the key expansion word by word, the order of the rounds, and the
statements about the cipher and its inverse (41_crypto.md R160 to R171). -/

namespace Sys2Proof.Machine

/-! ### The steps by row and column -/

theorem stateByte_steps (s : Block) {r c : Nat} (hr : r < 4) (hc : c < 4) :
    stateByte (subBytes s) r c = sbox (stateByte s r c) ∧
    stateByte (invSubBytes s) r c = invSbox (stateByte s r c) ∧
    stateByte (shiftRows s) r c = stateByte s r ((c + r) % 4) ∧
    stateByte (invShiftRows s) r ((c + r) % 4) = stateByte s r c := by
  interval_cases r <;> interval_cases c <;> exact ⟨rfl, rfl, rfl, rfl⟩

/-- Column c of a block (R160). -/
def stateColumn (s : Block) (c : Nat) : Column := ⟨stateByte s 0 c, stateByte s 1 c, stateByte s 2 c, stateByte s 3 c⟩

theorem stateColumn_mixColumns (s : Block) {c : Nat} (hc : c < 4) :
    stateColumn (mixColumns s) c = mixColumn (stateColumn s c) ∧
    stateColumn (invMixColumns s) c = invMixColumn (stateColumn s c) := by
  interval_cases c <;> exact ⟨rfl, rfl⟩

theorem stateByte_xorBlock (a b : Block) {r c : Nat} (hr : r < 4) (hc : c < 4) :
    stateByte (xorBlock a b) r c = stateByte a r c ^^^ stateByte b r c := by
  interval_cases r <;> interval_cases c <;> rfl

/-! ### The key expansion -/

/-- Round key q + 1 is made from round key q (R164). -/
theorem getD_expandFrom (w : Block) (rcs : List Byte) {q : Nat} (hq : q < rcs.length) :
    (w :: expandFrom w rcs).getD (q + 1) default =
      nextRoundKey ((w :: expandFrom w rcs).getD q default) (rcs.getD q 0) := by
  induction rcs generalizing w q with
  | nil => exact absurd hq (Nat.not_lt_zero q)
  | cons rc rcs ih =>
    cases q with
    | zero => rfl
    | succ q => exact ih (nextRoundKey w rc) (Nat.lt_of_succ_lt_succ hq)

theorem keyByte_eq (k : Block) (q : Nat) {c : Nat} (hc : c < 4) (j : Nat) :
    keyByte k (4 * q + c) j = stateByte ((roundKeys k).getD q default) j c := by
  rw [keyByte, show (4 * q + c) / 4 = q by omega, show (4 * q + c) % 4 = c by omega]

/-- The words of the next round key, byte by byte: each adds the word before it, the first one through RotWord, SubWord
and the round constant (R164). -/
theorem stateByte_nextRoundKey (w : Block) (rc : Byte) {j : Nat} (hj : j < 4) :
    (stateByte (nextRoundKey w rc) j 0 =
      stateByte w j 0 ^^^ (sbox (stateByte w ((j + 1) % 4) 3) ^^^ if j = 0 then rc else 0)) ∧
    ∀ c < 3, stateByte (nextRoundKey w rc) j (c + 1) = stateByte w j (c + 1) ^^^ stateByte (nextRoundKey w rc) j c := by
  refine ⟨?_, fun c hc => ?_⟩
  · by_cases h0 : j = 0
    · subst h0
      rfl
    · rw [if_neg h0, BitVec.ofNat_eq_ofNat, BitVec.xor_zero]
      interval_cases j
      · exact absurd rfl h0
      all_goals rfl
  · interval_cases j <;> interval_cases c <;> rfl

/-- The word recurrence of the key expansion (R164). -/
theorem keyByte_recurrence (k : Block) {q c j : Nat} (hq : q < 10) (hc : c < 4) (hj : j < 4) :
    (c ≠ 0 → keyByte k (4 * (q + 1) + c) j = keyByte k (4 * q + c) j ^^^ keyByte k (4 * (q + 1) + (c - 1)) j) ∧
    (c = 0 → keyByte k (4 * (q + 1) + c) j =
      keyByte k (4 * q + c) j ^^^ (sbox (keyByte k (4 * q + 3) ((j + 1) % 4)) ^^^ if j = 0 then rcon.getD q 0 else 0)) := by
  have hnext : (roundKeys k).getD (q + 1) default = nextRoundKey ((roundKeys k).getD q default) (rcon.getD q 0) :=
    getD_expandFrom k rcon hq
  obtain ⟨hfirst, hrest⟩ := stateByte_nextRoundKey ((roundKeys k).getD q default) (rcon.getD q 0) hj
  rw [keyByte_eq k _ hc, keyByte_eq k _ hc, keyByte_eq k _ (by omega : c - 1 < 4), keyByte_eq k _ (by decide), hnext]
  refine ⟨fun h0 => ?_, fun h0 => ?_⟩
  · obtain ⟨c, rfl⟩ := Nat.exists_eq_succ_of_ne_zero h0
    exact hrest c (by omega)
  · subst h0
    exact hfirst

/-! ### The order of the rounds -/

/-- The cipher as its rounds in order (R170). -/
theorem aesEncrypt_eq_rounds (k b : Block) :
    aesEncrypt k b = addRoundKey k 10 (shiftRows (subBytes
      ([1, 2, 3, 4, 5, 6, 7, 8, 9].foldl (fun s r => addRoundKey k r (mixColumns (shiftRows (subBytes s))))
        (addRoundKey k 0 b)))) := by
  obtain ⟨k0, k1, k2, k3, k4, k5, k6, k7, k8, k9, k10, h⟩ : ∃ k0 k1 k2 k3 k4 k5 k6 k7 k8 k9 k10,
      roundKeys k = [k0, k1, k2, k3, k4, k5, k6, k7, k8, k9, k10] := ⟨_, _, _, _, _, _, _, _, _, _, _, rfl⟩
  simp only [aesEncrypt, addRoundKey, h]
  rfl

/-- The inverse cipher as its rounds in order (R171). -/
theorem aesDecrypt_eq_rounds (k b : Block) :
    aesDecrypt k b = addRoundKey k 0 (invSubBytes (invShiftRows
      ([9, 8, 7, 6, 5, 4, 3, 2, 1].foldl (fun s r => invMixColumns (addRoundKey k r (invSubBytes (invShiftRows s))))
        (addRoundKey k 10 b)))) := by
  obtain ⟨k0, k1, k2, k3, k4, k5, k6, k7, k8, k9, k10, h⟩ : ∃ k0 k1 k2 k3 k4 k5 k6 k7 k8 k9 k10,
      roundKeys k = [k0, k1, k2, k3, k4, k5, k6, k7, k8, k9, k10] := ⟨_, _, _, _, _, _, _, _, _, _, _, rfl⟩
  simp only [aesDecrypt, addRoundKey, h]
  rfl

theorem addRoundKey_addRoundKey (k : Block) (r : Nat) (s : Block) : addRoundKey k r (addRoundKey k r s) = s :=
  xorBlock_self_right s _

/-- Settles O60: the steps by row and column, the word recurrence, and the two lists of rounds. -/
theorem cipherFollowsItsSteps : Obligations.CipherFollowsItsSteps := by
  unfold Obligations.CipherFollowsItsSteps
  refine ⟨fun s r c hr hc => stateByte_steps s hr hc, fun s c hc => ?mix, fun k s r j c hr hj hc => ?_,
    fun k i j hj => ?key, fun k b => ⟨aesEncrypt_eq_rounds k b, aesDecrypt_eq_rounds k b⟩⟩
  case mix =>
    intro s0 s1 s2 s3
    obtain ⟨hmix, hinv⟩ := stateColumn_mixColumns s hc
    simp only [stateColumn, mixColumn, invMixColumn, mixRow, gmul_one, Column.mk.injEq] at hmix hinv
    obtain ⟨h0, h1, h2, h3⟩ := hmix
    exact ⟨h0, h1, h2, h3, hinv⟩
  · exact ⟨(stateByte_xorBlock s _ hj hc).trans (by rw [keyByte_eq k r hc]), addRoundKey_addRoundKey k r s⟩
  case key =>
    refine ⟨fun hi => ?_, fun h4 h44 hmod => ?_, fun h4 h44 hmod => ?_⟩
    · have := keyByte_eq k 0 hi j
      rw [Nat.mul_zero, Nat.zero_add] at this
      rw [this, stateByte, Nat.add_comm]
      rfl
    · obtain ⟨q, c, hq, hc, rfl⟩ : ∃ q c, q < 10 ∧ c < 4 ∧ i = 4 * (q + 1) + c :=
        ⟨i / 4 - 1, i % 4, by omega, by omega, by omega⟩
      rw [show 4 * (q + 1) + c - 4 = 4 * q + c by omega,
        show 4 * (q + 1) + c - 1 = 4 * (q + 1) + (c - 1) by omega]
      exact (keyByte_recurrence k hq hc hj).1 (by omega)
    · obtain ⟨q, hq, rfl⟩ : ∃ q, q < 10 ∧ i = 4 * (q + 1) + 0 := ⟨i / 4 - 1, by omega, by omega⟩
      rw [show 4 * (q + 1) + 0 - 4 = 4 * q + 0 by omega, show 4 * (q + 1) + 0 - 1 = 4 * q + 3 by omega,
        show (4 * (q + 1) + 0) / 4 - 1 = q by omega]
      exact (keyByte_recurrence k hq (by decide) hj).2 rfl

/-! ### The inverse cipher undoes the cipher -/

/-- Rounds that each undo one round, in the opposite order, undo them all; `e` is what a round begins with. -/
theorem foldl_reverse_undo {enc dec : Block → Nat → Block} {e : Block → Block}
    (h : ∀ s r, dec (e (enc s r)) r = e s) (rounds : List Nat) (s : Block) :
    rounds.reverse.foldl dec (e (rounds.foldl enc s)) = e s := by
  induction rounds generalizing s with
  | nil => rfl
  | cons r rounds ih =>
    rw [List.reverse_cons, List.foldl_append, List.foldl_cons (l := rounds), ih, List.foldl_cons, List.foldl_nil, h]

theorem aesDecrypt_aesEncrypt (k b : Block) : aesDecrypt k (aesEncrypt k b) = b := by
  have hround (s : Block) (r : Nat) : invMixColumns (addRoundKey k r (invSubBytes (invShiftRows
      (shiftRows (subBytes (addRoundKey k r (mixColumns (shiftRows (subBytes s))))))))) = shiftRows (subBytes s) := by
    rw [invShiftRows_shiftRows, invSubBytes_subBytes, addRoundKey_addRoundKey, invMixColumns_mixColumns]
  have hrounds := foldl_reverse_undo (enc := fun s r => addRoundKey k r (mixColumns (shiftRows (subBytes s))))
    (dec := fun s r => invMixColumns (addRoundKey k r (invSubBytes (invShiftRows s))))
    (e := fun s => shiftRows (subBytes s)) hround [1, 2, 3, 4, 5, 6, 7, 8, 9] (addRoundKey k 0 b)
  rw [aesDecrypt_eq_rounds, aesEncrypt_eq_rounds, addRoundKey_addRoundKey]
  refine (congrArg _ (congrArg _ (congrArg _ hrounds))).trans ?_
  rw [invShiftRows_shiftRows, invSubBytes_subBytes, addRoundKey_addRoundKey]

/-- Settles O33: each round of the inverse cipher undoes one of the cipher. -/
theorem aesDecryptUndoesEncrypt : Obligations.AesDecryptUndoesEncrypt := by
  unfold Obligations.AesDecryptUndoesEncrypt
  exact aesDecrypt_aesEncrypt

end Sys2Proof.Machine
end

section
/-! SUPPORT. The chaining of the CBC mode and its round trip on byte sequences, and the statement about the chaining
(41_crypto.md R172 to R174). -/

namespace Sys2Proof.Machine

/-! ### Lists of blocks -/

/-- Each ciphertext block is the cipher of the plaintext block and the ciphertext block before it (R172). -/
theorem cbcEncBlocks_getD (k prev : Block) (ps : List Block) {i : Nat} (hi : i < ps.length) :
    (cbcEncBlocks k prev ps).getD i default =
      aesEncrypt k (xorBlock (ps.getD i default)
        (if i = 0 then prev else (cbcEncBlocks k prev ps).getD (i - 1) default)) := by
  induction ps generalizing prev i with
  | nil => exact absurd hi (Nat.not_lt_zero i)
  | cons p ps ih =>
    cases i with
    | zero => rfl
    | succ i =>
      rw [cbcEncBlocks, List.getD_cons_succ, ih _ (Nat.lt_of_succ_lt_succ hi)]
      cases i <;> rfl

/-- Each plaintext block is the inverse cipher of the ciphertext block, plus the ciphertext block before it (R173). -/
theorem cbcDecBlocks_getD (k prev : Block) (cs : List Block) {i : Nat} (hi : i < cs.length) :
    (cbcDecBlocks k prev cs).getD i default =
      xorBlock (aesDecrypt k (cs.getD i default)) (if i = 0 then prev else cs.getD (i - 1) default) := by
  induction cs generalizing prev i with
  | nil => exact absurd hi (Nat.not_lt_zero i)
  | cons c cs ih =>
    cases i with
    | zero => rfl
    | succ i =>
      rw [cbcDecBlocks, List.getD_cons_succ, ih _ (Nat.lt_of_succ_lt_succ hi)]
      cases i <;> rfl

theorem cbcDecBlocks_cbcEncBlocks (k prev : Block) (ps : List Block) :
    cbcDecBlocks k prev (cbcEncBlocks k prev ps) = ps := by
  induction ps generalizing prev with
  | nil => rfl
  | cons p ps ih => rw [cbcEncBlocks, cbcDecBlocks, ih, aesDecrypt_aesEncrypt, xorBlock_self_right]

/-! ### Byte sequences -/

theorem blockAt_bytesOf_eq_getD (bs : List Block) {i : Nat} (hi : i < bs.length) :
    blockAt (bytesOf bs) i = bs.getD i default := by
  rw [blockAt_bytesOf bs i hi, List.getD_eq_getElem _ _ hi]

theorem blocksOf_getD {p : List Byte} (hp : p.length % 16 = 0) {i : Nat} (hi : i < p.length / 16) :
    (blocksOf p).getD i default = blockAt p i := by
  rw [List.getD_eq_getElem?_getD, blocksOf_getElem? hp hi, Option.getD_some]

/-- Under the same key and IV decryption gives back whole blocks (41_crypto.md section 2). -/
theorem cbcDec_cbcEnc (k iv : Block) {p : List Byte} (hp : p.length % 16 = 0) : cbcDec k iv (cbcEnc k iv p) = p := by
  rw [cbcDec, cbcEnc, blocksOf_bytesOf, cbcDecBlocks_cbcEncBlocks, bytesOf_blocksOf hp]

/-- Settles O34: the chaining of the block lists, read at the multiples of 16. -/
theorem cbcChainsTheBlocks : Obligations.CbcChainsTheBlocks := by
  unfold Obligations.CbcChainsTheBlocks
  refine fun k iv p hp => ⟨cbcEnc_length k iv hp, cbcDec_length k iv hp, fun i hi => ?_⟩
  have hlen := blocksOf_length hp
  have henc {j : Nat} (hj : j < p.length / 16) :
      blockAt (cbcEnc k iv p) j = (cbcEncBlocks k iv (blocksOf p)).getD j default :=
    blockAt_bytesOf_eq_getD _ (by rwa [cbcEncBlocks_length, hlen])
  have hdec : blockAt (cbcDec k iv p) i = (cbcDecBlocks k iv (blocksOf p)).getD i default :=
    blockAt_bytesOf_eq_getD _ (by rwa [cbcDecBlocks_length, hlen])
  have hprev : i - 1 < p.length / 16 := by omega
  refine ⟨?_, ?_⟩
  · rw [henc hi, henc hprev, cbcEncBlocks_getD k iv _ (hlen ▸ hi), blocksOf_getD hp hi]
  · rw [hdec, cbcDecBlocks_getD k iv _ (hlen ▸ hi), blocksOf_getD hp hi, blocksOf_getD hp hprev]

end Sys2Proof.Machine
end

section
/-! SUPPORT. An output moved into SRC is the next command's input, and the statements about the three round trips
(40_framer.md sections 4 and 5; 41_crypto.md section 4; 42_crc.md section 5). -/

namespace Sys2Proof.Machine

/-- What a command has left in DST is the input of the next one, once it has been moved into SRC (30_encoding.md R103). -/
theorem input_of_movedToSrc {m : Memory} {t u : State} {bs : List Byte} (hmoved : MovedToSrc t u)
    (hdst : m.Overwrites t.dst bs) (hlen : t.dstLen.toNat = bs.length) : u.input = bs ∧ u.inputLen = bs.length := by
  obtain ⟨-, hsrcLen, hsrc⟩ := hmoved
  have hn : u.inputLen = bs.length := by rw [State.inputLen, hsrcLen, hlen]
  refine ⟨?_, hn⟩
  rw [State.input, hn]
  refine Memory.read_eq_of_written fun i hi => ?_
  rw [Nat.zero_add, hsrc i (hlen ▸ hi), hdst.1 i hi]

/-- Settles O35: the ciphertext in SRC decrypts to the input. -/
theorem cipherRoundTrip : Obligations.CipherRoundTrip := by
  unfold Obligations.CipherRoundTrip
  intro s _ hle hblocks
  obtain ⟨-, -, henc⟩ := aesCbcEncEncryptsTheInput.2 s
  obtain ⟨d, hd, hlen, hexec⟩ := henc hle hblocks
  refine ⟨_, hexec, fun u hmoved hkey hiv => ?_⟩
  obtain ⟨hinput, hn⟩ := input_of_movedToSrc hmoved hd hlen.symm
  obtain ⟨hparams : u.params = s.params, hsrcLen, -⟩ := hmoved
  rw [hlen] at hn
  obtain ⟨-, -, hdec⟩ := aesCbcDecDecryptsTheInput.2 u
  obtain ⟨d', ⟨hin, -⟩, -, hexec'⟩ := hdec (by rwa [hn, hparams]) (by rwa [hn])
  have hplain : cbcDec u.key u.iv u.input = s.input := by
    rw [hinput, hkey, hiv, cbcDec_cbcEnc _ _ (by rwa [State.input_length])]
  rw [hplain, State.input_length] at hin
  exact ⟨_, hexec', rfl, hsrcLen, hin⟩

/-- What FRAME_DECODE looks at in a packet: the error code field is the template's, and what follows the header decrypts
to the padded payload (40_framer.md R124, R128). -/
theorem packetFields_parts {s : State} (h : s.params.hdrTemplate.length = 0x38) (code ver : Byte) (src : List Byte)
    (cs : Half) :
    let pkt := packetFields s code ver (paddedPayload src) cs
    (pkt.getD 0x22 0).toNat + 256 * (pkt.getD 0x23 0).toNat =
      (s.params.hdrTemplate.getD 0x22 0).toNat + 256 * (s.params.hdrTemplate.getD 0x23 0).toNat ∧
    cbcDec s.key s.iv (slice pkt 0x38 (0x38 + pad16 src.length)) = paddedPayload src := by
  intro pkt
  have hfield {k : Nat} (hk : k < 2) : pkt.getD (0x22 + k) 0 = s.params.hdrTemplate.getD (0x22 + k) 0 := by
    rw [List.getD_eq_getElem?_getD, packetFields_template h code ver _ _ hk, ← List.getD_eq_getElem?_getD]
  refine ⟨?_, ?_⟩
  · exact congrArg₂ (fun lo hi : Byte => lo.toNat + 256 * hi.toNat) (hfield (k := 0) (by decide))
      (hfield (k := 1) (by decide))
  · rw [slice_eq_drop _ (packetFields_length h code ver src cs).le, packetFields_drop h, cbcDec_cbcEnc]
    rw [paddedPayload_length]
    exact pad16_mod _

/-- Settles O36: each clause is one of FRAME_DECODE's, on an input whose parts are the template's and the payload's. -/
theorem packetRoundTrip : Obligations.PacketRoundTrip := by
  unfold Obligations.PacketRoundTrip
  intro s code ver hwf hoff hfit e
  obtain ⟨-, -, hencode⟩ := frameEncodeBuildsThePacket.2 s code ver hwf
  obtain ⟨d, hd, hlen, hexec⟩ := hencode hfit
  rw [← paddedPayload_input] at hd hlen
  refine ⟨_, hexec, fun u hmoved hkey hiv => ?_⟩
  obtain ⟨hinput, hn⟩ := input_of_movedToSrc hmoved hd ((toNat_ofNat_length hwf hfit).trans hlen.symm)
  obtain ⟨hparams : u.params = s.params, -, -⟩ := hmoved
  obtain ⟨he, hplain⟩ := packetFields_parts (hdrTemplate_length hwf) code ver s.input _
  rw [← hinput] at he hplain
  rw [State.input_length] at hplain
  have hmod := pad16_mod s.inputLen
  have hpad := le_pad16 s.inputLen
  obtain ⟨-, -, hdevice, hmalformed, hsplit⟩ := frameDecodeSplitsTheReply.2 u (hparams ▸ hwf)
  rw [hparams, hoff, hn.trans hlen, he] at hdevice hmalformed hsplit
  rw [hkey, hiv, hplain, Nat.add_sub_cancel_left] at hsplit
  by_cases he0 : e = 0
  · rcases Nat.eq_zero_or_pos s.inputLen with hn0 | hpos
    · have hpad0 : pad16 s.inputLen = 0 := by rw [hn0]; rfl
      exact ⟨_, hmalformed hfit (by omega) he0 (.inl (by omega)), fun h => absurd he0 h, fun _ _ => rfl,
        fun _ h => absurd hn0 (Nat.ne_of_gt h)⟩
    · obtain ⟨d', ⟨hin, -⟩, hlen', hexec'⟩ := hsplit hfit (by omega) he0 hmod
      refine ⟨_, hexec', fun h => absurd he0 h, fun _ h => absurd h (Nat.ne_of_gt hpos), fun _ _ => ⟨rfl, ?_, rfl, ?_⟩⟩
      · exact toNat_ofNat_length hwf (by omega)
      · intro i hi
        refine (hin i (by rwa [hlen'])).trans ?_
        rw [slice_getElem? _ (by omega), Nat.add_comm]
  · exact ⟨_, hdevice hfit (by omega) he0, fun _ => ⟨rfl, rfl⟩, fun h => absurd h he0, fun h => absurd h he0⟩

/-! ### The HysenFrame -/

/-- The parts of a HysenFrame: its length field, its payload and its CRC (42_crc.md R203). -/
theorem hysenFrame_parts (q : List Byte) (hq : q.length + 2 < 2 ^ 16) :
    (rdLE16 (hysenFrame q) 0).toNat = q.length + 2 ∧ slice (hysenFrame q) 2 (q.length + 2) = q ∧
    rdLE16 (hysenFrame q) (q.length + 2) = crc16 q := by
  refine ⟨?_, ?_, ?_⟩
  · have h := rdLE16_of_le16 (BitVec.ofNat 16 (q.length + 2)) [] (q ++ le16 (crc16 q)) 0 rfl
    rw [List.nil_append, ← List.append_assoc] at h
    rw [hysenFrame, h, BitVec.toNat_ofNat, Nat.mod_eq_of_lt hq]
  · rw [hysenFrame, List.append_assoc, slice, List.drop_left' (le16_length _), Nat.add_sub_cancel, List.take_left]
  · have h := rdLE16_of_le16 (crc16 q) (le16 (BitVec.ofNat 16 (q.length + 2)) ++ q) [] (q.length + 2)
      (by rw [List.length_append, le16_length, Nat.add_comm])
    rwa [List.append_nil] at h

/-- Settles O37: the frame's length field covers its payload and its CRC, and its CRC is the payload's. -/
theorem hysenFrameRoundTrip : Obligations.HysenFrameRoundTrip := by
  unfold Obligations.HysenFrameRoundTrip
  intro s hwf hfit
  obtain ⟨-, -, hwrap⟩ := hframeWrapBuildsTheFrame.2 s
  obtain ⟨d, hd, hexec⟩ := hwrap hfit
  have hq := s.input_length
  have hframe := hysenFrame_eq s.input
  rw [hq] at hframe
  rw [← hframe] at hd
  have hlen : (hysenFrame s.input).length = s.inputLen + 4 := by rw [hysenFrame_length, hq]
  refine ⟨_, hexec, fun u hmoved => ?_⟩
  obtain ⟨hinput, hn⟩ := input_of_movedToSrc hmoved hd ((toNat_ofNat_length hwf hfit).trans hlen.symm)
  obtain ⟨hparams : u.params = s.params, -, -⟩ := hmoved
  rw [hlen] at hn
  obtain ⟨hl, hpayload, hcrc⟩ := hysenFrame_parts s.input (by have := bufBytes_le hwf; omega)
  rw [hq, ← hinput] at hl hpayload hcrc
  rw [rdLE16_toNat] at hl
  obtain ⟨-, -, -, hcheck⟩ := hframeCheckExtractsThePayload.2 u
  rw [Nat.zero_add] at hl
  rw [hl, hpayload, hn, ← rdLE16_toNat, hcrc, crc16_eq, hparams] at hcheck
  obtain ⟨d', ⟨hin, -⟩, -, hexec'⟩ := hcheck hfit (by omega) (by omega) (by omega) rfl
  rw [hq] at hin
  exact ⟨_, hexec', rfl, ofNat_inputLen s, rfl, hin⟩

end Sys2Proof.Machine
end

section
/-! SUPPORT. STATUS bit by bit and the registers' reads and writes, and the statements about them (10_state.md R23 to R35;
20_memory.md R62). -/

namespace Sys2Proof.Machine

/-! ### STATUS -/

/-- The four fields where they stand, every other bit 0 (R25). -/
theorem statusWord_getLsbD (s : State) {k : Nat} (hk : k < 32) : s.statusWord.getLsbD k =
    if k = 0 then s.busy else if k = 1 then s.done else if k = 2 then s.ovr
    else if 8 ≤ k ∧ k ≤ 11 then s.err.getLsbD (k - 8) else false := by
  have herr : ∀ j, 4 ≤ j → s.err.getLsbD j = false := fun j hj => BitVec.getLsbD_of_ge _ _ hj
  simp only [State.statusWord, BitVec.getLsbD_or, BitVec.getLsbD_setWidth, BitVec.getLsbD_shiftLeft,
    BitVec.getLsbD_ofBool]
  grind

/-- A commit leaves an ERR of at most 7 (60_exceptions.md R240). -/
theorem err_le_of_exec {i : Instr} {s t : State} (h : exec i s = .next t) : t.err.toNat ≤ 7 := by
  cases endsIn_of_exec h with
  | success n w hw => exact Nat.zero_le 7
  | error n e he => exact e.code_range.2

/-- Settles O44: the register's bits, the write that only clears, and the codes of the two commits. -/
theorem statusRegisterLayout : Obligations.StatusRegisterLayout := by
  unfold Obligations.StatusRegisterLayout
  refine ⟨fun s k hk => ?_, memWrite_status, fun _ _ _ => err_le_of_exec⟩
  rw [memRead_status, statusWord_getLsbD s hk]

/-! ### KEY and IV word by word -/

/-- Word j of a block is its bytes 4j to 4j+3. -/
theorem blockBytes_getElem? (b : Block) (j : Fin 4) {k : Nat} (hk : k < 4) :
    (blockBytes b)[4 * j.val + k]? = (columnBytes (blockColumn b j))[k]? := by
  fin_cases j <;> interval_cases k <;> rfl

/-- Byte 4j+k of a block is in bits 8k+7 to 8k of its register j (R62). -/
theorem columnBytes_getElem? (c : Column) {k : Nat} (hk : k < 4) :
    (columnBytes c)[k]? = some ((columnWord c).extractLsb' (8 * k) 8) := by
  rw [show columnWord c = bytesWord (columnBytes c) from rfl, extractLsb'_bytesWord _ hk]
  interval_cases k <;> rfl

/-- A block with word j written: its bytes 4j to 4j+3 are the word's, little-endian, and the other twelve are kept. -/
theorem blockBytes_setBlockColumn (b : Block) (j : Fin 4) (v : Word) {i : Nat} (hi : i < 16) :
    (blockBytes (setBlockColumn b j (wordColumn v)))[i]? =
      if 4 * j.val ≤ i ∧ i < 4 * j.val + 4 then some (v.extractLsb' (8 * (i - 4 * j.val)) 8) else (blockBytes b)[i]? := by
  obtain ⟨q, k, hk, rfl⟩ : ∃ (q : Fin 4) (k : Nat), k < 4 ∧ i = 4 * q.val + k :=
    ⟨⟨i / 4, by omega⟩, i % 4, by omega, (Nat.div_add_mod i 4).symm⟩
  rw [blockBytes_getElem? _ q hk, blockBytes_getElem? _ q hk]
  by_cases hqj : q = j
  · subst hqj
    rw [if_pos (by omega), blockColumn_setBlockColumn, columnBytes_getElem? _ hk, columnWord_wordColumn,
      Nat.add_sub_cancel_left]
  · have hne := Fin.val_ne_of_ne hqj
    rw [if_neg (by omega), blockColumn_setBlockColumn_ne b _ hqj]

/-! ### Reads and writes of registers -/

theorem locate_key (p : Params) (j : Fin 4) : locate p (BitVec.ofNat 14 (0x030 + 4 * j.val)) = .reg (.key j) :=
  locate_eq_reg_iff.2 (wordOffset_ofNat (by omega) (by omega))

theorem locate_iv (p : Params) (j : Fin 4) : locate p (BitVec.ofNat 14 (0x040 + 4 * j.val)) = .reg (.iv j) :=
  locate_eq_reg_iff.2 (wordOffset_ofNat (by omega) (by omega))

/-- A register write is performed while BUSY = 0. -/
theorem memWrite_reg_of_idle {s : State} {a : Offset} {r : Reg} (hb : s.busy = false) (h : locate s.params a = .reg r)
    (v : Word) : memWrite s a v = writeReg s r v := by
  rw [memWrite_reg h, hb, Bool.false_and, if_neg Bool.false_ne_true]

/-- A register reads back what a performed write of it gives. -/
theorem memRead_memWrite_reg {s : State} {a : Offset} {r : Reg} (hb : s.busy = false) (h : locate s.params a = .reg r)
    (v : Word) : memRead (memWrite s a v) a = readReg (writeReg s r v) r := by
  rw [memWrite_reg_of_idle hb h]
  exact memRead_reg (by rwa [(writeReg_frame s r v).params])

/-- A register of `n` bits keeps the low `n` bits of a word. -/
theorem setWidth_setWidth_eq_and (v : Word) (n : Nat) :
    (v.setWidth n).setWidth 32 = v &&& (BitVec.allOnes n).setWidth 32 := by
  ext i hi
  rw [BitVec.getElem_and, BitVec.getElem_setWidth, BitVec.getElem_setWidth, BitVec.getLsbD_setWidth,
    BitVec.getLsbD_allOnes, BitVec.getLsbD_eq_getElem hi, Bool.and_comm]

theorem ofBool_getLsbD_zero (v : Word) : BitVec.ofBool (v.getLsbD 0) = v.setWidth 1 := by
  ext i hi
  obtain rfl : i = 0 := by omega
  simp

/-- Settles O50: each offset is a register's, whose read gives the field and whose performed write replaces the field
alone; a word of KEY or IV is four of its sixteen bytes. -/
theorem registersReadBackWrites : Obligations.RegistersReadBackWrites := by
  unfold Obligations.RegistersReadBackWrites
  refine ⟨fun s => ?reads, fun s v hb => ?writes⟩
  case reads =>
    have hread {a : Offset} (r : Reg) (h : wordOffset a = r.offset) : memRead s a = readReg s r :=
      memRead_reg (locate_eq_reg_iff.2 h)
    refine ⟨(hread .irqEn rfl).trans ?_, hread .srcLen rfl, hread .dstLen rfl, hread .result rfl, hread .echo rfl,
      hread .counter rfl, hread .devid rfl, hread .macLo rfl, hread .macHi rfl, fun j k hj hk => ⟨?_, ?_⟩⟩
    · rw [readReg]
      cases s.doneIe <;> rfl
    · rw [memRead_reg (locate_key s.params ⟨j, hj⟩), readReg, ← columnBytes_getElem? _ hk]
      exact blockBytes_getElem? s.key ⟨j, hj⟩ hk
    · rw [memRead_reg (locate_iv s.params ⟨j, hj⟩), readReg, ← columnBytes_getElem? _ hk]
      exact blockBytes_getElem? s.iv ⟨j, hj⟩ hk
  case writes =>
    have hwrite {a : Offset} (r : Reg) (h : wordOffset a = r.offset) : memWrite s a v = writeReg s r v :=
      memWrite_reg_of_idle hb (locate_eq_reg_iff.2 h) v
    have hback {a : Offset} (r : Reg) (h : wordOffset a = r.offset) :
        memRead (memWrite s a v) a = readReg (writeReg s r v) r :=
      memRead_memWrite_reg hb (locate_eq_reg_iff.2 h) v
    have hlow : (v.setWidth 16).setWidth 32 = v &&& 0xFFFF := setWidth_setWidth_eq_and v 16
    have hbit : (BitVec.ofBool (v.getLsbD 0)).setWidth 32 = v &&& 1 := by
      rw [ofBool_getLsbD_zero]
      exact setWidth_setWidth_eq_and v 1
    refine ⟨⟨_, hwrite .srcLen rfl, (hback .srcLen rfl).trans hlow⟩,
      ⟨_, hwrite .counter rfl, (hback .counter rfl).trans hlow⟩, ⟨_, hwrite .devid rfl, hback .devid rfl⟩,
      ⟨_, hwrite .macLo rfl, hback .macLo rfl⟩, ⟨_, hwrite .macHi rfl, (hback .macHi rfl).trans hlow⟩,
      ⟨_, hwrite .irqEn rfl, (hback .irqEn rfl).trans hbit⟩, fun j hj => ?_⟩
    have hword (b : Block) : columnWord (blockColumn (setBlockColumn b ⟨j, hj⟩ (wordColumn v)) ⟨j, hj⟩) = v := by
      rw [blockColumn_setBlockColumn, columnWord_wordColumn]
    have hkey := locate_key s.params ⟨j, hj⟩
    have hiv := locate_iv s.params ⟨j, hj⟩
    exact ⟨⟨_, memWrite_reg_of_idle hb hkey v, fun i => blockBytes_setBlockColumn s.key ⟨j, hj⟩ v,
        (memRead_memWrite_reg hb hkey v).trans (hword s.key)⟩,
      ⟨_, memWrite_reg_of_idle hb hiv v, fun i => blockBytes_setBlockColumn s.iv ⟨j, hj⟩ v,
        (memRead_memWrite_reg hb hiv v).trans (hword s.iv)⟩⟩

end Sys2Proof.Machine
end

section
/-! SUPPORT. Reads that change nothing, writes that are idempotent, and the host's one access a turn, with the statements
about them (20_memory.md R68, R72; 30_encoding.md R101). -/

namespace Sys2Proof.Machine

/-! ### The host agent apart from the bus -/

/-- The schedule is no part of the program. -/
theorem popSched_prog (s : State) : (popSched s).host.prog = s.host.prog := by rw [popSched_eq]; rfl

theorem memWrite_withHost (s : State) (h : HostSide) (a : Offset) (v : Word) :
    memWrite (s.withHost h) a v = (memWrite s a v).withHost h := by
  cases hl : locate s.params a with
  | reg r =>
    rw [memWrite_reg hl, memWrite_reg (s := s.withHost h) hl, State.withHost_busy]
    split
    · rfl
    · cases r <;> rfl
  | src i =>
    rw [memWrite, memWrite, State.withHost_params, hl, State.withHost_busy]
    simp only
    split <;> rfl
  | dst i => rw [memWrite_dst hl, memWrite_dst (s := s.withHost h) hl]
  | reserved => rw [memWrite_reserved hl, memWrite_reserved (s := s.withHost h) hl]

section
variable {s : State} {r : List HostOp}

theorem hostTurn_nil (h : s.host.prog = []) : hostTurn s = s := by rw [hostTurn, h]

theorem hostTurn_rd {a : Offset} (h : s.host.prog = .rd a :: r) : hostTurn s = hostReads s (memRead s a) r := by
  rw [hostTurn, h]

theorem hostTurn_wr {a : Offset} {v : Word} (h : s.host.prog = .wr a v :: r) :
    hostTurn s = (memWrite s a v).withHost { s.host with prog := r } := by rw [hostTurn, h]

/-- One poll of WAIT: it stays while STATUS reads BUSY (30_encoding.md R103). -/
theorem hostTurn_wait (h : s.host.prog = .wait :: r) :
    hostTurn s = hostReads s (memRead s 0x004) (if s.busy then .wait :: r else r) := by
  have hbit : (memRead s 0x004).getLsbD 0 = s.busy := by
    rw [memRead_status, statusWord_getLsbD s (by decide), if_pos rfl]
  rw [hostTurn, h]
  simp only [hbit]

end

/-! ### Idempotent writes -/

/-- Writing the same bytes again changes nothing, as the buffer has one canonical form. -/
theorem Memory.setBytes_setBytes_same {m : Memory} (h : m.wf = true) (a : Nat) (bs : List Byte) :
    (m.setBytes a bs).setBytes a bs = m.setBytes a bs := by
  have hwf := Memory.wf_setBytes a bs h
  refine Memory.ext_of_wf (Memory.wf_setBytes a bs hwf) hwf fun x => ?_
  rw [Memory.get?_setBytes]
  split
  · next hx => rw [Memory.get?_setBytes, if_pos hx]
  · rfl

theorem setBlockColumn_setBlockColumn (b : Block) (j : Fin 4) (c : Column) :
    setBlockColumn (setBlockColumn b j c) j c = setBlockColumn b j c := by
  fin_cases j <;> rfl

/-- Every register write but an issue is idempotent; STATUS clears the same bits again (20_memory.md R68). -/
theorem writeReg_writeReg (s : State) {r : Reg} (hr : r ≠ .command) (v : Word) :
    writeReg (writeReg s r v) r v = writeReg s r v := by
  cases r with
  | command => exact absurd rfl hr
  | status => simp only [writeReg, State.clearStatus, Bool.and_assoc, Bool.and_self]
  | key j | iv j => simp only [writeReg, setBlockColumn_setBlockColumn]
  | irqEn | srcLen | dstLen | result | echo | counter | devid | macLo | macHi => rfl

theorem writeReg_busy {s : State} {r : Reg} (hr : r ≠ .command) (v : Word) : (writeReg s r v).busy = s.busy := by
  cases r with
  | command => exact absurd rfl hr
  | _ => rfl

theorem memWrite_memWrite {s : State} {a : Offset} (hwf : s.src.wf = true) (ha : locate s.params a ≠ .reg .command)
    (v : Word) : memWrite (memWrite s a v) a v = memWrite s a v := by
  have hparams := (memWrite_frame s a v).params
  cases hl : locate s.params a with
  | reg r =>
    have hr : r ≠ .command := by
      rintro rfl
      exact ha hl
    rw [memWrite_reg (hparams.symm ▸ hl), memWrite_reg hl]
    cases hg : s.busy && r.guarded with
    | true => simp only [if_true, State.dropWrite_busy, hg]; rfl
    | false => simp only [Bool.false_eq_true, if_false, writeReg_busy hr, hg, writeReg_writeReg s hr]
  | src i =>
    cases hb : s.busy with
    | true =>
      have hguarded := congrArg Loc.guarded hl
      rw [memWrite_of_guarded hb hguarded, memWrite_of_guarded (s := s.dropWrite) hb hguarded]
      rfl
    | false =>
      rw [memWrite_src hl hb, memWrite_src (s := s.storeSrc i _) hl hb]
      simp only [State.storeSrc, Memory.setBytes_setBytes_same hwf]
  | dst i => rw [memWrite_dst hl, memWrite_dst hl]
  | reserved => rw [memWrite_reserved hl, memWrite_reserved hl]

/-! ### The statements about the host's accesses -/

/-- Settles O52: a read's turn is the host agent's alone, every write but an issue is idempotent, and a second issue is
dropped, which sets OVR. -/
theorem readsHaveNoSideEffects : Obligations.ReadsHaveNoSideEffects := by
  unfold Obligations.ReadsHaveNoSideEffects
  refine ⟨fun s t a r hturn hprog ht => ?_, fun s a v hs ha => ?_, fun s v hb hovr heq => ?_⟩
  · rw [step_of_host hturn, hostTurn_rd ((popSched_prog s).trans hprog), popSched_eq] at ht
    cases ht
    exact ⟨rfl, rfl, rfl⟩
  · obtain ⟨-, ⟨hwf, -⟩, -⟩ := hs
    exact memWrite_memWrite hwf (mt locate_eq_reg_iff.1 ha) v
  · rw [memWrite_command_of_idle hb,
      memWrite_of_guarded (s := s.issue v) rfl (congrArg Loc.guarded (locate_command s.params))] at heq
    have := congrArg State.ovr heq
    rw [State.dropWrite_ovr, State.issue_ovr, hovr] at this
    cases this

/-- Settles O53: the first operation of the program decides the turn, and the schedule is no part of the access. -/
theorem hostTurnMakesOneAccess : Obligations.HostTurnMakesOneAccess := by
  unfold Obligations.HostTurnMakesOneAccess
  intro s hturn
  rw [step_of_host hturn]
  have hpop {ops : List HostOp} (hprog : s.host.prog = ops) : (popSched s).host.prog = ops :=
    (popSched_prog s).trans hprog
  refine ⟨fun hprog => ?_, fun a v r hprog => ⟨_, rfl, ?_⟩, fun a r hprog => ⟨_, rfl, ?_⟩, fun r hprog => ⟨_, rfl, ?_⟩⟩
  · rw [hostTurn_nil (hpop hprog)]
  · rw [hostTurn_wr (hpop hprog), popSched_eq, memWrite_withHost]
    exact ⟨rfl, rfl⟩
  · rw [hostTurn_rd (hpop hprog), popSched_eq]
    exact ⟨rfl, rfl⟩
  · rw [hostTurn_wait (hpop hprog), popSched_eq]
    exact ⟨rfl, rfl⟩

end Sys2Proof.Machine
end

section
/-! SUPPORT. Runs in which the host moves alone: programs of writes, the session's registers, and one command with its WAIT,
with the statements about them (30_encoding.md R101 to R103). -/

namespace Sys2Proof.Machine

/-! ### Runs of the host -/

/-- With an empty schedule and an idle engine the host moves (log 6). -/
theorem step_of_idle {s : State} (hb : s.busy = false) (hsched : s.host.sched = []) : step s = .next (hostTurn s) := by
  have hturn : nextTurn s = .host := by
    rw [nextTurn, hsched, hb]
    rfl
  rw [step_of_host hturn, popSched_of_nil hsched]

theorem run_add {m : Nat} {s t : State} (h : core.run m s = .next t) (n : Nat) : core.run (m + n) s = core.run n t := by
  induction m generalizing s with
  | zero =>
    cases h
    rw [Nat.zero_add]
  | succ m ih =>
    obtain ⟨u, hu⟩ := exists_step s
    rw [run_succ hu] at h
    rw [Nat.add_right_comm, run_succ hu]
    exact ih h

/-- One write of a list, as the host's program has it. -/
def writeOp (w : Offset × Word) : HostOp := .wr w.1 w.2

/-- The state after a list of writes, apart from the host agent. -/
def writeAll (s : State) (ws : List (Offset × Word)) : State := ws.foldl (fun s w => memWrite s w.1 w.2) s

theorem writeAll_withHost (s : State) (h : HostSide) (ws : List (Offset × Word)) :
    writeAll (s.withHost h) ws = (writeAll s ws).withHost h := by
  induction ws generalizing s with
  | nil => rfl
  | cons w ws ih => rw [writeAll, List.foldl_cons, memWrite_withHost, ← writeAll, ih]; rfl

/-- Only a write of COMMAND makes the engine busy (R96). -/
theorem memWrite_busy_of_idle {s : State} {a : Offset} (hb : s.busy = false) (ha : wordOffset a ≠ 0) (v : Word) :
    (memWrite s a v).busy = false := by
  cases hl : locate s.params a with
  | reg r =>
    have hr : r ≠ .command := by
      rintro rfl
      exact ha (locate_eq_reg_iff.1 hl)
    rw [memWrite_reg_of_idle hb hl, writeReg_busy hr, hb]
  | src i => rw [memWrite_src hl hb, State.storeSrc_busy, hb]
  | dst i => rw [memWrite_dst hl, hb]
  | reserved => rw [memWrite_reserved hl, hb]

/-- A program of writes none of which issues a command makes them all, one a step. -/
theorem run_writes {s : State} {ws : List (Offset × Word)} {r : List HostOp} (hb : s.busy = false)
    (hsched : s.host.sched = []) (hprog : s.host.prog = ws.map writeOp ++ r) (hws : ∀ w ∈ ws, wordOffset w.1 ≠ 0) :
    core.run ws.length s = .next ((writeAll s ws).withHost { s.host with prog := r }) := by
  induction ws generalizing s with
  | nil =>
    rw [List.map_nil, List.nil_append] at hprog
    rw [← hprog]
    rfl
  | cons w ws ih =>
    have hstep : step s = .next ((memWrite s w.1 w.2).withHost { s.host with prog := ws.map writeOp ++ r }) :=
      (step_of_idle hb hsched).trans (congrArg _ (hostTurn_wr hprog))
    have hrest := ih (s := (memWrite s w.1 w.2).withHost { s.host with prog := ws.map writeOp ++ r })
      (memWrite_busy_of_idle hb (hws w List.mem_cons_self) w.2) hsched rfl fun x hx => hws x (List.mem_cons_of_mem w hx)
    rw [writeAll_withHost] at hrest
    exact (run_succ hstep _).trans hrest

/-! ### The session's registers -/

theorem Reg.offset_mod (r : Reg) : r.offset % 4 = 0 := by
  cases r with
  | key j | iv j => simp only [Reg.offset]; omega
  | _ => rfl

theorem wordOffset_offset (r : Reg) : wordOffset (BitVec.ofNat 14 r.offset) = r.offset :=
  wordOffset_ofNat r.offset_mod (by have := r.offset_bounds; omega)

/-- A write of a register, at its offset. -/
def regWrite (w : Reg × Word) : Offset × Word := (BitVec.ofNat 14 w.1.offset, w.2)

/-- Writes of registers other than COMMAND are performed one after another while BUSY = 0. -/
theorem writeAll_regWrite {s : State} (hb : s.busy = false) {ws : List (Reg × Word)} (hws : ∀ w ∈ ws, w.1 ≠ .command) :
    writeAll s (ws.map regWrite) = ws.foldl (fun s w => writeReg s w.1 w.2) s := by
  induction ws generalizing s with
  | nil => rfl
  | cons w ws ih =>
    have hw := hws w List.mem_cons_self
    have hwrite : memWrite s (BitVec.ofNat 14 w.1.offset) w.2 = writeReg s w.1 w.2 :=
      memWrite_reg_of_idle hb (locate_eq_reg_iff.2 (wordOffset_offset w.1)) w.2
    rw [List.map_cons, writeAll, List.foldl_cons, List.foldl_cons, regWrite, hwrite]
    exact ih (by rwa [writeReg_busy hw]) fun x hx => hws x (List.mem_cons_of_mem w hx)

theorem run_regWrites {s : State} {ws : List (Reg × Word)} {r : List HostOp} (hb : s.busy = false)
    (hsched : s.host.sched = []) (hprog : s.host.prog = (ws.map regWrite).map writeOp ++ r)
    (hws : ∀ w ∈ ws, w.1 ≠ .command) :
    core.run ws.length s =
      .next ((ws.foldl (fun s w => writeReg s w.1 w.2) s).withHost { s.host with prog := r }) := by
  have hrun := run_writes hb hsched hprog fun w hw => ?_
  · rwa [List.length_map, writeAll_regWrite hb hws] at hrun
  · obtain ⟨x, hx, rfl⟩ := List.mem_map.1 hw
    exact fun h0 => hws x hx (Reg.offset_injective ((wordOffset_offset x.1).symm.trans h0))

/-- The bytes of a word that four bytes make. -/
theorem wordBytes_bytesWord (bs : List Byte) :
    wordBytes (bytesWord bs) = [bs.getD 0 0, bs.getD 1 0, bs.getD 2 0, bs.getD 3 0] := by
  have hbyte {k : Nat} (hk : k < 4) := extractLsb'_bytesWord bs hk
  rw [← hbyte (k := 0) (by decide), ← hbyte (k := 1) (by decide), ← hbyte (k := 2) (by decide),
    ← hbyte (k := 3) (by decide)]
  rfl

/-- The low half of a word is its first two bytes. -/
theorem le16_setWidth (v : Word) : le16 (v.setWidth 16) = (wordBytes v).take 2 := by
  have hbyte (k : Nat) (hk : k + 8 ≤ 16) : (v.setWidth 16).extractLsb' k 8 = v.extractLsb' k 8 := by
    ext i hi
    rw [BitVec.getElem_extractLsb', BitVec.getElem_extractLsb', BitVec.getLsbD_setWidth,
      decide_eq_true (by omega : k + i < 16), Bool.true_and]
  rw [le16, hbyte 0 (by decide), hbyte 8 (by decide)]
  rfl

/-- The writes of SETKEY, SETIV, SETMAC and SETID, register by register (R103). -/
def sessionWrites (k v : Block) (m0 m1 m2 m3 m4 m5 d0 d1 d2 d3 : Byte) : List (Reg × Word) :=
  [(.key 0, columnWord k.c0), (.key 1, columnWord k.c1), (.key 2, columnWord k.c2), (.key 3, columnWord k.c3),
    (.iv 0, columnWord v.c0), (.iv 1, columnWord v.c1), (.iv 2, columnWord v.c2), (.iv 3, columnWord v.c3),
    (.macLo, bytesWord [m0, m1, m2, m3]), (.macHi, bytesWord [m4, m5]), (.devid, bytesWord [d0, d1, d2, d3])]

theorem foldl_sessionWrites (s : State) (k v : Block) (m0 m1 m2 m3 m4 m5 d0 d1 d2 d3 : Byte) :
    (sessionWrites k v m0 m1 m2 m3 m4 m5 d0 d1 d2 d3).foldl (fun s w => writeReg s w.1 w.2) s =
      { s with key := k, iv := v, macLo := bytesWord [m0, m1, m2, m3], macHi := (bytesWord [m4, m5]).setWidth 16,
               devid := bytesWord [d0, d1, d2, d3] } := by
  simp only [sessionWrites, List.foldl_cons, List.foldl_nil, writeReg, setBlockColumn, wordColumn_columnWord]

/-- Settles O59: eleven register writes, after which KEY and IV are their four columns and MAC and DEVID their bytes. -/
theorem setSessionWritesTheRegisters : Obligations.SetSessionWritesTheRegisters := by
  unfold Obligations.SetSessionWritesTheRegisters
  intro s k v m0 m1 m2 m3 m4 m5 d0 d1 d2 d3 r hb hsched hprog
  have hrun := run_regWrites (ws := sessionWrites k v m0 m1 m2 m3 m4 m5 d0 d1 d2 d3) hb hsched hprog
    (by simp [sessionWrites])
  rw [foldl_sessionWrites] at hrun
  refine ⟨_, hrun, rfl, rfl, ?_, wordBytes_bytesWord _, rfl⟩
  exact congrArg₂ (· ++ ·) (wordBytes_bytesWord _)
    ((le16_setWidth _).trans (congrArg (List.take 2) (wordBytes_bytesWord _)))

/-! ### A command and its WAIT -/

/-- Settles O55: the issue, the engine's step on the state at the issue, and one poll that sees BUSY clear. -/
theorem cmdThenWaitRunsTheCommand : Obligations.CmdThenWaitRunsTheCommand := by
  unfold Obligations.CmdThenWaitRunsTheCommand
  intro s i r _ hb hsched hprog
  let u : State := { s with cmdLatch := encode i, busy := true, done := false, host := { s.host with prog := .wait :: r } }
  obtain ⟨t, ht, -, hbusy, -⟩ := everyCommandCommits i u
  obtain ⟨-, -, -, -, -, -, -, -, -, hhost⟩ := commandsLeaveTheseAlone i u t ht
  have hissue : step s = .next u := by
    rw [step_of_idle hb hsched, hostTurn_wr hprog, memWrite_command_of_idle hb]
    rfl
  have hexec : step u = .next t := by
    have hturn : nextTurn u = .engine := by
      rw [nextTurn, show u.host.sched = [] from hsched]
      rfl
    rw [step_of_engine_busy hturn rfl, popSched_of_nil (s := u) hsched, engineStep_of_decode (decode_encode i), ht]
  have hpoll : step t = .next (hostReads t (memRead t 0x004) r) := by
    rw [step_of_idle hbusy (by rw [hhost]; exact hsched), hostTurn_wait (r := r) (by rw [hhost]), hbusy]
    rfl
  refine ⟨t, hostReads t (memRead t 0x004) r, ht, ?_, rfl, ?_, ?_, rfl⟩
  · rw [run_succ hissue, run_succ hexec, run_succ hpoll, run_zero]
  · rw [hostReads, State.advance_host, State.withHost_host, hhost]
  · rw [memRead_status, statusWord_getLsbD t (by decide), if_pos rfl, hbusy]

end Sys2Proof.Machine
end

section
/-! SUPPORT. LOADSRC, READDST and COPYDST as runs of the host alone, and the statements about them (30_encoding.md R103). -/

namespace Sys2Proof.Machine

/-! ### LOADSRC -/

/-- A byte sequence with zeros up to the end of its last word. -/
def wordPadded (bs : List Byte) : List Byte := bs ++ List.replicate ((bs.length + 3) / 4 * 4 - bs.length) 0

theorem wordPadded_length (bs : List Byte) : (wordPadded bs).length = (bs.length + 3) / 4 * 4 := by
  rw [wordPadded, List.length_append, List.length_replicate]
  omega

theorem wordPadded_getElem? (bs : List Byte) {i : Nat} (hi : i < (bs.length + 3) / 4 * 4) :
    (wordPadded bs)[i]? = if i < bs.length then bs[i]? else some 0 := by
  rw [wordPadded]
  split
  next h => exact List.getElem?_append_left h
  next h =>
    rw [List.getElem?_append_right (Nat.not_lt.1 h), List.getElem?_replicate]
    exact if_pos (by omega)

theorem packWords_length (bs : List Byte) : (packWords bs).length = (bs.length + 3) / 4 := by
  induction bs using packWords.induct with
  | case1 => rfl
  | case2 | case3 | case4 => simp [packWords]
  | case5 a b c d rest ih =>
    rw [packWords, List.length_cons, ih]
    simp only [List.length_cons]
    omega

/-- The words of LOADSRC hold the bytes, then zeros. -/
theorem flatMap_packWords (bs : List Byte) : (packWords bs).flatMap wordBytes = wordPadded bs := by
  induction bs using packWords.induct with
  | case1 => rfl
  | case2 | case3 | case4 => simp [packWords, wordBytes_bytesWord, wordPadded, List.replicate_succ]
  | case5 a b c d rest ih =>
    have hcount : ((a :: b :: c :: d :: rest).length + 3) / 4 * 4 - (a :: b :: c :: d :: rest).length =
        (rest.length + 3) / 4 * 4 - rest.length := by
      simp only [List.length_cons]
      omega
    rw [packWords, List.flatMap_cons, ih, wordBytes_bytesWord, wordPadded, wordPadded, hcount]
    rfl

theorem Memory.setBytes_append (m : Memory) (a : Nat) (xs ys : List Byte) :
    m.setBytes a (xs ++ ys) = (m.setBytes a xs).setBytes (a + xs.length) ys := by
  induction xs generalizing m a with
  | nil => rfl
  | cons x xs ih =>
    rw [List.cons_append, Memory.setBytes, ih, Memory.setBytes, List.length_cons, Nat.add_right_comm, Nat.add_assoc]

/-- What LOADSRC leaves in SRC: the bytes, zeros up to the end of their last word, then what stood there. -/
theorem get?_src_loadSrc (m : Memory) (bs : List Byte) (i : Nat) : (m.setBytes 0 (wordPadded bs)).get? i =
    if i < bs.length then bs[i]? else if i < (bs.length + 3) / 4 * 4 then some 0 else m.get? i := by
  have hlen := wordPadded_length bs
  obtain ⟨hin, hout⟩ := m.overwrites_setBytes (wordPadded bs)
  rw [hlen] at hin hout
  by_cases hi : i < (bs.length + 3) / 4 * 4
  · rw [hin i hi, wordPadded_getElem? bs hi, if_pos hi]
  · rw [hout i (Nat.not_lt.1 hi), if_neg (by omega), if_neg hi]

/-- The writes of words at consecutive word offsets. -/
def wordWrites (off : Nat) : List Word → List (Offset × Word)
  | [] => []
  | w :: ws => (BitVec.ofNat 14 off, w) :: wordWrites (off + 4) ws

theorem writeWords_eq (off : Nat) (ws : List Word) : writeWords off ws = (wordWrites off ws).map writeOp := by
  induction ws generalizing off with
  | nil => rfl
  | cons w ws ih => rw [writeWords, ih, wordWrites, List.map_cons, writeOp]

theorem wordWrites_length (off : Nat) (ws : List Word) : (wordWrites off ws).length = ws.length := by
  induction ws generalizing off with
  | nil => rfl
  | cons w ws ih => rw [wordWrites, List.length_cons, ih, List.length_cons]

section
variable {s : State} (hwf : s.params.wf = true)
include hwf

theorem wordOffset_ne_zero_of_mem_wordWrites {j : Nat} {ws : List Word} (hfit : 4 * (j + ws.length) ≤ s.params.bufBytes)
    {w : Offset × Word} (hw : w ∈ wordWrites (0x1000 + 4 * j) ws) : wordOffset w.1 ≠ 0 := by
  have hmax := bufBytes_le hwf
  induction ws generalizing j with
  | nil => cases hw
  | cons v ws ih =>
    rw [List.length_cons] at hfit
    rcases List.mem_cons.1 hw with rfl | hw
    · rw [wordOffset_ofNat (by omega) (by omega)]
      omega
    · exact ih (j := j + 1) (by omega) hw

/-- Words written to the SRC window one after another store their bytes one after another. -/
theorem writeAll_wordWrites (hb : s.busy = false) {j : Nat} {ws : List Word}
    (hfit : 4 * (j + ws.length) ≤ s.params.bufBytes) :
    writeAll s (wordWrites (0x1000 + 4 * j) ws) = s.storeSrc (4 * j) (ws.flatMap wordBytes) := by
  have hmax := bufBytes_le hwf
  induction ws generalizing s j with
  | nil => rfl
  | cons w ws ih =>
    rw [List.length_cons] at hfit
    have hl : locate s.params (BitVec.ofNat 14 (0x1000 + 4 * j)) = .src (4 * j) :=
      (locate_srcWord s.params (by omega)).trans (if_pos (by omega))
    have hrest := ih (s := s.storeSrc (4 * j) (wordBytes w)) hwf hb (j := j + 1)
      (by rw [State.storeSrc_params]; omega) hmax
    rw [wordWrites, writeAll, List.foldl_cons, memWrite_src hl hb, ← writeAll]
    refine hrest.trans ?_
    simp only [State.storeSrc, List.flatMap_cons, Memory.setBytes_append, wordBytes_length, Nat.mul_succ]

/-- LOADSRC, from an idle engine with an empty schedule (30_encoding.md R103). -/
theorem run_loadSrc {bs : List Byte} {r : List HostOp} (hb : s.busy = false) (hsched : s.host.sched = [])
    (hprog : s.host.prog = loadSrc bs ++ r) (hle : bs.length ≤ s.params.bufBytes) :
    core.run ((bs.length + 3) / 4 + 1) s = .next
      { s with src := s.src.setBytes 0 (wordPadded bs), srcLen := BitVec.ofNat 16 bs.length,
               host := { s.host with prog := r } } := by
  have hfit : 4 * (0 + (packWords bs).length) ≤ s.params.bufBytes := by
    have := bufBytes_mod hwf
    rw [packWords_length]
    omega
  let ws := wordWrites 0x1000 (packWords bs) ++ [(0x00C, BitVec.ofNat 32 bs.length)]
  have hlen : ws.length = (bs.length + 3) / 4 + 1 := by
    rw [List.length_append, wordWrites_length, packWords_length, List.length_singleton]
  have hops : loadSrc bs = ws.map writeOp := by
    rw [loadSrc, writeWords_eq, List.map_append]
    rfl
  have hissue : ∀ w ∈ ws, wordOffset w.1 ≠ 0 := fun w hw => by
    rcases List.mem_append.1 hw with hw | hw
    · exact wordOffset_ne_zero_of_mem_wordWrites hwf hfit hw
    · cases List.mem_singleton.1 hw
      exact (by decide : wordOffset 0x00C ≠ 0)
  have hstate : writeAll s ws =
      { s with src := s.src.setBytes 0 (wordPadded bs), srcLen := BitVec.ofNat 16 bs.length } := by
    have hbytes : writeAll s (wordWrites 0x1000 (packWords bs)) = s.storeSrc 0 (wordPadded bs) := by
      rw [← flatMap_packWords]
      exact writeAll_wordWrites hwf hb hfit
    have hlast := memWrite_reg_of_idle (s := s.storeSrc 0 (wordPadded bs)) (a := 0x00C) (r := .srcLen) hb
      (locate_eq_reg_iff.2 rfl) (BitVec.ofNat 32 bs.length)
    rw [writeAll] at hbytes ⊢
    rw [List.foldl_append, hbytes, List.foldl_cons, List.foldl_nil, hlast, writeReg,
      BitVec.setWidth_ofNat_of_le (by decide)]
    rfl
  have hrun := run_writes hb hsched (hops ▸ hprog) hissue
  rwa [hlen, hstate] at hrun

end

/-- Settles O56: SRC is overwritten with the padded bytes, from index 0 on. -/
theorem loadSrcFillsSrc : Obligations.LoadSrcFillsSrc := by
  unfold Obligations.LoadSrcFillsSrc
  intro s bs r hwf hb hsched hprog hle
  refine ⟨_, run_loadSrc hwf hb hsched hprog hle, rfl, toNat_ofNat_length hwf hle, fun i hi => ?_, fun i hi => ?_, rfl⟩
  · exact (get?_src_loadSrc s.src bs i).trans (by rw [if_pos hi])
  · exact (get?_src_loadSrc s.src bs i).trans (by rw [if_neg (Nat.not_lt.2 hi)])

end Sys2Proof.Machine
end

section
/-! SUPPORT. READDST and COPYDST as runs of the host alone, and the statements about them (30_encoding.md R103). -/

namespace Sys2Proof.Machine

/-! ### The words of a written output -/

/-- Four bytes of the buffer go through a bus word unchanged (20_memory.md R62). -/
theorem wordBytes_bytesWord_read (m : Memory) (a k : Nat) : wordBytes (bytesWord (m.read a 4 k)) = m.read a 4 k :=
  wordBytes_bytesWord _

/-- What READDST has collected when it ends. -/
theorem read_getElem?_of_written {d : Memory} {m : Nat} (hd : ∀ i, i < m → (d.get? i).isSome = true) {i : Nat}
    (hi : i < m) (k : Nat) : (d.read 0 m k)[i]? = d.get? i := by
  obtain ⟨b, hb⟩ := Option.isSome_iff_exists.1 (hd i hi)
  rw [Memory.read_getElem?, if_pos hi, Nat.zero_add, Memory.readByte, hb, Option.getD_some]

/-- Where all of `d[0..m)` is written, word `j` continues what the words before it gave, whatever is read beyond `m`. -/
theorem take_append_read {d : Memory} {m : Nat} (hd : ∀ i, i < m → (d.get? i).isSome = true) (j k : Nat) :
    ((d.read 0 m 0).take (4 * j) ++ d.read (4 * j) 4 k).take m = (d.read 0 m 0).take (4 * (j + 1)) := by
  refine List.ext_getElem? fun i => ?_
  rw [List.getElem?_take, List.getElem?_take]
  by_cases him : i < m
  · rw [if_pos him, read_getElem?_of_written hd him, List.getElem?_append, List.length_take, Memory.read_length]
    by_cases hij : i < 4 * j
    · rw [if_pos (by omega), if_pos (by omega), List.getElem?_take_of_lt hij, read_getElem?_of_written hd him]
    · obtain ⟨b, hb⟩ := Option.isSome_iff_exists.1 (hd i him)
      rw [if_neg (by omega), Memory.read_getElem?, show 4 * j + (i - min (4 * j) m) = i by omega, Memory.readByte, hb,
        Option.getD_some]
      exact if_congr (by omega) rfl rfl
  · rw [if_neg him, List.getElem?_eq_none (by rw [Memory.read_length]; omega), ite_self]

/-! ### One access of READDST and COPYDST -/

/-- The host agent after it has logged `w` and gone on with `prog` and `buf`. -/
def HostSide.readOn (h : HostSide) (w : Word) (prog : List HostOp) (buf : List Byte) : HostSide :=
  { h with prog := prog, log := w :: h.log, buf := buf }

theorem collectWord_eq (s : State) (m j : Nat) (copy : Bool) (r : List HostOp) :
    let w := memRead s (BitVec.ofNat 14 (0x2000 + 4 * j))
    let bs := s.host.buf ++ wordBytes w
    collectWord s m j copy r =
      if m ≤ 4 * (j + 1) then
        (s.withHost (s.host.readOn w ((if copy then loadSrc (bs.take m) else []) ++ r) (bs.take m))).advance 4
      else (s.withHost (s.host.readOn w (.collect m (j + 1) copy :: r) bs)).advance 4 := by
  rfl

theorem startCollect_eq (s : State) (copy : Bool) (r : List HostOp) :
    startCollect s copy r =
      if s.dstLen.toNat = 0 then
        (s.withHost (s.host.readOn (memRead s 0x010) ((if copy then loadSrc [] else []) ++ r) [])).advance 4
      else (s.withHost (s.host.readOn (memRead s 0x010) (.collect s.dstLen.toNat 0 copy :: r) [])).advance 4 := by
  have hlen : (memRead s 0x010).toNat = s.dstLen.toNat := by
    rw [memRead_reg (r := .dstLen) (locate_eq_reg_iff.2 rfl), readReg, BitVec.toNat_setWidth_of_le (by decide)]
  rw [← hlen]
  rfl

/-! ### The whole of READDST and COPYDST -/

/-- The run ends with `bs` in the buffer and nothing changed but the host agent and the count of reads, COPYDST's host
going on with LOADSRC. -/
def CollectsIn (k : Nat) (s : State) (copy : Bool) (r : List HostOp) (bs : List Byte) : Prop :=
  ∃ h n, core.run k s = .next ((s.withHost h).advance n) ∧ h.sched = [] ∧ h.buf = bs ∧
    h.prog = (if copy then loadSrc bs else []) ++ r

theorem CollectsIn.of_step {k : Nat} {s : State} {h : HostSide} {n : Nat} {copy : Bool} {r : List HostOp}
    {bs : List Byte} (hstep : step s = .next ((s.withHost h).advance n))
    (hrest : CollectsIn k ((s.withHost h).advance n) copy r bs) : CollectsIn (k + 1) s copy r bs := by
  obtain ⟨h', n', hrun, hend⟩ := hrest
  refine ⟨h', n + n', (run_succ hstep k).trans (hrun.trans ?_), hend⟩
  rw [State.advance, State.advance, State.advance]
  simp only [State.withHost, Nat.add_assoc]

section
variable {s : State} {copy : Bool} {r : List HostOp} (hs : s.Inv) (hb : s.busy = false) (hsched : s.host.sched = [])
include hs hb hsched

theorem collectsIn_of_collect {j k : Nat} (hj : 4 * j < s.dstLen.toNat) (hk : (s.dstLen.toNat + 3) / 4 = j + k)
    (hprog : s.host.prog = .collect s.dstLen.toNat j copy :: r)
    (hbuf : s.host.buf = (s.dst.read 0 s.dstLen.toNat 0).take (4 * j)) :
    CollectsIn k s copy r (s.dst.read 0 s.dstLen.toNat 0) := by
  induction k generalizing s j with
  | zero => omega
  | succ k ih =>
    have ⟨hwf, _, ⟨hle, hwritten⟩, _⟩ := hs
    have hmax := bufBytes_le hwf
    have hl : locate s.params (BitVec.ofNat 14 (0x2000 + 4 * j)) = .dst (4 * j) :=
      (locate_dstWord s.params (by omega)).trans (if_pos (by omega))
    have hword := take_append_read hwritten j s.tick
    have hturn : hostTurn s = collectWord s s.dstLen.toNat j copy r := by rw [hostTurn, hprog]
    have hstep := (step_of_idle hb hsched).trans (congrArg _ (hturn.trans (collectWord_eq s _ j copy r)))
    rw [memRead_dst hl, wordBytes_bytesWord_read, hbuf] at hstep
    split at hstep
    next hlast =>
      rw [hword, List.take_of_length_le (by rwa [Memory.read_length])] at hstep
      obtain rfl : k = 0 := by omega
      exact ⟨_, _, run_succ hstep 0, hsched, rfl, rfl⟩
    next hmore =>
      rw [List.take_of_length_le (by simp; omega)] at hword
      rw [hword] at hstep
      have hrest : (s.dstLen.toNat + 3) / 4 = j + 1 + k := by omega
      exact .of_step hstep
        (ih (s := State.advance 4 (State.withHost _ s)) hs hb hsched (Nat.not_le.1 hmore) hrest rfl rfl)

/-- READDST and COPYDST take one read of DST_LEN and one for each word of the output (R103). -/
theorem collectsIn_of_start (hturn : hostTurn s = startCollect s copy r) :
    CollectsIn ((s.dstLen.toNat + 3) / 4 + 1) s copy r (s.dst.read 0 s.dstLen.toNat 0) := by
  have hstep := (step_of_idle hb hsched).trans (congrArg _ (hturn.trans (startCollect_eq s copy r)))
  split at hstep
  next hzero =>
    rw [hzero]
    exact ⟨_, _, run_succ hstep 0, hsched, rfl, rfl⟩
  next hpos =>
    refine .of_step hstep
      (collectsIn_of_collect (j := 0) (by exact hs) (by exact hb) (by exact hsched) ?_ ?_ rfl rfl)
    · exact Nat.pos_of_ne_zero hpos
    · exact (Nat.zero_add _).symm

end

/-- Settles O57: the buffer ends with the output's bytes, all of which are written. -/
theorem readDstCollectsTheOutput : Obligations.ReadDstCollectsTheOutput := by
  unfold Obligations.ReadDstCollectsTheOutput
  intro s r hs hb hsched hprog
  have ⟨_, _, ⟨_, hwritten⟩, _⟩ := hs
  obtain ⟨h, n, hrun, -, hbuf, hrest⟩ :=
    collectsIn_of_start (copy := false) (r := r) hs hb hsched (by rw [hostTurn, hprog])
  refine ⟨_, hrun, hrest, ?_, fun i hi => ?_, rfl⟩
  · rw [State.advance_host, State.withHost_host, hbuf, Memory.read_length]
  · rw [State.advance_host, State.withHost_host, hbuf, read_getElem?_of_written hwritten hi]

/-- Settles O58: READDST's run, then LOADSRC's run on the bytes it collected. -/
theorem copyDstMovesTheOutputToSrc : Obligations.CopyDstMovesTheOutputToSrc := by
  unfold Obligations.CopyDstMovesTheOutputToSrc
  intro s r hs hb hsched hprog
  have ⟨hwf, _, ⟨hle, hwritten⟩, _⟩ := hs
  obtain ⟨h, n, hrun, hsched', -, hrest⟩ :=
    collectsIn_of_start (copy := true) (r := r) hs hb hsched (by rw [hostTurn, hprog])
  have hlen : (s.dst.read 0 s.dstLen.toNat 0).length = s.dstLen.toNat := Memory.read_length ..
  have hload := run_loadSrc (s := (s.withHost h).advance n) hwf hb hsched' hrest (by rwa [hlen])
  have hget := get?_src_loadSrc s.src (s.dst.read 0 s.dstLen.toNat 0)
  rw [hlen] at hload hget
  have hboth := (run_add hrun _).trans hload
  rw [show (s.dstLen.toNat + 3) / 4 + 1 + ((s.dstLen.toNat + 3) / 4 + 1) = 2 * ((s.dstLen.toNat + 3) / 4) + 2 by omega]
    at hboth
  refine ⟨_, hboth, rfl, ⟨rfl, ?_, fun i hi => (hget i).trans ?_⟩, fun i hi => (hget i).trans ?_, rfl⟩
  · exact (BitVec.ofNat_toNat 16 s.dstLen).trans (BitVec.setWidth_eq _)
  · rw [if_pos hi, read_getElem?_of_written hwritten hi]
  · rw [if_neg (Nat.not_lt.2 hi)]

end Sys2Proof.Machine
end
